-- ==== Sys2Proof/Word.lean ====
section
/-! DEFINITION. The words that cross the block's bus and the bytes its memories are held in (20_memory.md R83, R84). -/

namespace Sys2Proof

/-- One byte of a sample memory: byte `k` of a 32-bit bus word is its bits `[8k+7:8k]` (R83). -/
abbrev Byte := BitVec 8

/-- One 32-bit word: a command word, a register, or the data of a host access (R42, R84, R110). -/
abbrev Word := BitVec 32

end Sys2Proof
end

