-- ==== Sys2Proof/Config.lean ====
section
/-! DEFINITION. The synthesis-time parameters of one instance of the block (00_scope.md R7).
They are plain data carried in `State.cfg`, so every statement about every state covers every instance.
LATENCY is not here: no rule depends on it (R290) and the order of `State.pending` stands for it (assumption log 3). -/

namespace Sys2Proof

/-- `SAMPLE_FMT`: the one IEEE 754 format of every component (R7, R20). -/
inductive SampleFmt where
  | f32
  | f64
  deriving DecidableEq, Repr

/-- The parameters of R7. `log2Nmax` is `LOG2_NMAX` (legal 0 to 16), `base` is `BASE` (legal multiples of 0x400000). -/
structure Config where
  fmt : SampleFmt
  log2Nmax : Nat
  base : Nat
  deriving DecidableEq, Repr

/-- The instance `State.reset` shows: F32 with `LOG2_NMAX = 4`, the convention of 95_test_vectors.md, at `BASE = 0`.
DESIGN CHOICE, unsafe for a claim about `State.reset` itself (assumption log 1). -/
def Config.shown : Config := { fmt := .f32, log2Nmax := 4, base := 0 }

end Sys2Proof
end

