-- ==== Sys2Proof/Syntax.lean ====
section
/-! DEFINITION. What can be said to the block: the twelve commands (30_encoding.md R113), the host accesses
(20_memory.md R84), the events of the two agents and of the reset input, and the host script operations (R117, R118). -/

namespace Sys2Proof

/-- The twelve commands of R113. A command word carries no operand field and no immediate (R112). -/
inductive Instr where
  /-- 0x00000001, R141. -/
  | configure
  /-- 0x00000002, R201. -/
  | forward
  /-- 0x00000003, R203. -/
  | inverse
  /-- 0x00000004, R205. -/
  | realForward
  /-- 0x00000005, R207. -/
  | realSpectrum
  /-- 0x00000006, R209. -/
  | inverseReal
  /-- 0x00000010, R160. -/
  | loadComplex
  /-- 0x00000011, R162. -/
  | loadReal
  /-- 0x00000012, R164. -/
  | bitrev
  /-- 0x00000013, R184. -/
  | butterflyFwd
  /-- 0x00000014, R185. -/
  | butterflyInv
  /-- 0x00000015, R186. -/
  | scaleInv
  deriving DecidableEq, Repr

/-- The registers of the register page (10_state.md R42). -/
inductive Reg where
  | id | version | caps | ctrl | status | cmd | cfgLen | inLen | n | log2n | outLen | errCode
  deriving DecidableEq, Repr

/-- The three sample memories (R57, R58, R59). -/
inductive MemName where
  | inp | work | tw
  deriving DecidableEq, Repr

/-- The sizes a host access can have; only `w32` is ever performed (R84). -/
inductive Width where
  | w8 | w16 | w32 | w64
  deriving DecidableEq, Repr

/-- One host access at a bus address (R11, R84). Of a write's data only the low 32 bits are given: a 64-bit access is never performed. -/
inductive Access where
  | read (addr : Nat) (width : Width)
  | write (addr : Nat) (width : Width) (v : Word)
  deriving DecidableEq, Repr

/-- One step of one agent: a host access (R94), the controller's turn to complete (R233), or assertion of `RST` (R270). -/
inductive Event where
  | host (a : Access)
  | controller
  | rst
  deriving DecidableEq, Repr

/-- The host script operations: `wr` and `rd` (R117) and the pseudo-instructions of R118.
`off` is a window offset, `i` an entry index, `re` and `im` component bit patterns. -/
inductive ScriptOp where
  | wr (off : Nat) (v : Word)
  | rd (off : Nat)
  | cmd (c : Instr)
  | wait
  | run (c : Instr)
  | cfg (len : Word)
  | ldin (i re im : Nat)
  | ldwork (i re im : Nat)
  | rdwork (i : Nat)
  | rdtw (i : Nat)
  | clr
  deriving DecidableEq, Repr

end Sys2Proof
end

