-- ==== Sys2Proof/Machine/Format.lean ====
section
/-! DEFINITION. The numbers of the sample formats and of the address map: field widths (00_scope.md R20), component and
entry sizes (R7), and where each register and each window lies (10_state.md R42, 20_memory.md R80). -/

namespace Sys2Proof

/-- Bits of one component: 32 or 64 (R20). -/
abbrev SampleFmt.width : SampleFmt → Nat
  | .f32 => 32
  | .f64 => 64

/-- Exponent field width: 8 or 11 (R20). -/
def SampleFmt.expBits : SampleFmt → Nat
  | .f32 => 8
  | .f64 => 11

/-- Fraction field width: 23 or 52 (R20). The precision `p` of R21 is one more. -/
def SampleFmt.fracBits : SampleFmt → Nat
  | .f32 => 23
  | .f64 => 52

/-- Exponent bias: 127 or 1023 (R20). -/
def SampleFmt.bias : SampleFmt → Nat
  | .f32 => 127
  | .f64 => 1023

/-- `S`, the bytes of one component: 4 or 8 (R7). -/
def SampleFmt.compBytes : SampleFmt → Nat
  | .f32 => 4
  | .f64 => 8

/-- `ES = 2·S`, the bytes of one complex entry: 8 or 16 (R7). -/
def SampleFmt.entryBytes (f : SampleFmt) : Nat := 2 * f.compBytes

/-- `SAMPLE_FMT_BIT`: CAPS.FMT is 0 for F32, 1 for F64 (R44). -/
def SampleFmt.bit : SampleFmt → BitVec 1
  | .f32 => 0
  | .f64 => 1

/-- `NMAX = 2^LOG2_NMAX` (R7). -/
def Config.nmax (c : Config) : Nat := 2 ^ c.log2Nmax

/-- Bytes of one sample memory: `NMAX` entries of `ES` bytes (R57). -/
def Config.memBytes (c : Config) : Nat := c.nmax * c.fmt.entryBytes

/-- Bytes of the block's window on the host bus: 4 MiB (R80). -/
def windowBytes : Nat := 0x400000

/-- Bytes of one of its four windows: 1 MiB (R80). -/
def regionBytes : Nat := 0x100000

/-- The bus address of an access. -/
def Access.addr : Access → Nat
  | .read a _ => a
  | .write a _ _ => a

/-- The width of an access. -/
def Access.width : Access → Width
  | .read _ w => w
  | .write _ w _ => w

namespace Machine

/-- Window offset of each register (R42). -/
def regOffset : Reg → Nat
  | .id => 0x000
  | .version => 0x004
  | .caps => 0x008
  | .ctrl => 0x00C
  | .status => 0x010
  | .cmd => 0x014
  | .cfgLen => 0x018
  | .inLen => 0x01C
  | .n => 0x020
  | .log2n => 0x024
  | .outLen => 0x028
  | .errCode => 0x02C

/-- Every register of R42. -/
def allRegs : List Reg :=
  [.id, .version, .caps, .ctrl, .status, .cmd, .cfgLen, .inLen, .n, .log2n, .outLen, .errCode]

/-- The register at a register-page offset; none at a reserved offset (R55). -/
def regAt (o : Nat) : Option Reg := allRegs.find? (fun r => regOffset r == o)

/-- Window offset where the window of a sample memory begins (R80). -/
def memBase : MemName → Nat
  | .inp => 0x100000
  | .work => 0x200000
  | .tw => 0x300000

/-- Which of the four windows a window offset lies in, and the offset `a[19:0]` inside it (R80, R82). -/
inductive Region where
  | regs (o : Nat)
  | mem (k : MemName) (o : Nat)
  deriving DecidableEq, Repr

/-- `a[21:20]` selects the window; every offset decodes to one (R80). -/
def regionOf (a : Nat) : Region :=
  let o := a % regionBytes
  match a / regionBytes % 4 with
  | 0 => .regs o
  | 1 => .mem .inp o
  | 2 => .mem .work o
  | _ => .mem .tw o

end Machine
end Sys2Proof
end

