-- ==== Sys2Proof/WellFormed.lean ====
section
/-! DEFINITION. Which terms of the syntax the spec admits. A command has no operand (30_encoding.md R112), so every `Instr`
is well formed; the checks are those of the parameters (00_scope.md R7), of host accesses (20_memory.md R80, R84) and of the
host script operations (30_encoding.md R117, R118). -/

namespace Sys2Proof

/-- Every command is well formed: a command word has no operand field and no immediate (R112). -/
def Instr.wf : Instr → Bool
  | .configure => true
  | .forward => true
  | .inverse => true
  | .realForward => true
  | .realSpectrum => true
  | .inverseReal => true
  | .loadComplex => true
  | .loadReal => true
  | .bitrev => true
  | .butterflyFwd => true
  | .butterflyInv => true
  | .scaleInv => true

/-- The legal parameter values of R7: `LOG2_NMAX` is 0 to 16 and `BASE` a multiple of 0x400000. -/
def Config.wf (c : Config) : Bool := decide (c.log2Nmax ≤ 16) && decide (c.base % windowBytes = 0)

/-- An access the block performs: inside its window (R80), 32 bits wide, at a multiple of 4 (R84). -/
def Access.wf (c : Config) (a : Access) : Bool :=
  decide (c.base ≤ a.addr) && decide (a.addr < c.base + windowBytes) && decide (a.width = .w32)
    && decide ((a.addr - c.base) % 4 = 0)

/-- A script operation of R117 and R118 that names offsets of the window, entries the memory has, and bit patterns of the format. -/
def ScriptOp.wf (c : Config) : ScriptOp → Bool
  | .wr off _ => decide (off < windowBytes) && decide (off % 4 = 0)
  | .rd off => decide (off < windowBytes) && decide (off % 4 = 0)
  | .cmd i => i.wf
  | .wait => true
  | .run i => i.wf
  | .cfg _ => true
  | .ldin i re im => decide (i < c.nmax) && decide (re < 2 ^ c.fmt.width) && decide (im < 2 ^ c.fmt.width)
  | .ldwork i re im => decide (i < c.nmax) && decide (re < 2 ^ c.fmt.width) && decide (im < 2 ^ c.fmt.width)
  | .rdwork i => decide (i < c.nmax)
  | .rdtw i => decide (i < c.nmax)
  | .clr => true

end Sys2Proof
end

