-- ==== Sys2Proof/Decode.lean ====
section
/-! DEFINITION. The CMD32 word (30_encoding.md R110 to R116): the decoder, total on every word and on any bytes, rejecting by
name; after it the encoder, written from the opcode map of R113. -/

namespace Sys2Proof

/-- Why bytes are no command. Every rejected word completes with ILLEGAL_COMMAND (R115, R116, R234). -/
inductive DecodeReject where
  /-- Fewer than the four bytes of a word (R110: there are no other lengths). -/
  | truncated
  /-- A bit of RSVD, `word[31:8]`, is 1 (R111, R115). -/
  | reservedBits
  /-- OPCODE 0x00: illegal, not a no-op (R116). -/
  | opcodeZero
  /-- OPCODE 0x07 to 0x0F, reserved for future facade commands (R116). -/
  | reservedFacade
  /-- OPCODE 0x16 to 0xFF, reserved for future primitive commands (R116). -/
  | reservedPrimitive
  deriving DecidableEq, Repr

/-- `OPCODE = word[7:0]` (R111). -/
def opcodeField (w : Word) : BitVec 8 := w.extractLsb' 0 8

/-- `RSVD = word[31:8]` (R111). -/
def rsvdField (w : Word) : BitVec 24 := w.extractLsb' 8 24

/-- The opcode map of R113 and its gaps (R115, R116). -/
def decodeOpcode (op : BitVec 8) : Except DecodeReject Instr :=
  match op.toNat with
  | 0x00 => .error .opcodeZero
  | 0x01 => .ok .configure
  | 0x02 => .ok .forward
  | 0x03 => .ok .inverse
  | 0x04 => .ok .realForward
  | 0x05 => .ok .realSpectrum
  | 0x06 => .ok .inverseReal
  | 0x10 => .ok .loadComplex
  | 0x11 => .ok .loadReal
  | 0x12 => .ok .bitrev
  | 0x13 => .ok .butterflyFwd
  | 0x14 => .ok .butterflyInv
  | 0x15 => .ok .scaleInv
  | k => if k < 0x10 then .error .reservedFacade else .error .reservedPrimitive

/-- "legal iff `word[31:8] = 0` and `OPCODE` is in the table" (R113). -/
def decodeWord (w : Word) : Except DecodeReject Instr :=
  if rsvdField w = 0 then decodeOpcode (opcodeField w) else .error .reservedBits

/-- The 32-bit word of four bytes in address order: byte `k` is bits `[8k+7:8k]` (20_memory.md R83). -/
def wordOfBytes (b0 b1 b2 b3 : Byte) : Word := b3 ++ (b2 ++ (b1 ++ b0))

/-- One command from the front of a list of bytes, and the bytes after it. -/
def decodeBytes : List Byte → Except DecodeReject (Instr × List Byte)
  | b0 :: b1 :: b2 :: b3 :: rest => (decodeWord (wordOfBytes b0 b1 b2 b3)).map (fun i => (i, rest))
  | _ => .error .truncated

/-- The OPCODE of each command (R113). -/
def opcodeOf : Instr → BitVec 8
  | .configure => 0x01
  | .forward => 0x02
  | .inverse => 0x03
  | .realForward => 0x04
  | .realSpectrum => 0x05
  | .inverseReal => 0x06
  | .loadComplex => 0x10
  | .loadReal => 0x11
  | .bitrev => 0x12
  | .butterflyFwd => 0x13
  | .butterflyInv => 0x14
  | .scaleInv => 0x15

/-- The word of a command: RSVD zero, then OPCODE (R111). -/
def encode (i : Instr) : Word := (0 : BitVec 24) ++ opcodeOf i

/-- The four bytes of a word, least significant first (R83). -/
def bytesOfWord (w : Word) : List Byte :=
  [w.extractLsb' 0 8, w.extractLsb' 8 8, w.extractLsb' 16 8, w.extractLsb' 24 8]

/-- The bytes of a command's word in address order. -/
def encodeBytes (i : Instr) : List Byte := bytesOfWord (encode i)

/-- The word that `nbits` low bits `w` of the opcode table stand for, every bit above `nbits` zero. -/
def tableWord (nbits w : Nat) : Word := BitVec.ofNat 32 (w % 2 ^ nbits)

/-- The instruction the decoder reads from the bits of an opcode-table row. -/
def decodeTableWord (nbits w : Nat) : Option Instr :=
  match decodeBytes (bytesOfWord (tableWord nbits w)) with
  | .ok (i, _) => some i
  | .error _ => none

end Sys2Proof
end

