-- ==== Sys2Proof/Machine/Fp.lean ====
section
/-! DEFINITION. The floating-point primitives (00_scope.md R20 to R28). A finite component is an integer multiple of the
format's least subnormal, so each primitive is exact integer arithmetic followed by one rounding. -/

namespace Sys2Proof.Machine

/-- The bit pattern of one real component (R20). -/
abbrev Comp (f : SampleFmt) := BitVec f.width

/-- The sign bit. -/
def signOf {f : SampleFmt} (x : Comp f) : Bool := x.msb

/-- The pattern without its sign bit, as a number. -/
def magOf {f : SampleFmt} (x : Comp f) : Nat := x.toNat % 2 ^ (f.width - 1)

/-- The magnitude pattern of infinity: all exponent bits 1, fraction 0 (R20). -/
def infMag (f : SampleFmt) : Nat := (2 ^ f.expBits - 1) * 2 ^ f.fracBits

/-- A component from its sign and magnitude pattern. -/
def packComp (f : SampleFmt) (neg : Bool) (mag : Nat) : Comp f :=
  BitVec.ofNat f.width ((if neg then 2 ^ (f.width - 1) else 0) + mag)

/-- `+0` (R10). -/
def posZero (f : SampleFmt) : Comp f := 0

/-- The canonical quiet NaN: sign 0, quiet bit 1, rest of the fraction 0 (R23). -/
def canonNaN (f : SampleFmt) : Comp f := packComp f false (infMag f + 2 ^ (f.fracBits - 1))

/-- A NaN, signalling or quiet (R23). -/
def isNaN {f : SampleFmt} (x : Comp f) : Bool := decide (infMag f < magOf x)

/-- An infinity of either sign. -/
def isInf {f : SampleFmt} (x : Comp f) : Bool := decide (magOf x = infMag f)

/-- A zero of either sign. -/
def isZero {f : SampleFmt} (x : Comp f) : Bool := decide (magOf x = 0)

/-- The value of a finite magnitude pattern is `magUnits` times the least subnormal `2^-unitExp`: 149 or 1074 (R20). -/
def unitExp (f : SampleFmt) : Nat := f.bias - 1 + f.fracBits

/-- A finite magnitude pattern in units of the least subnormal (R20). -/
def magUnits (f : SampleFmt) (mag : Nat) : Nat :=
  let e := mag / 2 ^ f.fracBits
  let m := mag % 2 ^ f.fracBits
  if e = 0 then m else (2 ^ f.fracBits + m) * 2 ^ (e - 1)

/-- A finite component in units of the least subnormal. -/
def toUnits {f : SampleFmt} (x : Comp f) : Int :=
  if signOf x then -(magUnits f (magOf x) : Int) else magUnits f (magOf x)

/-- Number of bits of a natural number. -/
def bitLength (q : Nat) : Nat := if q = 0 then 0 else Nat.log2 q + 1

/-- Round the exact magnitude `num / den` units (`den > 0`) to a magnitude pattern by roundTiesToEven, overflow giving
infinity and small results subnormal or zero (R21). The granule is `2^sh` units, `sh` keeping the precision `fracBits + 1`. -/
def roundMag (f : SampleFmt) (num den : Nat) : Nat :=
  let sh := bitLength (num / den) - (f.fracBits + 1)
  let g := den * 2 ^ sh
  let m := num / g
  let r := num % g
  let up := decide (g < 2 * r) || (decide (2 * r = g) && decide (m % 2 = 1))
  min (sh * 2 ^ f.fracBits + (if up then m + 1 else m)) (infMag f)

/-- The component of sign `neg` and magnitude `num / den` units, rounded once (R21). -/
def roundComp (f : SampleFmt) (neg : Bool) (num den : Nat) : Comp f := packComp f neg (roundMag f num den)

/-- The component nearest the real number `num / den` (`den > 0`); exact for the constants of R28. -/
def ofRatio (f : SampleFmt) (num den : Nat) : Comp f := roundComp f false (num * 2 ^ unitExp f) den

/-- The other sign, every other bit kept. -/
def fneg {f : SampleFmt} (x : Comp f) : Comp f := packComp f (!signOf x) (magOf x)

/-- `fadd_F` (R21 to R24). -/
def fadd {f : SampleFmt} (x y : Comp f) : Comp f :=
  if isNaN x || isNaN y then canonNaN f
  else if isInf x then (if isInf y && (signOf x != signOf y) then canonNaN f else x)
  else if isInf y then y
  else
    let s := toUnits x + toUnits y
    if s = 0 then packComp f (signOf x && signOf y) 0
    else roundComp f (decide (s < 0)) s.natAbs 1

/-- `fsub(x, y) = fadd(x, -y)` for every operand pair (R24). -/
def fsub {f : SampleFmt} (x y : Comp f) : Comp f := fadd x (fneg y)

/-- `fmul_F` (R21 to R24). -/
def fmul {f : SampleFmt} (x y : Comp f) : Comp f :=
  let neg := signOf x != signOf y
  if isNaN x || isNaN y then canonNaN f
  else if isInf x || isInf y then (if isZero x || isZero y then canonNaN f else packComp f neg (infMag f))
  else roundComp f neg ((toUnits x).natAbs * (toUnits y).natAbs) (2 ^ unitExp f)

/-- `fdiv_F` (R21 to R24). A finite nonzero value over a zero is an infinity, as IEEE 754 fixes it (PRESUMED, assumption log 10); no command
divides by zero (R186). -/
def fdiv {f : SampleFmt} (x y : Comp f) : Comp f :=
  let neg := signOf x != signOf y
  if isNaN x || isNaN y then canonNaN f
  else if isInf x then (if isInf y then canonNaN f else packComp f neg (infMag f))
  else if isInf y then packComp f neg 0
  else if isZero y then (if isZero x then canonNaN f else packComp f neg (infMag f))
  else roundComp f neg ((toUnits x).natAbs * 2 ^ unitExp f) (toUnits y).natAbs

/-- Newton's iteration for the integer square root of `q` from above, at most `fuel` steps. -/
def isqrtFrom (q : Nat) : Nat → Nat → Nat
  | 0, x => x
  | fuel + 1, x =>
    let y := (x + q / x) / 2
    if y < x then isqrtFrom q fuel y else x

/-- The integer square root: the greatest `r` with `r * r ≤ q`. -/
def isqrt (q : Nat) : Nat :=
  if q = 0 then 0 else isqrtFrom q (bitLength q) (2 ^ ((bitLength q + 1) / 2))

/-- `fsqrt_F` (R21 to R24). The root of `k` units is the root of `k * 2^unitExp` in units; its floor and whether it is exact
fix the rounding, since a nonzero root is far above the least normal number and so its granule is more than one unit. -/
def fsqrt {f : SampleFmt} (x : Comp f) : Comp f :=
  if isNaN x then canonNaN f
  else if isZero x then x
  else if signOf x then canonNaN f
  else if isInf x then x
  else
    let q := magUnits f (magOf x) * 2 ^ unitExp f
    let r := isqrt q
    roundComp f false (2 * r + (if r * r = q then 0 else 1)) 2

/-- A complex entry: real and imaginary component (R10, R20). -/
structure Entry (f : SampleFmt) where
  re : Comp f
  im : Comp f
  deriving DecidableEq, Repr

/-- `(+0, +0)`. -/
def zeroEntry (f : SampleFmt) : Entry f := ⟨posZero f, posZero f⟩

/-- `cadd_F` (R26). -/
def cadd {f : SampleFmt} (a b : Entry f) : Entry f := ⟨fadd a.re b.re, fadd a.im b.im⟩

/-- `csub_F` (R26). -/
def csub {f : SampleFmt} (a b : Entry f) : Entry f := ⟨fsub a.re b.re, fsub a.im b.im⟩

/-- `cmul_F`: four products and two sums, each rounded separately (R26). -/
def cmul {f : SampleFmt} (b w : Entry f) : Entry f :=
  ⟨fsub (fmul b.re w.re) (fmul b.im w.im), fadd (fmul b.re w.im) (fmul b.im w.re)⟩

end Sys2Proof.Machine
end

