-- ==== Sys2Proof/Machine/State.lean ====
section
/-! DEFINITION. The state of the block (10_state.md R62), plain data, with the reasons a step can stop and the state after
reset (70_reset_and_hazards.md R270). -/

namespace Sys2Proof.Machine

/-- A sample memory: the bytes written since reset, by byte offset inside the memory's 1 MiB window (20_memory.md R82, R83),
offsets strictly rising. A byte that is not listed was never written since reset and holds no value (10_state.md R64). -/
abbrev Memory := List Host.Cell

/-- The outcome of a command (60_exceptions.md R235). Codes 6 to 15 are never produced. -/
inductive ErrCode where
  | ok | illegalCommand | invalidLength | capacity | notConfigured | sizeMismatch
  deriving DecidableEq, Repr

/-- The copy of the command word and its operand registers taken at acceptance (R60). It is meaningful exactly while BUSY = 1. -/
structure Latch where
  word : Word
  cfg : Word
  inlen : Word
  reject : Bool
  deriving DecidableEq, Repr

/-- What the slave port answered to the latest host access; the model's own field (assumption log 4). -/
inductive BusResp where
  /-- No access since reset. -/
  | none
  /-- Read data. -/
  | data (v : Word)
  /-- A performed write. -/
  | ack
  /-- The error response of R84. -/
  | busError
  /-- The address lies outside this block's window, so the access does not reach it (R80). -/
  | notSelected
  deriving DecidableEq, Repr

/-- The complete architectural state of R62, the parameters of R7, and the model's own `pending` and `resp`. -/
structure State where
  /-- SAMPLE_FMT, LOG2_NMAX, BASE (R7). No step changes them. -/
  cfg : Config
  /-- CTRL.IE_DONE (R45). -/
  ieDone : Bool
  /-- CTRL.IE_ERR (R45). -/
  ieErr : Bool
  /-- CTRL.OVERSIZE_REJECT (R45). -/
  oversizeReject : Bool
  /-- STATUS.BUSY (R46). -/
  busy : Bool
  /-- STATUS.DONE (R46). -/
  done : Bool
  /-- STATUS.ERR (R46). -/
  err : Bool
  /-- STATUS.SIZE_WARN (R46). -/
  sizeWarn : Bool
  /-- STATUS.OVERRUN (R46). -/
  overrun : Bool
  /-- STATUS.ACCESS_ERR (R46). -/
  accessErr : Bool
  /-- STATUS.CONFIGURED (R46). -/
  configured : Bool
  /-- LASTCMD (R48). -/
  lastCmd : Word
  /-- CFG_LEN (R49). -/
  cfgLen : Word
  /-- IN_LEN (R50). -/
  inLen : Word
  /-- N (R51). -/
  n : Nat
  /-- LOG2N (R52). -/
  log2n : Nat
  /-- OUT_LEN (R53). -/
  outLen : Nat
  /-- ERRCODE (R54). -/
  errCode : ErrCode
  /-- The latch (R60). -/
  latch : Latch
  /-- IN (R57). -/
  inMem : Memory
  /-- WORK (R58). -/
  workMem : Memory
  /-- TW (R59). -/
  twMem : Memory
  /-- The steps still to come of the host, the controller and RST, in the order they happen (assumption log 3). -/
  pending : List Event
  /-- The answer to the latest host access (assumption log 4). -/
  resp : BusResp
  deriving DecidableEq, Repr

/-- Why the model stops. -/
inductive Fault where
  /-- Raised by a host read of the IN, WORK or TW window and by every command that consumes entries: the bytes at byte
  offset `offset` of memory `mem` were never all written since reset, so they hold no value (R64, R286).
  Safe: the hardware goes on with some bit pattern, of which nothing can then be proved. -/
  | unwritten (mem : MemName) (offset : Nat)
  deriving DecidableEq, Repr

/-- Why an instruction has no meaning. -/
inductive Refusal where
  /-- Raised by an arm of `exec` whose instruction has no meaning yet; no arm of this model is one. Safe. -/
  | notModelled (mnemonic : String)
  deriving DecidableEq, Repr

/-- The state of an instance right after assertion of `RST`, with the events `evs` still to come (R270, R64).
The latch has no meaningful value after reset: zeros, DESIGN CHOICE (assumption log 2). -/
def State.afterReset (c : Config) (evs : List Event) : State where
  cfg := c
  ieDone := false
  ieErr := false
  oversizeReject := false
  busy := false
  done := false
  err := false
  sizeWarn := false
  overrun := false
  accessErr := false
  configured := false
  lastCmd := 0
  cfgLen := 0
  inLen := 0
  n := 0
  log2n := 0
  outLen := 0
  errCode := .ok
  latch := { word := 0, cfg := 0, inlen := 0, reject := false }
  inMem := []
  workMem := []
  twMem := []
  pending := evs
  resp := .none

/-- The machine right after reset (R270), for the instance `Config.shown` (assumption log 1), with no event to come. -/
def State.reset : State := State.afterReset Config.shown []

end Sys2Proof.Machine
end

