-- ==== Sys2Proof/Machine/Ops.lean ====
section
/-! DEFINITION. The shared operations over the sample memories and the state: bytes, words, components and entries
(20_memory.md R82, R83, R87), the ascending loop (00_scope.md R14), and completing a command with or without an error
(60_exceptions.md R236, R237). -/

namespace Sys2Proof.Machine

/-! ### Bytes of a sample memory -/

/-- The canonical form: offsets strictly rising. Every listed byte differs from an unlisted one, which holds no value. -/
abbrev Memory.wf (m : Memory) : Prop := m.Pairwise (fun x y => x.1 < y.1)

/-- Every listed offset lies below `bound`. -/
abbrev Memory.below (m : Memory) (bound : Nat) : Prop := ∀ c ∈ m, c.1 < bound

/-- The byte at an offset; none where no byte was written since reset (R64). -/
def Memory.readByte : Memory → Nat → Option Byte
  | [], _ => none
  | c :: m, a => if c.1 = a then some c.2 else Memory.readByte m a

/-- Set the byte at an offset, keeping the canonical form. -/
def Memory.writeByte : Memory → Nat → Byte → Memory
  | [], a, b => [(a, b)]
  | c :: m, a, b =>
    if a < c.1 then (a, b) :: c :: m
    else if a = c.1 then (a, b) :: m
    else c :: Memory.writeByte m a b

/-- `k` bytes from offset `a`, least significant at the lowest offset (R83); none if one of them was never written. -/
def Memory.readLE (m : Memory) : Nat → Nat → Option Nat
  | _, 0 => some 0
  | a, k + 1 =>
    match m.readByte a, Memory.readLE m (a + 1) k with
    | some b, some r => some (b.toNat + 256 * r)
    | _, _ => none

/-- Write the low `k` bytes of `v` from offset `a`, least significant first (R83). -/
def Memory.writeLE (m : Memory) : Nat → Nat → Nat → Memory
  | _, 0, _ => m
  | a, k + 1, v => Memory.writeLE (m.writeByte a (BitVec.ofNat 8 v)) (a + 1) k (v / 256)

/-- One 32-bit bus word (R83, R84). -/
def Memory.readWord (m : Memory) (a : Nat) : Option Word := (m.readLE a 4).map (BitVec.ofNat 32)

/-- Write one 32-bit bus word, leaving every other byte (R87). -/
def Memory.writeWord (m : Memory) (a : Nat) (v : Word) : Memory := m.writeLE a 4 v.toNat

/-! ### Components and entries -/

/-- Byte offset of entry `e` (R82). -/
def entryOffset (f : SampleFmt) (e : Nat) : Nat := e * f.entryBytes

/-- Byte offset of the imaginary component of entry `e`: `.re` comes first (R82). -/
def imOffset (f : SampleFmt) (e : Nat) : Nat := entryOffset f e + f.compBytes

/-- The component at a byte offset. -/
def Memory.readComp (f : SampleFmt) (m : Memory) (a : Nat) : Option (Comp f) :=
  (m.readLE a f.compBytes).map (BitVec.ofNat f.width)

/-- Write the component at a byte offset. -/
def Memory.writeComp (f : SampleFmt) (m : Memory) (a : Nat) (x : Comp f) : Memory := m.writeLE a f.compBytes x.toNat

/-- `.re` of entry `e`. -/
def Memory.readRe (f : SampleFmt) (m : Memory) (e : Nat) : Option (Comp f) := m.readComp f (entryOffset f e)

/-- `.im` of entry `e`. -/
def Memory.readIm (f : SampleFmt) (m : Memory) (e : Nat) : Option (Comp f) := m.readComp f (imOffset f e)

/-- Entry `e`, where both components hold a value. -/
def Memory.readEntry (f : SampleFmt) (m : Memory) (e : Nat) : Option (Entry f) :=
  match m.readRe f e, m.readIm f e with
  | some x, some y => some ⟨x, y⟩
  | _, _ => none

/-- Entry `e` is set to `v`, both components. -/
def Memory.writeEntry (f : SampleFmt) (m : Memory) (e : Nat) (v : Entry f) : Memory :=
  (m.writeComp f (entryOffset f e) v.re).writeComp f (imOffset f e) v.im

/-- A command's read of entry `e` of memory `k`: a fault where a component holds no value (R64, R286). -/
def useEntry (f : SampleFmt) (k : MemName) (m : Memory) (e : Nat) : Except Fault (Entry f) :=
  match m.readEntry f e with
  | some v => .ok v
  | none => .error (.unwritten k (entryOffset f e))

/-- A command's read of the real component of entry `e` of memory `k`. -/
def useRe (f : SampleFmt) (k : MemName) (m : Memory) (e : Nat) : Except Fault (Comp f) :=
  match m.readRe f e with
  | some x => .ok x
  | none => .error (.unwritten k (entryOffset f e))

/-! ### The loop -/

/-- `for i in [0, n)`, ascending, each body run starting from what the one before it left (R14). -/
def forUpTo {α : Type} : Nat → (Nat → α → Except Fault α) → α → Except Fault α
  | 0, _, x => .ok x
  | n + 1, body, x => (forUpTo n body x).bind (body n)

/-! ### Named updates of the state -/

/-- The sample memory of a name. -/
def State.memory (s : State) : MemName → Memory
  | .inp => s.inMem
  | .work => s.workMem
  | .tw => s.twMem

/-- Replace the transform buffer. -/
def State.withWork (s : State) (w : Memory) : State := { s with workMem := w }

/-- Set OUT_LEN (R53). -/
def State.withOutLen (s : State) (k : Nat) : State := { s with outLen := k }

/-- The bus answer of a host access. -/
def State.answer (s : State) (r : BusResp) : State := { s with resp := r }

/-- `ERRCODE <- e; STATUS.BUSY <- 0; STATUS.DONE <- 1`, which ends every completion (R236). -/
def State.finish (s : State) (e : ErrCode) : State := { s with errCode := e, busy := false, done := true }

/-- `raise CmdError(e)`: the one way a command fails. ERR, ERRCODE, BUSY and DONE change and nothing else (R12, R236, R237).
There is no trap entry beside it (R241); the host's acknowledgement is `State.w1c` (R242). -/
def State.raiseCmdError (s : State) (e : ErrCode) : State := State.finish { s with err := true } e

/-- The completion step of a command whose validation gave `e` and whose `Execute` is `effect` (R236): a whole effect or
none. A fault of the effect leaves no next state. -/
def complete (e : ErrCode) (effect : State → Except Fault State) (s : State) : Host.Outcome State Fault Refusal :=
  match e with
  | .ok =>
    match effect s with
    | .ok t => .next (t.finish .ok)
    | .error r => .fault r
  | .illegalCommand => .next (s.raiseCmdError .illegalCommand)
  | .invalidLength => .next (s.raiseCmdError .invalidLength)
  | .capacity => .next (s.raiseCmdError .capacity)
  | .notConfigured => .next (s.raiseCmdError .notConfigured)
  | .sizeMismatch => .next (s.raiseCmdError .sizeMismatch)

end Sys2Proof.Machine
end

