-- ==== Sys2Proof/Machine/Operands.lean ====
section
/-! DEFINITION. Every operand a command has (30_encoding.md R112), read from the latch or the configured state, and the
validation made from them (60_exceptions.md R234), with the integer primitives of 00_scope.md R13. -/

namespace Sys2Proof.Machine

/-- `rev_m(i)`: bit `b` of the result is bit `m-1-b` of `i` (R13). -/
def rev : Nat → Nat → Nat
  | 0, _ => 0
  | m + 1, i => 2 ^ m * (i % 2) + rev m (i / 2)

/-- The exponent of `nextpow2(L)`: the least `e` with `2^e ≥ L` (R13). -/
def ceilLog2 (l : Nat) : Nat := if l ≤ 1 then 0 else Nat.log2 (l - 1) + 1

/-- `nextpow2(L)` (R13). -/
def nextPow2 (l : Nat) : Nat := 2 ^ ceilLog2 l

/-- `L = sint32(LATCH.cfg)`, the requested length (R9, R112). -/
def State.reqLen (s : State) : Int := s.latch.cfg.toInt

/-- `Lin = uint32(LATCH.inlen)`, the input count (R9, R112). -/
def State.lin (s : State) : Nat := s.latch.inlen.toNat

/-- The number of entries a loading command reads: `min(Lin, N)` (R160). -/
def State.loadCount (s : State) : Nat := min s.lin s.n

/-- The checks of CONFIGURE: INVALID_LENGTH when `L ≤ 0`, then CAPACITY when `L > NMAX` (R141, R234). -/
def State.checkConfigure (s : State) : ErrCode :=
  if s.reqLen ≤ 0 then .invalidLength
  else if (s.cfg.nmax : Int) < s.reqLen then .capacity
  else .ok

/-- The check of the commands that load nothing: NOT_CONFIGURED before the first successful CONFIGURE (R234, R275). -/
def State.checkConfigured (s : State) : ErrCode := if s.configured then .ok else .notConfigured

/-- The checks of the seven loading commands: NOT_CONFIGURED, then SIZE_MISMATCH when `Lin > N` under policy 1 (R161, R234). -/
def State.checkLoading (s : State) : ErrCode :=
  if s.configured then (if decide (s.n < s.lin) && s.latch.reject then .sizeMismatch else .ok)
  else .notConfigured

/-- `Validate()` of R234 after the word check, for the command in flight. -/
def State.validate (s : State) : Instr → ErrCode
  | .configure => s.checkConfigure
  | .forward => s.checkLoading
  | .inverse => s.checkLoading
  | .realForward => s.checkLoading
  | .realSpectrum => s.checkLoading
  | .inverseReal => s.checkLoading
  | .loadComplex => s.checkLoading
  | .loadReal => s.checkLoading
  | .bitrev => s.checkConfigured
  | .butterflyFwd => s.checkConfigured
  | .butterflyInv => s.checkConfigured
  | .scaleInv => s.checkConfigured

end Sys2Proof.Machine
end

