-- ==== Sys2Proof/Machine/Butterfly.lean ====
section
/-! DEFINITION. The butterfly engine, the pass loop and the scaling (42_butterfly.md R180 to R187), with the loop exponent
as 90_conflicts.md C2 settles it. -/

namespace Sys2Proof.Machine

/-- One butterfly on entries `p` and `q` with twiddle entry `t`, both results from the values before the update (R180). -/
def butterfly (f : SampleFmt) (tw w : Memory) (p q t : Nat) : Except Fault Memory :=
  (useEntry f .work w p).bind (fun a =>
    (useEntry f .work w q).bind (fun b =>
      (useEntry f .tw tw t).map (fun c =>
        (w.writeEntry f p (cadd a (cmul b c))).writeEntry f q (csub a (cmul b c)))))

/-- Pass `s + 1` of R181 over `n` entries: partners `h = 2^s` apart, blocks of `2·h`, twiddle stride `n / (2·h)`. -/
def passLoop (f : SampleFmt) (tw : Memory) (n off s : Nat) (work : Memory) : Except Fault Memory :=
  let h := 2 ^ s
  let t := n / (2 * h)
  forUpTo (n / (2 * h)) (fun blk w =>
    forUpTo h (fun j w' => butterfly f tw w' (blk * (2 * h) + j) (blk * (2 * h) + j + h) (off + j * t)) w) work

/-- `ButterflyPasses(off)` of R181: passes 1 to `m` in order. -/
def passesLoop (f : SampleFmt) (tw : Memory) (n m off : Nat) (work : Memory) : Except Fault Memory :=
  forUpTo m (fun s w => passLoop f tw n off s w) work

/-- The loop of R186: every component divided by N, whose pattern is exact (R28). -/
def scaleLoop (f : SampleFmt) (n : Nat) (work : Memory) : Except Fault Memory :=
  forUpTo n (fun i w =>
    (useEntry f .work w i).map (fun v => w.writeEntry f i ⟨fdiv v.re (ofRatio f n 1), fdiv v.im (ofRatio f n 1)⟩)) work

/-- `Passes(off)` and `OUT_LEN <- N` (R184, R185, R200). -/
def passes (off : Nat) (s : State) : Except Fault State :=
  (passesLoop s.cfg.fmt s.twMem s.n s.log2n off s.workMem).map (fun w => (s.withWork w).withOutLen s.n)

/-- `Passes(0)`: the canonical twiddles (R184, R210). -/
def passesFwd (s : State) : Except Fault State := passes 0 s

/-- `Passes(N/2)`: the anti-canonical twiddles (R185, R210). -/
def passesInv (s : State) : Except Fault State := passes (s.n / 2) s

/-- `Scale` and `OUT_LEN <- N` (R186, R200). -/
def scale (s : State) : Except Fault State :=
  (scaleLoop s.cfg.fmt s.n s.workMem).map (fun w => (s.withWork w).withOutLen s.n)

/-- BUTTERFLY_FWD (R184). -/
def execButterflyFwd (s : State) : Host.Outcome State Fault Refusal := complete s.checkConfigured passesFwd s

/-- BUTTERFLY_INV (R185). -/
def execButterflyInv (s : State) : Host.Outcome State Fault Refusal := complete s.checkConfigured passesInv s

/-- SCALE_INV (R186). -/
def execScaleInv (s : State) : Host.Outcome State Fault Refusal := complete s.checkConfigured scale s

end Sys2Proof.Machine
end

