-- ==== Sys2Proof/Machine/Flags.lean ====
section
/-! DEFINITION. The STATUS and CTRL words, the write-one-to-clear of STATUS, and IRQ (10_state.md R45 to R47,
60_exceptions.md R245). No arithmetic condition sets a flag (00_scope.md R25). -/

namespace Sys2Proof.Machine

/-- The value of bit `i` when `b` holds. -/
def bitAt (b : Bool) (i : Nat) : Word := if b then BitVec.ofNat 32 (2 ^ i) else 0

/-- The STATUS word: BUSY, DONE, ERR, SIZE_WARN, OVERRUN, ACCESS_ERR, CONFIGURED in bits 0 to 6, the rest 0 (R46). -/
def State.statusWord (s : State) : Word :=
  bitAt s.busy 0 ||| bitAt s.done 1 ||| bitAt s.err 2 ||| bitAt s.sizeWarn 3
    ||| bitAt s.overrun 4 ||| bitAt s.accessErr 5 ||| bitAt s.configured 6

/-- The CTRL word: IE_DONE, IE_ERR, OVERSIZE_REJECT in bits 0 to 2, the rest 0 (R45). -/
def State.ctrlWord (s : State) : Word := bitAt s.ieDone 0 ||| bitAt s.ieErr 1 ||| bitAt s.oversizeReject 2

/-- A host write of `v` to CTRL: bits [2:0] are set, the rest ignored (R45). -/
def State.setCtrl (s : State) (v : Word) : State :=
  { s with ieDone := v.getLsbD 0, ieErr := v.getLsbD 1, oversizeReject := v.getLsbD 2 }

/-- A host write of `v` to STATUS clears the W1C bits written as 1 and ignores `v[0]`, `v[6]` and `v[31:7]` (R47).
It is the host's acknowledgement of an event (R242). -/
def State.w1c (s : State) (v : Word) : State :=
  { s with
    done := s.done && !v.getLsbD 1
    err := s.err && !v.getLsbD 2
    sizeWarn := s.sizeWarn && !v.getLsbD 3
    overrun := s.overrun && !v.getLsbD 4
    accessErr := s.accessErr && !v.getLsbD 5 }

/-- `STATUS.ACCESS_ERR <- 1` (R90). -/
def State.flagAccessErr (s : State) : State := { s with accessErr := true }

/-- A loading command that truncates sets SIZE_WARN; one that does not leaves it (R46, R160). -/
def State.warnIf (s : State) (b : Bool) : State := { s with sizeWarn := s.sizeWarn || b }

/-- The interrupt output, a function of the current state (R245). -/
def State.irq (s : State) : Bool :=
  (s.done && s.ieDone) || ((s.err || s.overrun || s.accessErr) && s.ieErr)

end Sys2Proof.Machine
end

