-- ==== Sys2Proof/Machine/Permute.lean ====
section
/-! DEFINITION. The load stage and the bit-reversal permutation unit (41_permute.md R160 to R166). -/

namespace Sys2Proof.Machine

/-- The loop of R160: entry `i` of the buffer becomes the input's, or `(+0, +0)` from the input's end on. -/
def loadComplexLoop (f : SampleFmt) (n count : Nat) (inp work : Memory) : Except Fault Memory :=
  forUpTo n (fun i w =>
    if i < count then (useEntry f .inp inp i).map (fun v => w.writeEntry f i v)
    else .ok (w.writeEntry f i (zeroEntry f))) work

/-- The loop of R162: the input's real component with imaginary `+0`; its imaginary component is not read. -/
def loadRealLoop (f : SampleFmt) (n count : Nat) (inp work : Memory) : Except Fault Memory :=
  forUpTo n (fun i w =>
    if i < count then (useRe f .inp inp i).map (fun x => w.writeEntry f i ⟨x, posZero f⟩)
    else .ok (w.writeEntry f i (zeroEntry f))) work

/-- Swap entries `i` and `r`, bit-exact (R163). -/
def swapEntries (f : SampleFmt) (w : Memory) (i r : Nat) : Except Fault Memory :=
  (useEntry f .work w i).bind (fun a =>
    (useEntry f .work w r).map (fun b => (w.writeEntry f i b).writeEntry f r a))

/-- The loop of R163: each pair `i < rev_m(i)` is swapped once. -/
def bitRevLoop (f : SampleFmt) (n m : Nat) (work : Memory) : Except Fault Memory :=
  forUpTo n (fun i w => if i < rev m i then swapEntries f w i (rev m i) else .ok w) work

/-- `LoadC`: the effect part of R160. -/
def loadC (s : State) : Except Fault State :=
  (loadComplexLoop s.cfg.fmt s.n s.loadCount s.inMem s.workMem).map
    (fun w => ((s.withWork w).warnIf (decide (s.n < s.lin))).withOutLen s.n)

/-- `LoadR`: the effect part of R162. -/
def loadR (s : State) : Except Fault State :=
  (loadRealLoop s.cfg.fmt s.n s.loadCount s.inMem s.workMem).map
    (fun w => ((s.withWork w).warnIf (decide (s.n < s.lin))).withOutLen s.n)

/-- `BitRev`: the loop of R163 and `OUT_LEN <- N` (R164, R200). -/
def bitRev (s : State) : Except Fault State :=
  (bitRevLoop s.cfg.fmt s.n s.log2n s.workMem).map (fun w => (s.withWork w).withOutLen s.n)

/-- LOAD_COMPLEX (R160). -/
def execLoadComplex (s : State) : Host.Outcome State Fault Refusal := complete s.checkLoading loadC s

/-- LOAD_REAL (R162). -/
def execLoadReal (s : State) : Host.Outcome State Fault Refusal := complete s.checkLoading loadR s

/-- BITREV (R164). -/
def execBitrev (s : State) : Host.Outcome State Fault Refusal := complete s.checkConfigured bitRev s

end Sys2Proof.Machine
end

