-- ==== Sys2Proof/Machine/Transforms.lean ====
section
/-! DEFINITION. The facade transform commands: the stages of R200 in the order each rule gives, each from the state the one
before it left (43_transforms.md R200 to R211). -/

namespace Sys2Proof.Machine

/-- `fsqrt(re·re + im·im)`, the magnitude of R207. -/
def magnitude {f : SampleFmt} (z : Entry f) : Comp f := fsqrt (fadd (fmul z.re z.re) (fmul z.im z.im))

/-- The two loops of R207: magnitudes times `sc = 2^(1-m)` in entries `[0, N/2]`, `(+0, +0)` in the entries above. -/
def spectrumLoop (f : SampleFmt) (n m : Nat) (work : Memory) : Except Fault Memory :=
  let h := n / 2
  (forUpTo (h + 1) (fun k w =>
    (useEntry f .work w k).map (fun z => w.writeEntry f k ⟨fmul (magnitude z) (ofRatio f 2 (2 ^ m)), posZero f⟩)) work).bind
    (forUpTo (n - (h + 1)) (fun k w => .ok (w.writeEntry f (h + 1 + k) (zeroEntry f))))

/-- The loop of R209: the imaginary component of every entry becomes `+0`. -/
def dropImagLoop (f : SampleFmt) (n : Nat) (work : Memory) : Except Fault Memory :=
  forUpTo n (fun i w => (useEntry f .work w i).map (fun v => w.writeEntry f i ⟨v.re, posZero f⟩)) work

/-- The magnitude stage of REAL_SPECTRUM and `OUT_LEN <- N/2 + 1` (R207, R208). -/
def spectrum (s : State) : Except Fault State :=
  (spectrumLoop s.cfg.fmt s.n s.log2n s.workMem).map (fun w => (s.withWork w).withOutLen (s.n / 2 + 1))

/-- The last stage of INVERSE_REAL and `OUT_LEN <- N` (R209). -/
def dropImag (s : State) : Except Fault State :=
  (dropImagLoop s.cfg.fmt s.n s.workMem).map (fun w => (s.withWork w).withOutLen s.n)

/-- `LoadC; BitRev; Passes(0)` (R201). -/
def forwardEffect (s : State) : Except Fault State := ((loadC s).bind bitRev).bind passesFwd

/-- `LoadC; BitRev; Passes(N/2); Scale` (R203). -/
def inverseEffect (s : State) : Except Fault State := (((loadC s).bind bitRev).bind passesInv).bind scale

/-- `LoadR; BitRev; Passes(0)` (R205). -/
def realForwardEffect (s : State) : Except Fault State := ((loadR s).bind bitRev).bind passesFwd

/-- The stages of REAL_FORWARD, then the magnitudes (R207). -/
def realSpectrumEffect (s : State) : Except Fault State := (realForwardEffect s).bind spectrum

/-- The stages of INVERSE, then the imaginary parts dropped (R209). -/
def inverseRealEffect (s : State) : Except Fault State := (inverseEffect s).bind dropImag

/-- FORWARD (R201). -/
def execForward (s : State) : Host.Outcome State Fault Refusal := complete s.checkLoading forwardEffect s

/-- INVERSE (R203). -/
def execInverse (s : State) : Host.Outcome State Fault Refusal := complete s.checkLoading inverseEffect s

/-- REAL_FORWARD (R205). -/
def execRealForward (s : State) : Host.Outcome State Fault Refusal := complete s.checkLoading realForwardEffect s

/-- REAL_SPECTRUM (R207). -/
def execRealSpectrum (s : State) : Host.Outcome State Fault Refusal := complete s.checkLoading realSpectrumEffect s

/-- INVERSE_REAL (R209). -/
def execInverseReal (s : State) : Host.Outcome State Fault Refusal := complete s.checkLoading inverseRealEffect s

end Sys2Proof.Machine
end

