-- ==== Sys2Proof/Machine/Twiddle.lean ====
section
/-! DEFINITION. The twiddle-factor generator and CONFIGURE (40_twiddle.md R140 to R149).

The values of R143 are the correctly rounded cosines and sines. The model computes `2^256 * cos(2πk/2^m)` from the
half-angle formula `cos(φ/2) = ±sqrt((1 + cos φ)/2)`, starting from `cos 0 = 1`, and rounds once. Over every `k/2^16` the
computed number is within `2^12` of the exact one, and no exact value lies within `2^-18` of a granule of a rounding tie, so
the rounding is that of the exact value for every legal N (DEDUCED, assumption log 9). -/

namespace Sys2Proof.Machine

/-- Fraction bits of the fixed-point cosines. -/
def cosBits : Nat := 256

/-- `2^256 * cos(2π·k/2^m)` by `m` half-angle steps: the angle `k/2^(m+1)` of a turn is half of `k/2^m`, and its cosine is
not negative in the first and the last quarter of the turn. -/
def cosFix : Nat → Nat → Int
  | 0, _ => 2 ^ cosBits
  | m + 1, k =>
    let r := isqrt ((2 ^ cosBits + cosFix m k).toNat * 2 ^ (cosBits - 1))
    let a := k % 2 ^ (m + 1)
    if 4 * a ≤ 2 ^ (m + 1) ∨ 3 * 2 ^ (m + 1) ≤ 4 * a then (r : Int) else -(r : Int)

/-- `2^256 * sin(2π·k/2^m)`: the cosine of three quarters of a turn more. -/
def sinFix (m k : Nat) : Int := cosFix (m + 2) (4 * k + 3 * 2 ^ m)

/-- `RN_F` of the real number `c / 2^256`, an exact 0 giving `+0` (00_scope.md R27). -/
def rnFix (f : SampleFmt) (c : Int) : Comp f :=
  if c = 0 then posZero f else roundComp f (decide (c < 0)) (c.natAbs * 2 ^ unitExp f) (2 ^ cosBits)

/-- `Canon(2^m, k) = (RN(cos θ), RN(-sin θ))`, the forward direction (R143). -/
def canon (f : SampleFmt) (m k : Nat) : Entry f := ⟨rnFix f (cosFix m k), rnFix f (-sinFix m k)⟩

/-- `Anti(2^m, k) = (RN(cos θ), RN(+sin θ))`, the inverse direction (R143). -/
def anti (f : SampleFmt) (m k : Nat) : Entry f := ⟨rnFix f (cosFix m k), rnFix f (sinFix m k)⟩

/-- `GenerateTwiddles(2^m)` on a memory of `nmax` entries: the canonical half, the anti-canonical half, then zeros (R142). -/
def generateTwiddles (f : SampleFmt) (nmax m : Nat) (tw : Memory) : Except Fault Memory :=
  let h := 2 ^ m / 2
  (forUpTo h (fun k t => .ok ((t.writeEntry f k (canon f m k)).writeEntry f (h + k) (anti f m k))) tw).bind
    (forUpTo (nmax - 2 * h) (fun k t => .ok (t.writeEntry f (2 * h + k) (zeroEntry f))))

/-- The effect of a CONFIGURE that passed its checks (R141, R147). -/
def configureEffect (s : State) : Except Fault State :=
  let m := ceilLog2 s.reqLen.toNat
  (generateTwiddles s.cfg.fmt s.cfg.nmax m s.twMem).map
    (fun tw => { s with twMem := tw, n := 2 ^ m, log2n := m, configured := true, outLen := 0 })

/-- CONFIGURE (R141). -/
def execConfigure (s : State) : Host.Outcome State Fault Refusal := complete s.checkConfigure configureEffect s

end Sys2Proof.Machine
end

