-- ==== Sys2Proof/Machine/Dispatch.lean ====
section
/-! DEFINITION. The meaning of each command: one completion step of the controller with that command in the latch
(60_exceptions.md R236). -/

namespace Sys2Proof.Machine

def exec (i : Instr) (s : State) : Host.Outcome State Fault Refusal :=
  match i with
  | .configure => Sys2Proof.Machine.execConfigure s
  | .forward => Sys2Proof.Machine.execForward s
  | .inverse => Sys2Proof.Machine.execInverse s
  | .realForward => Sys2Proof.Machine.execRealForward s
  | .realSpectrum => Sys2Proof.Machine.execRealSpectrum s
  | .inverseReal => Sys2Proof.Machine.execInverseReal s
  | .loadComplex => Sys2Proof.Machine.execLoadComplex s
  | .loadReal => Sys2Proof.Machine.execLoadReal s
  | .bitrev => Sys2Proof.Machine.execBitrev s
  | .butterflyFwd => Sys2Proof.Machine.execButterflyFwd s
  | .butterflyInv => Sys2Proof.Machine.execButterflyInv s
  | .scaleInv => Sys2Proof.Machine.execScaleInv s

end Sys2Proof.Machine
end

