-- ==== Sys2Proof/Machine/HostBus.lean ====
section
/-! DEFINITION. The host's steps: accesses to the register page and to the IN, WORK and TW windows, and the reset input
(10_state.md R42 to R55, 20_memory.md R80 to R91, 60_exceptions.md R231, R232, 70_reset_and_hazards.md R270). -/

namespace Sys2Proof.Machine

/-- ID (R43). -/
def idWord : Word := 0x46465432

/-- VERSION (R43). -/
def versionWord : Word := 0x00010000

/-- CAPS: LOG2_NMAX in bits [4:0], FMT in bit [8], the rest 0 (R44). -/
def capsWord (c : Config) : Word :=
  (0 : BitVec 23) ++ (c.fmt.bit ++ ((0 : BitVec 3) ++ BitVec.ofNat 5 c.log2Nmax))

/-- The code in ERRCODE bits [3:0] (R54, R235). -/
def ErrCode.code : ErrCode → BitVec 4
  | .ok => 0
  | .illegalCommand => 1
  | .invalidLength => 2
  | .capacity => 3
  | .notConfigured => 4
  | .sizeMismatch => 5

/-- A read of a register; it has no side effect (R43 to R54, R86). -/
def State.readReg (s : State) : Reg → Word
  | .id => idWord
  | .version => versionWord
  | .caps => capsWord s.cfg
  | .ctrl => s.ctrlWord
  | .status => s.statusWord
  | .cmd => s.lastCmd
  | .cfgLen => s.cfgLen
  | .inLen => s.inLen
  | .n => (BitVec.ofNat 17 s.n).zeroExtend 32
  | .log2n => (BitVec.ofNat 5 s.log2n).zeroExtend 32
  | .outLen => (BitVec.ofNat 17 s.outLen).zeroExtend 32
  | .errCode => s.errCode.code.zeroExtend 32

/-- Acceptance of a command word while idle: LASTCMD, the latch, DONE and BUSY, whatever the word (R60, R232). -/
def State.acceptCmd (s : State) (v : Word) : State :=
  { s with
    lastCmd := v
    latch := { word := v, cfg := s.cfgLen, inlen := s.inLen, reject := s.oversizeReject }
    done := false
    busy := true }

/-- A CMD write while busy is lost and sets OVERRUN, nothing else (R231). -/
def State.overrunCmd (s : State) : State := { s with overrun := true }

/-- Offering a command word: accepted while idle, lost while busy (R231, R232). -/
def State.offerCmd (s : State) (v : Word) : State := if s.busy then s.overrunCmd else s.acceptCmd v

/-- Set CFG_LEN, all 32 bits (R49). -/
def State.setCfgLen (s : State) (v : Word) : State := { s with cfgLen := v }

/-- Set IN_LEN, all 32 bits (R50). -/
def State.setInLen (s : State) (v : Word) : State := { s with inLen := v }

/-- A write to a register; writes to read-only registers are ignored without error (R45 to R55). -/
def State.writeReg (s : State) (r : Reg) (v : Word) : State :=
  match r with
  | .id => s
  | .version => s
  | .caps => s
  | .ctrl => s.setCtrl v
  | .status => s.w1c v
  | .cmd => s.offerCmd v
  | .cfgLen => s.setCfgLen v
  | .inLen => s.setInLen v
  | .n => s
  | .log2n => s
  | .outLen => s
  | .errCode => s

/-- A host write of word `v` at offset `o` of a sample memory that has an entry there: IN and WORK take it, TW ignores it (R87 to R89). -/
def State.writeMemWord (s : State) (k : MemName) (o : Nat) (v : Word) : State :=
  match k with
  | .inp => { s with inMem := s.inMem.writeWord o v }
  | .work => { s with workMem := s.workMem.writeWord o v }
  | .tw => s

/-- A performed 32-bit read at an aligned window offset: registers (R42, R55), then for the sample memories the busy rule
(R90), entries at NMAX and above (R91), and the addressed word (R87 to R89), a fault where it was never written (R64). -/
def hostRead (s : State) (a : Nat) : Host.Outcome State Fault Refusal :=
  match regionOf a with
  | .regs o =>
    match regAt o with
    | some r => .next (s.answer (.data (s.readReg r)))
    | none => .next (s.answer (.data 0))
  | .mem k o =>
    if s.busy then .next (s.flagAccessErr.answer (.data 0))
    else if s.cfg.nmax ≤ o / s.cfg.fmt.entryBytes then .next (s.answer (.data 0))
    else
      match (s.memory k).readWord o with
      | some v => .next (s.answer (.data v))
      | none => .fault (.unwritten k o)

/-- A performed 32-bit write at an aligned window offset (R42, R55, R87 to R91). -/
def hostWrite (s : State) (a : Nat) (v : Word) : State :=
  match regionOf a with
  | .regs o =>
    match regAt o with
    | some r => (s.writeReg r v).answer .ack
    | none => s.answer .ack
  | .mem k o =>
    if s.busy then s.flagAccessErr.answer .ack
    else if s.cfg.nmax ≤ o / s.cfg.fmt.entryBytes then s.answer .ack
    else (s.writeMemWord k o v).answer .ack

/-- One host access: not this block's outside its window (R80); a bus error and no state change for another size than 32
bits or an offset that is not a multiple of 4 (R84), before anything else (R90). -/
def hostAccess (s : State) (x : Access) : Host.Outcome State Fault Refusal :=
  if x.addr < s.cfg.base ∨ s.cfg.base + windowBytes ≤ x.addr then .next (s.answer .notSelected)
  else if x.width ≠ .w32 ∨ (x.addr - s.cfg.base) % 4 ≠ 0 then .next (s.answer .busError)
  else
    match x with
    | .read addr _ => hostRead s (addr - s.cfg.base)
    | .write addr _ v => .next (hostWrite s (addr - s.cfg.base) v)

/-- Assertion of `RST`: the state of R270, the parameters and the events to come kept; a busy command is abandoned (R271). -/
def State.assertReset (s : State) : State := State.afterReset s.cfg s.pending

end Sys2Proof.Machine
end

