-- ==== Sys2Proof/Machine/Control.lean ====
section
/-! DEFINITION. The controller's completion step (60_exceptions.md R233, R234, R236) and the choice of the next agent's step. -/

namespace Sys2Proof.Machine

/-- The completion step of the command in the latch, taken while BUSY = 1: an illegal word completes with ILLEGAL_COMMAND
(R115, R234), a legal one by its meaning (R236). -/
def completionStep (s : State) : Host.Outcome State Fault Refusal :=
  match decodeWord s.latch.word with
  | .ok i => exec i s
  | .error _ => .next (s.raiseCmdError .illegalCommand)

/-- The controller's turn: completion exactly while BUSY = 1; while idle it has no step (R230, R233, R256). -/
def controllerTurn (s : State) : Host.Outcome State Fault Refusal :=
  if s.busy then completionStep s else .next s

/-- One event on the state that no longer holds it. -/
def takeEvent (s : State) : Event → Host.Outcome State Fault Refusal
  | .host x => hostAccess s x
  | .controller => controllerTurn s
  | .rst => .next s.assertReset

/-- The next step of the machine: the first event to come; with none to come, a busy command completes (the weak fairness
of R233) and an idle block keeps all its state (R256). -/
def nextStep (s : State) : Host.Outcome State Fault Refusal :=
  match s.pending with
  | [] => controllerTurn s
  | e :: rest => takeEvent { s with pending := rest } e

/-- The command word `w` put in flight, as an accepted CMD write does (R232), with the controller's turn next. -/
def State.putInFlight (s : State) (w : Word) : State :=
  { s.acceptCmd w with pending := .controller :: s.pending }

end Sys2Proof.Machine
end

