-- ==== Sys2Proof/Machine/Step.lean ====
section
/-! DEFINITION. One step of the machine, and a command word placed where the next step takes its command from. -/

namespace Sys2Proof.Machine

/-- One step: the next agent's step (00_scope.md R4). -/
def step (s : State) : Host.Outcome State Fault Refusal := nextStep s

/-- `s` with the instruction whose table bits are `w` put in flight, so that the very next step runs it (60_exceptions.md
R232, R233; assumption log 15). -/
def State.withFetchWord (s : State) (nbits w : Nat) : State := s.putInFlight (tableWord nbits w)

end Sys2Proof.Machine
end

