-- ==== Sys2Proof/Machine/Script.lean ====
section
/-! DEFINITION. Host scripts: the script operations of 30_encoding.md R117 and R118 as the events they stand for. -/

namespace Sys2Proof.Machine

/-- `wr OFF, V`: one 32-bit write at a window offset (R117). -/
def wrAt (c : Config) (off : Nat) (v : Word) : Event := .host (.write (c.base + off) .w32 v)

/-- `rd OFF`: one 32-bit read at a window offset (R117). -/
def rdAt (c : Config) (off : Nat) : Event := .host (.read (c.base + off) .w32)

/-- `wr REG, V`. -/
def wrReg (c : Config) (r : Reg) (v : Word) : Event := wrAt c (regOffset r) v

/-- `rd REG`. -/
def rdReg (c : Config) (r : Reg) : Event := rdAt c (regOffset r)

/-- The words of one component from an offset: one for F32, low then high for F64 (R82, R118). -/
def wrComp (c : Config) (off x : Nat) : List Event :=
  match c.fmt with
  | .f32 => [wrAt c off (BitVec.ofNat 32 x)]
  | .f64 => [wrAt c off (BitVec.ofNat 32 x), wrAt c (off + 4) (BitVec.ofNat 32 (x / 2 ^ 32))]

/-- The reads of one component in the same order. -/
def rdComp (c : Config) (off : Nat) : List Event :=
  match c.fmt with
  | .f32 => [rdAt c off]
  | .f64 => [rdAt c off, rdAt c (off + 4)]

/-- `ldin` and `ldwork`: the writes of entry `i` of a window, real component first (R118). -/
def wrEntry (c : Config) (k : MemName) (i re im : Nat) : List Event :=
  wrComp c (memBase k + i * c.fmt.entryBytes) re ++ wrComp c (memBase k + i * c.fmt.entryBytes + c.fmt.compBytes) im

/-- `rdwork` and `rdtw`: the reads of entry `i` of a window (R118). -/
def rdEntry (c : Config) (k : MemName) (i : Nat) : List Event :=
  rdComp c (memBase k + i * c.fmt.entryBytes) ++ rdComp c (memBase k + i * c.fmt.entryBytes + c.fmt.compBytes)

/-- `wait`: reads of STATUS until one shows BUSY = 0. `polls` is how many of them come before the completion (R118, R233). -/
def waitEvents (c : Config) (polls : Nat) : List Event :=
  List.replicate polls (rdReg c .status) ++ [.controller, rdReg c .status]

/-- The events a script operation stands for (R117, R118); `polls` as in `waitEvents`. -/
def expand (c : Config) (polls : Nat) : ScriptOp → List Event
  | .wr off v => [wrAt c off v]
  | .rd off => [rdAt c off]
  | .cmd i => [wrReg c .cmd (encode i)]
  | .wait => waitEvents c polls
  | .run i => wrReg c .cmd (encode i) :: waitEvents c polls
  | .cfg l => wrReg c .cfgLen l :: wrReg c .cmd (encode .configure) :: waitEvents c polls
  | .ldin i re im => wrEntry c .inp i re im
  | .ldwork i re im => wrEntry c .work i re im
  | .rdwork i => rdEntry c .work i
  | .rdtw i => rdEntry c .tw i
  | .clr => [wrReg c .status 0x3E]

end Sys2Proof.Machine
end

