-- ==== Sys2Proof/Safety.lean ====
section
/-! DEFINITION. What claims about the block are stated in: the invariant its steps keep, what a command leaves unchanged,
what a rounded result is, and the transforms as functions of arrays, with no memory and no loop order. -/

namespace Sys2Proof.Machine

/-! ### The invariant -/

/-- What every reachable state satisfies: legal parameters (R7), canonical memories inside their windows (R57 to R59), a
configured length that is a power of two of at most NMAX entries and zero exactly while not configured (R8, R46, R62), a
twiddle memory that holds the generated table while configured and nothing before (R59, R142, R275), OUT_LEN within the
transform length (R53), and while busy DONE = 0 and the latched word in LASTCMD (R60, R287). -/
structure State.Inv (s : State) : Prop where
  cfg_legal : s.cfg.wf = true
  in_wf : s.inMem.wf
  work_wf : s.workMem.wf
  tw_wf : s.twMem.wf
  in_below : s.inMem.below s.cfg.memBytes
  work_below : s.workMem.below s.cfg.memBytes
  tw_below : s.twMem.below s.cfg.memBytes
  configured_iff : s.configured = true ↔ s.n ≠ 0
  length_power : s.configured = true → s.n = 2 ^ s.log2n ∧ s.log2n ≤ s.cfg.log2Nmax
  unconfigured : s.configured = false → s.log2n = 0 ∧ s.twMem = []
  table : s.configured = true → generateTwiddles s.cfg.fmt s.cfg.nmax s.log2n [] = .ok s.twMem
  outLen_le : s.outLen ≤ s.n
  busy_done : s.busy = true → s.done = false
  busy_word : s.busy = true → s.latch.word = s.lastCmd

/-! ### Frames -/

/-- What no command changes: the parameters, CTRL, OVERRUN, ACCESS_ERR, LASTCMD, CFG_LEN, IN_LEN, the latch, IN, and the
model's own fields (R57, R60, R236). -/
structure KeepsHostSide (s t : State) : Prop where
  cfg : t.cfg = s.cfg
  ieDone : t.ieDone = s.ieDone
  ieErr : t.ieErr = s.ieErr
  oversizeReject : t.oversizeReject = s.oversizeReject
  overrun : t.overrun = s.overrun
  accessErr : t.accessErr = s.accessErr
  lastCmd : t.lastCmd = s.lastCmd
  cfgLen : t.cfgLen = s.cfgLen
  inLen : t.inLen = s.inLen
  latch : t.latch = s.latch
  inMem : t.inMem = s.inMem
  pending : t.pending = s.pending
  resp : t.resp = s.resp

/-- What no command but a successful CONFIGURE changes: N, LOG2N, CONFIGURED and TW (R51, R52, R59). -/
structure KeepsConfiguration (s t : State) : Prop where
  n : t.n = s.n
  log2n : t.log2n = s.log2n
  configured : t.configured = s.configured
  twMem : t.twMem = s.twMem

/-- The completion bookkeeping of a successful command: ERRCODE 0, BUSY 0, DONE 1, ERR as it was (R236). -/
structure CompletedOk (s t : State) : Prop where
  errCode : t.errCode = .ok
  busy : t.busy = false
  done : t.done = true
  err : t.err = s.err

/-- Every byte of WORK from entry `k` on reads as before (R58). -/
def KeepsWorkFrom (s t : State) (k : Nat) : Prop :=
  ∀ a, entryOffset s.cfg.fmt k ≤ a → t.workMem.readByte a = s.workMem.readByte a

/-- The rest of a transform or primitive command's next state: everything but `[0, N)` of WORK, SIZE_WARN and OUT_LEN. -/
structure TransformFrame (s t : State) : Prop where
  host : KeepsHostSide s t
  config : KeepsConfiguration s t
  done : CompletedOk s t
  work : KeepsWorkFrom s t s.n

/-- The next step is the controller's turn: it heads the events to come, or none are left (R233, assumption log 3). -/
def ControllerNext (s : State) : Prop := s.pending = [] ∨ ∃ rest, s.pending = .controller :: rest

/-- The next step is a 32-bit host write at a multiple of 4 inside the window of memory `k`, at an entry it has (R80, R84, R91). -/
def HostWriteNext (s : State) (k : MemName) : Prop :=
  ∃ (o : Nat) (v : Word) (rest : List Event),
    s.pending = .host (.write (s.cfg.base + memBase k + o) .w32 v) :: rest ∧ o % 4 = 0 ∧ o < 0x100000 ∧
      o / s.cfg.fmt.entryBytes < s.cfg.nmax

/-- A command fails with code `e`: ERR, ERRCODE, BUSY and DONE change and nothing else (R237). -/
def FailsWith (i : Instr) (s : State) (e : ErrCode) : Prop :=
  exec i s = .next { s with err := true, errCode := e, busy := false, done := true }

/-- The seven loading commands (R161). -/
def isLoading : Instr → Bool
  | .configure => false
  | .forward => true
  | .inverse => true
  | .realForward => true
  | .realSpectrum => true
  | .inverseReal => true
  | .loadComplex => true
  | .loadReal => true
  | .bitrev => false
  | .butterflyFwd => false
  | .butterflyInv => false
  | .scaleInv => false

/-- A loading command is not turned away: configured, and its input fits or is truncated (R161, R234). -/
def MayLoad (s : State) : Prop := s.configured = true ∧ (s.lin ≤ s.n ∨ s.latch.reject = false)

/-- The configured length is the power of two LOG2N names (R8, R51, R52). -/
def PowerLength (s : State) : Prop := s.n = 2 ^ s.log2n

/-- Where a loading command is turned away, and with which code (R161, R234). -/
def LoadErrors (i : Instr) (s : State) : Prop :=
  (s.configured = false → FailsWith i s .notConfigured) ∧
    (s.configured = true → s.n < s.lin → s.latch.reject = true → FailsWith i s .sizeMismatch)

/-- `Validate()` of R234 written on the words of R113. -/
def priorityCode (s : State) : ErrCode :=
  let w := s.latch.word
  if w ∉ [(0x01 : Word), 0x02, 0x03, 0x04, 0x05, 0x06, 0x10, 0x11, 0x12, 0x13, 0x14, 0x15] then .illegalCommand
  else if w = 0x01 then
    (if s.latch.cfg.toInt ≤ 0 then .invalidLength
    else if (2 ^ s.cfg.log2Nmax : Int) < s.latch.cfg.toInt then .capacity
    else .ok)
  else if s.configured = false then .notConfigured
  else if w ∈ [(0x10 : Word), 0x11, 0x02, 0x03, 0x04, 0x05, 0x06] ∧ s.n < s.latch.inlen.toNat ∧ s.latch.reject = true then
    .sizeMismatch
  else .ok

/-! ### Arrays of entries -/

/-- Entries `[0, n)` of a memory hold the values `x`. -/
def Memory.IsArray (f : SampleFmt) (m : Memory) (n : Nat) (x : Nat → Entry f) : Prop :=
  ∀ i, i < n → m.readEntry f i = some (x i)

/-- The real components of entries `[0, n)` hold the values `x`. -/
def Memory.IsRealArray (f : SampleFmt) (m : Memory) (n : Nat) (x : Nat → Comp f) : Prop :=
  ∀ i, i < n → m.readRe f i = some (x i)

/-- The input zero-padded from entry `count` on (R160). -/
def padded {f : SampleFmt} (count : Nat) (x : Nat → Entry f) (i : Nat) : Entry f :=
  if i < count then x i else zeroEntry f

/-- Real values promoted to entries with imaginary `+0` (R162). -/
def promoted {f : SampleFmt} (x : Nat → Comp f) (i : Nat) : Entry f := ⟨x i, posZero f⟩

/-- One pass of R181 as a function of the whole array: position `p` lies in a block of `2^(s+1)` entries, and `w j` is the
twiddle of position `j` of the half-block, `TW[off + j * (n / 2^(s+1))]`. -/
def passArray {f : SampleFmt} (n s : Nat) (w : Nat → Entry f) (x : Nat → Entry f) (p : Nat) : Entry f :=
  let h := 2 ^ s
  let j := p % (2 * h)
  if j < h then cadd (x p) (cmul (x (p + h)) (w (j * (n / (2 * h)))))
  else csub (x (p - h)) (cmul (x p) (w ((j - h) * (n / (2 * h)))))

/-- Passes 1 to `m` of R181 as a function of the whole array; `w k` is `TW[off + k]`. -/
def passesArray {f : SampleFmt} (n : Nat) (w : Nat → Entry f) : Nat → (Nat → Entry f) → Nat → Entry f
  | 0, x => x
  | m + 1, x => passArray n m w (passesArray n w m x)

/-- Every component divided by `n` (R186). -/
def scaledArray {f : SampleFmt} (n : Nat) (x : Nat → Entry f) (i : Nat) : Entry f :=
  ⟨fdiv (x i).re (ofRatio f n 1), fdiv (x i).im (ofRatio f n 1)⟩

/-- The half-spectrum of R207: magnitudes times `2^(1-m)` in entries `[0, n/2]`, zeros above. -/
def spectrumArray {f : SampleFmt} (n m : Nat) (x : Nat → Entry f) (k : Nat) : Entry f :=
  if k ≤ n / 2 then ⟨fmul (magnitude (x k)) (ofRatio f 2 (2 ^ m)), posZero f⟩ else zeroEntry f

/-! ### What a rounded result is -/

/-- A component that is neither infinite nor NaN. -/
def isFinite {f : SampleFmt} (x : Comp f) : Bool := decide (magOf x < infMag f)

/-- The real number a finite component stands for (R20). -/
noncomputable def compVal {f : SampleFmt} (x : Comp f) : ℝ := (toUnits x : ℝ) / 2 ^ unitExp f

/-- The overflow threshold `(2 - 2^-p) * 2^emax` of R21, with `p` the precision and `emax` the bias. -/
noncomputable def overflowAt (f : SampleFmt) : ℝ := (2 - 1 / 2 ^ (f.fracBits + 1)) * 2 ^ f.bias

/-- `b` is the real number `r` rounded once by roundTiesToEven (R21): an infinity of its sign from the overflow threshold
on, else a finite component no other one is nearer than, of even pattern where another value is as near. -/
def IsRounded (f : SampleFmt) (r : ℝ) (b : Comp f) : Prop :=
  if overflowAt f ≤ |r| then b = packComp f (decide (r < 0)) (infMag f)
  else isFinite b = true
    ∧ (∀ z : Comp f, isFinite z = true → |r - compVal b| ≤ |r - compVal z|)
    ∧ (∀ z : Comp f, isFinite z = true → compVal z ≠ compVal b → |r - compVal b| = |r - compVal z| → magOf b % 2 = 0)

end Sys2Proof.Machine
end

