-- ==== Sys2Proof/Certificates/Slice0/Obligations.lean ====
section
/-! DEFINITION. The statements about the block, from the spec's numbered rules. Each docstring names the rule it formalises, or
says that it is derived. None rests on a value the model chose unless its docstring says so. -/

open Sys2Proof Sys2Proof.Machine

/-! ### Encoding -/

/-- R113: the decoder accepts exactly the twelve words of the opcode map, each as its command. -/
def Obligations.DecodeAcceptsExactlyTheOpcodeMap : Prop :=
  (∀ (w : Word) (i : Instr), decodeWord w = .ok i ↔ w = encode i) ∧
    encode .configure = 0x00000001 ∧ encode .forward = 0x00000002 ∧ encode .inverse = 0x00000003 ∧
    encode .realForward = 0x00000004 ∧ encode .realSpectrum = 0x00000005 ∧ encode .inverseReal = 0x00000006 ∧
    encode .loadComplex = 0x00000010 ∧ encode .loadReal = 0x00000011 ∧ encode .bitrev = 0x00000012 ∧
    encode .butterflyFwd = 0x00000013 ∧ encode .butterflyInv = 0x00000014 ∧ encode .scaleInv = 0x00000015

/-- Derived (R110, R111, R113): every command's bytes, in front of any other bytes, decode to it and leave the others; the
opcode table's numbering of its bits gives it too. -/
def Obligations.EncodedBytesDecodeBack : Prop :=
  ∀ (i : Instr) (rest : List Byte),
    decodeBytes (encodeBytes i ++ rest) = .ok (i, rest) ∧ decodeTableWord 32 (encode i).toNat = some i

/-- R115: which words are illegal, that the idle block accepts one like any other word, and that it completes with
ILLEGAL_COMMAND (code 1) and no other effect. -/
def Obligations.IllegalWordsAreAcceptedAndFail : Prop :=
  ErrCode.code .illegalCommand = 1 ∧
  ∀ w : Word,
    ((∀ i, decodeWord w ≠ .ok i) ↔
      (w.toNat / 256 ≠ 0 ∨ (w.toNat % 256 = 0 ∨ (0x07 ≤ w.toNat % 256 ∧ w.toNat % 256 ≤ 0x0F) ∨ 0x16 ≤ w.toNat % 256))) ∧
    ((∀ i, decodeWord w ≠ .ok i) →
      (∀ s : State, s.busy = false → s.offerCmd w =
        { s with
          lastCmd := w
          latch := { word := w, cfg := s.cfgLen, inlen := s.inLen, reject := s.oversizeReject }
          done := false
          busy := true }) ∧
      (∀ s : State, s.busy = true → s.latch.word = w → controllerTurn s = .next
        { s with err := true, errCode := .illegalCommand, busy := false, done := true }))

/-! ### The step -/

/-- Derived (R233, R236): while busy with a legal word in the latch, a step with no event to come, and a step with the
controller's turn next, is the meaning of that command; a word put in flight is run by the very next step. The list of events,
and that an empty one lets the command complete, are the model's choice (DESIGN CHOICE, assumption log 3); so is `withFetchWord`
as the way a word is put in flight (DESIGN CHOICE, assumption log 15). -/
def Obligations.StepRunsTheDecodedCommand : Prop :=
  ∀ (s : State) (i : Instr),
    (s.busy = true → decodeWord s.latch.word = .ok i →
      (s.pending = [] → step s = exec i s) ∧
      (∀ rest, s.pending = .controller :: rest → step s = exec i { s with pending := rest })) ∧
    step (s.withFetchWord 32 (encode i).toNat) = exec i (s.acceptCmd (encode i))

/-- Derived (R94, R230, R256, R270): the other steps. The first event to come is taken; an idle block has no step of the
controller and keeps all its state. The list of events is the model's choice (DESIGN CHOICE, assumption log 3). Of the state after
RST the rule gives the registers; that the latch is zero (log 2) and that the parameters and later events are kept and the bus
answer cleared (log 14) are the model's choices too (DESIGN CHOICE). -/
def Obligations.StepTakesTheNextEvent : Prop :=
  ∀ s : State,
    (∀ x rest, s.pending = .host x :: rest → step s = hostAccess { s with pending := rest } x) ∧
    (∀ rest, s.pending = .rst :: rest → step s = .next (State.afterReset s.cfg rest)) ∧
    (∀ rest, s.pending = .controller :: rest → s.busy = false → step s = .next { s with pending := rest }) ∧
    (s.pending = [] → s.busy = false → step s = .next s)

/-- Derived (R233, R291): unless RST is among the events to come, a busy command is completed, or stops the model at a read of an
unwritten byte, within as many steps as there are events to come and one more. The rule says only that it is eventually
completed: the bound, and the completion once the list is empty, are the model's choice (DESIGN CHOICE, assumption log 3). -/
def Obligations.BusyCommandCompletesOrStopsUnlessReset : Prop :=
  ∀ s : State, s.busy = true → (∀ e ∈ s.pending, e ≠ .rst) →
    ∃ k, k ≤ s.pending.length + 1 ∧
      ((∃ r, Sys2Proof.core.run k s = .fault r) ∨ ∃ t : State, Sys2Proof.core.run k s = .next t ∧ t.busy = false)

/-! ### Validation and completion -/

/-- R234: the first failing check, in the order of the rule, gives the code of a completion; a completion that fails one
always answers. -/
def Obligations.FirstFailingCheckGivesTheCode : Prop :=
  [ErrCode.ok, .illegalCommand, .invalidLength, .capacity, .notConfigured, .sizeMismatch].map ErrCode.code
    = [0, 1, 2, 3, 4, 5] ∧
  ∀ s : State, s.busy = true →
    (∀ t, controllerTurn s = .next t → t.errCode = priorityCode s) ∧
    (priorityCode s ≠ .ok → ∃ t, controllerTurn s = .next t)

/-- R237: a command that completes with an error, an illegal word too, changes only ERRCODE, ERR, BUSY and DONE. -/
def Obligations.FailedCommandsChangeOnlyTheOutcome : Prop :=
  (∀ (i : Instr) (s : State), s.validate i ≠ .ok → FailsWith i s (s.validate i)) ∧
  ∀ s : State, s.busy = true → priorityCode s ≠ .ok →
    controllerTurn s = .next { s with err := true, errCode := priorityCode s, busy := false, done := true }

/-- Derived (R54, R236): every completion writes ERRCODE, clears BUSY and sets DONE, and sets ERR exactly on an error. -/
def Obligations.EveryCompletionRecordsItsOutcome : Prop :=
  ∀ (i : Instr) (s t : State), exec i s = .next t →
    t.busy = false ∧ t.done = true ∧ t.errCode = s.validate i ∧ t.err = (s.err || decide (s.validate i ≠ .ok))

/-- R161: an oversize input under policy 1 fails every loading command with SIZE_MISMATCH before any effect, and under
policy 0 it is truncated and a successful command sets SIZE_WARN. -/
def Obligations.OversizeInputIsRejectedOrTruncatedWithWarning : Prop :=
  ErrCode.code .sizeMismatch = 5 ∧
  ∀ (i : Instr) (s : State), isLoading i = true → s.configured = true → s.n < s.lin →
    (s.latch.reject = true → FailsWith i s .sizeMismatch) ∧
    (s.latch.reject = false → s.loadCount = s.n ∧ ∀ t, exec i s = .next t → t.errCode = .ok ∧ t.sizeWarn = true)

/-- R53: OUT_LEN after reset and after every command, its reserved bits, and that the host cannot write it. -/
def Obligations.OutLenNamesTheResultLength : Prop :=
  (∀ s : State, (s.readReg .outLen).toNat = s.outLen % 2 ^ 17 ∧
    ∀ v, hostAccess s (.write (s.cfg.base + 0x028) .w32 v) = .next { s with resp := .ack }) ∧
  (∀ (c : Config) (evs : List Event), (State.afterReset c evs).outLen = 0) ∧
  (∀ s t : State, s.busy = true → controllerTurn s = .next t → t.errCode ≠ .ok → t.outLen = s.outLen) ∧
  ∀ (i : Instr) (s t : State), exec i s = .next t →
    (s.validate i ≠ .ok → t.outLen = s.outLen) ∧
    (s.validate i = .ok → t.outLen =
      (if i = .configure then 0 else if i = .realSpectrum then s.n / 2 + 1 else s.n))

/-! ### CONFIGURE and the twiddle table -/

/-- R141, R142: a legal length rounds up to the least power of two, and N, LOG2N, CONFIGURED, OUT_LEN and every TW entry are
set, nothing else but the outcome; the two illegal lengths fail with their codes. -/
def Obligations.ConfigureSetsLengthAndTable : Prop :=
  ∀ s : State,
    (0 < s.reqLen → s.reqLen ≤ s.cfg.nmax → ∃ t, exec .configure s = .next t ∧
      t.n = 2 ^ t.log2n ∧ s.reqLen ≤ t.n ∧ (∀ e : Nat, s.reqLen ≤ 2 ^ e → t.log2n ≤ e) ∧ t.n ≤ s.cfg.nmax ∧
      t.configured = true ∧ t.outLen = 0 ∧ t.sizeWarn = s.sizeWarn ∧ t.workMem = s.workMem ∧
      CompletedOk s t ∧ KeepsHostSide s t ∧
      (∀ k, k < t.n / 2 →
        t.twMem.readEntry s.cfg.fmt k = some (canon s.cfg.fmt t.log2n k) ∧
        t.twMem.readEntry s.cfg.fmt (t.n / 2 + k) = some (anti s.cfg.fmt t.log2n k)) ∧
      (∀ k, 2 * (t.n / 2) ≤ k → k < s.cfg.nmax → t.twMem.readEntry s.cfg.fmt k = some (zeroEntry s.cfg.fmt)) ∧
      (∀ a, s.cfg.memBytes ≤ a → t.twMem.readByte a = s.twMem.readByte a)) ∧
    (s.reqLen ≤ 0 → FailsWith .configure s .invalidLength) ∧
    (s.cfg.nmax < s.reqLen → FailsWith .configure s .capacity)

/-- R148: a CONFIGURE that fails, or an illegal word, keeps the configuration, OUT_LEN and every TW entry. -/
def Obligations.FailedConfigureKeepsThePreviousConfiguration : Prop :=
  ∀ s : State, s.busy = true →
    ((s.latch.word = 0x00000001 ∧ (s.reqLen ≤ 0 ∨ s.cfg.nmax < s.reqLen)) ∨ (∀ i, decodeWord s.latch.word ≠ .ok i)) →
    ∃ t, controllerTurn s = .next t ∧ KeepsConfiguration s t ∧ t.outLen = s.outLen ∧ t.errCode ≠ .ok

/-- Derived (R142, R147, R212): the table a CONFIGURE leaves depends only on the instance and the requested length, whatever
the two blocks held before. -/
def Obligations.ConfiguredTableForgetsThePast : Prop :=
  ∀ s s' t t' : State, s.cfg = s'.cfg → s.latch.cfg = s'.latch.cfg → 0 < s.reqLen → s.reqLen ≤ s.cfg.nmax →
    s.twMem.wf → s.twMem.below s.cfg.memBytes → s'.twMem.wf → s'.twMem.below s'.cfg.memBytes →
    exec .configure s = .next t → exec .configure s' = .next t' →
    t.twMem = t'.twMem ∧ t.n = t'.n ∧ t.log2n = t'.log2n

/-- Derived (R144, R145): the exact entries 1, -i and i, conjugate halves, half-period, quarter-period, sub-sampling, and the
bound 1.0. It is about the model's way of computing the table (assumption log 9). -/
def Obligations.TwiddleTableSymmetries : Prop :=
  (∀ (f : SampleFmt) (m : Nat), 2 ≤ m →
    canon f m (2 ^ (m - 2)) = ⟨posZero f, fneg (ofRatio f 1 1)⟩ ∧
      anti f m (2 ^ (m - 2)) = ⟨posZero f, ofRatio f 1 1⟩) ∧
  ∀ (f : SampleFmt) (m k : Nat), 1 ≤ m → k < 2 ^ (m - 1) →
    (0 < k → anti f m k = ⟨(canon f m k).re, fneg (canon f m k).im⟩) ∧
    (k = 0 → canon f m k = ⟨ofRatio f 1 1, posZero f⟩ ∧ anti f m k = ⟨ofRatio f 1 1, posZero f⟩) ∧
    (0 < k → 4 * k ≠ 2 ^ m → canon f m (2 ^ (m - 1) - k) = ⟨fneg (canon f m k).re, (canon f m k).im⟩) ∧
    (3 ≤ m → 0 < k → 4 * k < 2 ^ m →
      canon f m (2 ^ (m - 2) - k) = ⟨fneg (canon f m k).im, fneg (canon f m k).re⟩) ∧
    (∀ m', m ≤ m' → canon f m k = canon f m' (k * 2 ^ (m' - m)) ∧ anti f m k = anti f m' (k * 2 ^ (m' - m))) ∧
    (∀ b ∈ [(canon f m k).re, (canon f m k).im, (anti f m k).re, (anti f m k).im], magOf b ≤ magOf (ofRatio f 1 1))

/-- Derived (R143, for the tables of 95_test_vectors.md, N up to 16): every component of the table is the exact cosine or
sine rounded once. -/
def Obligations.TwiddlesToSixteenAreCorrectlyRounded : Prop :=
  ∀ (f : SampleFmt) (m k : Nat), 1 ≤ m → m ≤ 4 → k < 2 ^ (m - 1) →
    IsRounded f (Real.cos (2 * Real.pi * k / 2 ^ m)) (canon f m k).re ∧
    IsRounded f (-Real.sin (2 * Real.pi * k / 2 ^ m)) (canon f m k).im ∧
    IsRounded f (Real.cos (2 * Real.pi * k / 2 ^ m)) (anti f m k).re ∧
    IsRounded f (Real.sin (2 * Real.pi * k / 2 ^ m)) (anti f m k).im

/-- Derived (R143, for every legal N): no component of the format is nearer the exact cosine or sine than the table's by
more than `2^-100`. -/
def Obligations.TwiddlesAreNearestUpToATinyError : Prop :=
  ∀ (f : SampleFmt) (m k : Nat), 1 ≤ m → m ≤ 16 → k < 2 ^ (m - 1) → ∀ z : Comp f, isFinite z = true →
    |Real.cos (2 * Real.pi * k / 2 ^ m) - compVal (canon f m k).re|
      ≤ |Real.cos (2 * Real.pi * k / 2 ^ m) - compVal z| + 1 / 2 ^ 100 ∧
    |-Real.sin (2 * Real.pi * k / 2 ^ m) - compVal (canon f m k).im|
      ≤ |-Real.sin (2 * Real.pi * k / 2 ^ m) - compVal z| + 1 / 2 ^ 100 ∧
    |Real.cos (2 * Real.pi * k / 2 ^ m) - compVal (anti f m k).re|
      ≤ |Real.cos (2 * Real.pi * k / 2 ^ m) - compVal z| + 1 / 2 ^ 100 ∧
    |Real.sin (2 * Real.pi * k / 2 ^ m) - compVal (anti f m k).im|
      ≤ |Real.sin (2 * Real.pi * k / 2 ^ m) - compVal z| + 1 / 2 ^ 100

/-! ### Arithmetic -/

/-- R21: each primitive is the exact result of its finite operands rounded once by roundTiesToEven, overflow to infinity from
the threshold on, subnormals kept. -/
def Obligations.ArithmeticRoundsTheExactResultOnce : Prop :=
  ∀ (f : SampleFmt) (x y : Comp f), isFinite x = true → isFinite y = true →
    IsRounded f (compVal x + compVal y) (fadd x y) ∧
    IsRounded f (compVal x - compVal y) (fsub x y) ∧
    IsRounded f (compVal x * compVal y) (fmul x y) ∧
    (isZero y = false → IsRounded f (compVal x / compVal y) (fdiv x y)) ∧
    (0 ≤ compVal x → IsRounded f (Real.sqrt (compVal x)) (fsqrt x))

/-- Derived (R23; its moves are the load and bit-reversal statements): where a primitive returns a NaN, and that it is then the canonical one. -/
def Obligations.NaNResultsAreCanonical : Prop :=
  canonNaN .f32 = (0x7FC00000 : BitVec 32) ∧ canonNaN .f64 = (0x7FF8000000000000 : BitVec 64) ∧
  ∀ (f : SampleFmt) (x y : Comp f),
    (isNaN x = true ∨ isNaN y = true →
      fadd x y = canonNaN f ∧ fsub x y = canonNaN f ∧ fmul x y = canonNaN f ∧ fdiv x y = canonNaN f) ∧
    (isNaN x = true → fsqrt x = canonNaN f) ∧
    (isInf x = true → isInf y = true → (signOf x ≠ signOf y → fadd x y = canonNaN f) ∧
      (signOf x = signOf y → fsub x y = canonNaN f) ∧ fdiv x y = canonNaN f) ∧
    (isZero x = true → isInf y = true → fmul x y = canonNaN f ∧ fmul y x = canonNaN f) ∧
    (isZero x = true → isZero y = true → fdiv x y = canonNaN f) ∧
    (signOf x = true → isZero x = false → fsqrt x = canonNaN f) ∧
    (∀ r ∈ [fadd x y, fsub x y, fmul x y, fdiv x y, fsqrt x], isNaN r = true → r = canonNaN f)

/-- R24: signed zeros and infinities. -/
def Obligations.SignedZerosAndInfinities : Prop :=
  ∀ (f : SampleFmt) (x y : Comp f),
    (isFinite x = true → isZero x = false → fadd x (fneg x) = posZero f) ∧
    fadd (posZero f) (packComp f true 0) = posZero f ∧
    fadd (packComp f true 0) (packComp f true 0) = packComp f true 0 ∧
    fadd (posZero f) (posZero f) = posZero f ∧
    fsub x y = fadd x (fneg y) ∧
    (isZero x = true → isFinite y = true →
      fmul x y = packComp f (signOf x != signOf y) 0 ∧ fmul y x = packComp f (signOf x != signOf y) 0) ∧
    (isZero x = true → isInf y = true → isNaN (fmul x y) = true) ∧
    (isZero x = true → isFinite y = true → isZero y = false → fdiv x y = packComp f (signOf x != signOf y) 0) ∧
    fsqrt (posZero f) = posZero f ∧ fsqrt (packComp f true 0) = packComp f true 0 ∧
    fsqrt (packComp f false (infMag f)) = packComp f false (infMag f) ∧
    (signOf x = true → isZero x = false → isNaN (fsqrt x) = true) ∧
    isNaN (fadd (packComp f false (infMag f)) (packComp f true (infMag f))) = true ∧
    (isInf x = true → isFinite y = true → fadd x y = x ∧ fadd y x = x)

/-- Derived (R26): the operand order of `fadd` and `fmul` cannot change a result. -/
def Obligations.OperandOrderDoesNotMatter : Prop :=
  ∀ (f : SampleFmt) (x y : Comp f), fadd x y = fadd y x ∧ fmul x y = fmul y x

/-- Derived (R28): the constants `N = 2^m` and `2^(1-m)` are exact, and scaling by them is exact whenever the exact result is a normal
number. -/
def Obligations.PowerOfTwoScalingIsExact : Prop :=
  ∀ (f : SampleFmt) (x : Comp f) (m : Nat), m ≤ 16 → isFinite x = true →
    compVal (ofRatio f (2 ^ m) 1) = 2 ^ m ∧ compVal (ofRatio f 2 (2 ^ m)) = 2 / 2 ^ m ∧
    (1 / 2 ^ (f.bias - 1) ≤ |compVal x / 2 ^ m| → compVal (fdiv x (ofRatio f (2 ^ m) 1)) = compVal x / 2 ^ m) ∧
    (1 / 2 ^ (f.bias - 1) ≤ |compVal x * (2 / 2 ^ m)| → |compVal x * (2 / 2 ^ m)| < overflowAt f →
      compVal (fmul x (ofRatio f 2 (2 ^ m))) = compVal x * (2 / 2 ^ m))

/-! ### Index primitives, load stage, bit reversal -/

/-- R13: the bit reversal, the next power of two and the exponent of a power of two. -/
def Obligations.IndexPrimitives : Prop :=
  (∀ m i b : Nat, b < m → (rev m i).testBit b = i.testBit (m - 1 - b)) ∧
  (∀ m i : Nat, rev m i < 2 ^ m) ∧
  rev 0 0 = 0 ∧
  (∀ l : Nat, 1 ≤ l → l ≤ nextPow2 l ∧ (∃ e, nextPow2 l = 2 ^ e) ∧ ∀ e, l ≤ 2 ^ e → nextPow2 l ≤ 2 ^ e) ∧
  (∀ e : Nat, ceilLog2 (2 ^ e) = e)

/-- R160: LOAD_COMPLEX copies the first `min(Lin, N)` input entries bit for bit and pads with `(+0, +0)`. -/
def Obligations.LoadComplexCopiesAndPads : Prop :=
  decodeWord 0x00000010 = .ok .loadComplex ∧ ∀ s : State, LoadErrors .loadComplex s ∧
    ∀ x : Nat → Entry s.cfg.fmt, MayLoad s → s.inMem.IsArray s.cfg.fmt s.loadCount x →
      ∃ t, exec .loadComplex s = .next t ∧ t.workMem.IsArray s.cfg.fmt s.n (padded s.loadCount x) ∧
        t.outLen = s.n ∧ t.sizeWarn = (s.sizeWarn || decide (s.n < s.lin)) ∧ TransformFrame s t

/-- R162: LOAD_REAL copies the real components, with imaginary `+0`, and reads no imaginary component. -/
def Obligations.LoadRealPromotesAndPads : Prop :=
  decodeWord 0x00000011 = .ok .loadReal ∧ ∀ s : State, LoadErrors .loadReal s ∧
    ∀ x : Nat → Comp s.cfg.fmt, MayLoad s → s.inMem.IsRealArray s.cfg.fmt s.loadCount x →
      ∃ t, exec .loadReal s = .next t ∧ t.workMem.IsArray s.cfg.fmt s.n (padded s.loadCount (promoted x)) ∧
        t.outLen = s.n ∧ t.sizeWarn = (s.sizeWarn || decide (s.n < s.lin)) ∧ TransformFrame s t

/-- Derived (R163, R164, R165): BITREV moves the entry at `i` to `rev_m(i)`; it completes wherever the entries it swaps hold
values, and an entry it does not swap is left. -/
def Obligations.BitReversalMovesEveryEntry : Prop :=
  ∀ s : State, (s.configured = false → FailsWith .bitrev s .notConfigured) ∧
    (s.configured = true → PowerLength s →
      (∀ i, i < s.n → rev s.log2n i ≠ i → (s.workMem.readEntry s.cfg.fmt i).isSome = true) →
      ∃ t, exec .bitrev s = .next t ∧
        (∀ i, i < s.n → t.workMem.readEntry s.cfg.fmt (rev s.log2n i) = s.workMem.readEntry s.cfg.fmt i) ∧
        t.outLen = s.n ∧ t.sizeWarn = s.sizeWarn ∧ TransformFrame s t)

/-- Derived (R165): two BITREV commands in a row restore WORK exactly. -/
def Obligations.BitReversalTwiceRestoresWork : Prop :=
  ∀ s : State, s.configured = true → PowerLength s → s.workMem.wf →
    (∀ i, i < s.n → rev s.log2n i ≠ i → (s.workMem.readEntry s.cfg.fmt i).isSome = true) →
    ∃ t u, exec .bitrev s = .next t ∧ exec .bitrev (t.acceptCmd (encode .bitrev)) = .next u ∧ u.workMem = s.workMem

/-! ### Butterflies and scaling -/

/-- R184: BUTTERFLY_FWD runs the passes of R181 with the canonical half of TW; at N = 1 it leaves WORK bit for bit. -/
def Obligations.ForwardButterfliesComputeThePasses : Prop :=
  decodeWord 0x00000013 = .ok .butterflyFwd ∧ ∀ s : State, (s.configured = false → FailsWith .butterflyFwd s .notConfigured) ∧
    ∀ x w : Nat → Entry s.cfg.fmt, s.configured = true → PowerLength s →
      (s.log2n ≠ 0 → s.workMem.IsArray s.cfg.fmt s.n x) → s.twMem.IsArray s.cfg.fmt (s.n / 2) w →
      ∃ t, exec .butterflyFwd s = .next t ∧
        (s.log2n ≠ 0 → t.workMem.IsArray s.cfg.fmt s.n (passesArray s.n w s.log2n x)) ∧
        (s.log2n = 0 → t.workMem = s.workMem) ∧
        t.outLen = s.n ∧ t.sizeWarn = s.sizeWarn ∧ TransformFrame s t

/-- R185: BUTTERFLY_INV runs the passes of R181 with the anti-canonical half of TW, with no scaling. -/
def Obligations.InverseButterfliesComputeThePasses : Prop :=
  decodeWord 0x00000014 = .ok .butterflyInv ∧ ∀ s : State, (s.configured = false → FailsWith .butterflyInv s .notConfigured) ∧
    ∀ x w : Nat → Entry s.cfg.fmt, s.configured = true → PowerLength s →
      (s.log2n ≠ 0 → s.workMem.IsArray s.cfg.fmt s.n x) →
      (∀ k, k < s.n / 2 → s.twMem.readEntry s.cfg.fmt (s.n / 2 + k) = some (w k)) →
      ∃ t, exec .butterflyInv s = .next t ∧
        (s.log2n ≠ 0 → t.workMem.IsArray s.cfg.fmt s.n (passesArray s.n w s.log2n x)) ∧
        (s.log2n = 0 → t.workMem = s.workMem) ∧
        t.outLen = s.n ∧ t.sizeWarn = s.sizeWarn ∧ TransformFrame s t

/-- R186: SCALE_INV divides both components of every entry by N. -/
def Obligations.ScaleDividesEveryComponent : Prop :=
  decodeWord 0x00000015 = .ok .scaleInv ∧ ∀ s : State, (s.configured = false → FailsWith .scaleInv s .notConfigured) ∧
    ∀ x : Nat → Entry s.cfg.fmt, s.configured = true → s.workMem.IsArray s.cfg.fmt s.n x →
      ∃ t, exec .scaleInv s = .next t ∧ t.workMem.IsArray s.cfg.fmt s.n (scaledArray s.n x) ∧
        t.outLen = s.n ∧ t.sizeWarn = s.sizeWarn ∧ TransformFrame s t

/-! ### Facade transforms -/

/-- R201: FORWARD is the passes with the canonical twiddles over the bit-reversed, padded or truncated input. -/
def Obligations.ForwardTransformsThePaddedInput : Prop :=
  decodeWord 0x00000002 = .ok .forward ∧ ∀ s : State, LoadErrors .forward s ∧
    ∀ x w : Nat → Entry s.cfg.fmt, MayLoad s → PowerLength s → s.inMem.IsArray s.cfg.fmt s.loadCount x →
      s.twMem.IsArray s.cfg.fmt (s.n / 2) w →
      ∃ t, exec .forward s = .next t ∧
        t.workMem.IsArray s.cfg.fmt s.n
          (passesArray s.n w s.log2n (fun i => padded s.loadCount x (rev s.log2n i))) ∧
        t.outLen = s.n ∧ t.sizeWarn = (s.sizeWarn || decide (s.n < s.lin)) ∧ TransformFrame s t

/-- R203: INVERSE is the passes with the anti-canonical twiddles, then the division by N. -/
def Obligations.InverseTransformsAndScales : Prop :=
  decodeWord 0x00000003 = .ok .inverse ∧ ∀ s : State, LoadErrors .inverse s ∧
    ∀ x w : Nat → Entry s.cfg.fmt, MayLoad s → PowerLength s → s.inMem.IsArray s.cfg.fmt s.loadCount x →
      (∀ k, k < s.n / 2 → s.twMem.readEntry s.cfg.fmt (s.n / 2 + k) = some (w k)) →
      ∃ t, exec .inverse s = .next t ∧
        t.workMem.IsArray s.cfg.fmt s.n
          (scaledArray s.n (passesArray s.n w s.log2n (fun i => padded s.loadCount x (rev s.log2n i)))) ∧
        t.outLen = s.n ∧ t.sizeWarn = (s.sizeWarn || decide (s.n < s.lin)) ∧ TransformFrame s t

/-- R205: REAL_FORWARD is the forward transform of the real components with imaginary `+0`. -/
def Obligations.RealForwardTransformsTheRealParts : Prop :=
  decodeWord 0x00000004 = .ok .realForward ∧ ∀ s : State, LoadErrors .realForward s ∧
    ∀ (x : Nat → Comp s.cfg.fmt) (w : Nat → Entry s.cfg.fmt), MayLoad s → PowerLength s →
      s.inMem.IsRealArray s.cfg.fmt s.loadCount x → s.twMem.IsArray s.cfg.fmt (s.n / 2) w →
      ∃ t, exec .realForward s = .next t ∧
        t.workMem.IsArray s.cfg.fmt s.n
          (passesArray s.n w s.log2n (fun i => padded s.loadCount (promoted x) (rev s.log2n i))) ∧
        t.outLen = s.n ∧ t.sizeWarn = (s.sizeWarn || decide (s.n < s.lin)) ∧ TransformFrame s t

/-- R207: REAL_SPECTRUM leaves the magnitudes of the real forward transform times `2/N` in entries `[0, N/2]`, zeros above. -/
def Obligations.RealSpectrumLeavesScaledMagnitudes : Prop :=
  decodeWord 0x00000005 = .ok .realSpectrum ∧ ∀ s : State, LoadErrors .realSpectrum s ∧
    ∀ (x : Nat → Comp s.cfg.fmt) (w : Nat → Entry s.cfg.fmt), MayLoad s → PowerLength s →
      s.inMem.IsRealArray s.cfg.fmt s.loadCount x → s.twMem.IsArray s.cfg.fmt (s.n / 2) w →
      ∃ t, exec .realSpectrum s = .next t ∧
        t.workMem.IsArray s.cfg.fmt s.n (spectrumArray s.n s.log2n
          (passesArray s.n w s.log2n (fun i => padded s.loadCount (promoted x) (rev s.log2n i)))) ∧
        t.outLen = s.n / 2 + 1 ∧ t.sizeWarn = (s.sizeWarn || decide (s.n < s.lin)) ∧ TransformFrame s t

/-- R209: INVERSE_REAL is the inverse transform with every imaginary component replaced by `+0`. -/
def Obligations.InverseRealKeepsTheRealParts : Prop :=
  decodeWord 0x00000006 = .ok .inverseReal ∧ ∀ s : State, LoadErrors .inverseReal s ∧
    ∀ x w : Nat → Entry s.cfg.fmt, MayLoad s → PowerLength s → s.inMem.IsArray s.cfg.fmt s.loadCount x →
      (∀ k, k < s.n / 2 → s.twMem.readEntry s.cfg.fmt (s.n / 2 + k) = some (w k)) →
      ∃ t, exec .inverseReal s = .next t ∧
        t.workMem.IsArray s.cfg.fmt s.n (fun i => ⟨(scaledArray s.n
          (passesArray s.n w s.log2n (fun j => padded s.loadCount x (rev s.log2n j))) i).re, posZero s.cfg.fmt⟩) ∧
        t.outLen = s.n ∧ t.sizeWarn = (s.sizeWarn || decide (s.n < s.lin)) ∧ TransformFrame s t

/-- R206: REAL_FORWARD is bit for bit FORWARD applied to the input `(IN[i].re, +0)`, stop or completion alike. -/
def Obligations.RealForwardIsForwardOfThePromotedInput : Prop :=
  ∀ (s : State) (x : Nat → Comp s.cfg.fmt) (m : Memory), s.inMem.IsRealArray s.cfg.fmt s.loadCount x →
    m.IsArray s.cfg.fmt s.loadCount (promoted x) →
    (∀ t, exec .realForward s = .next t → exec .forward { s with inMem := m } = .next { t with inMem := m }) ∧
    (∀ r, exec .realForward s = .fault r → exec .forward { s with inMem := m } = .fault r)

/-- Derived (R284, last sentence): LOAD_COMPLEX; BITREV; BUTTERFLY_FWD, each offered to the idle block, leave bit for bit what
FORWARD leaves, and LOAD_COMPLEX; BITREV; BUTTERFLY_INV; SCALE_INV what INVERSE leaves. -/
def Obligations.PrimitiveSequencesAreTheFacadeCommands : Prop :=
  ∀ s t₁ t₂ t₃ : State,
    exec .loadComplex (s.acceptCmd (encode .loadComplex)) = .next t₁ → t₁.errCode = .ok →
    exec .bitrev (t₁.acceptCmd (encode .bitrev)) = .next t₂ →
    (exec .butterflyFwd (t₂.acceptCmd (encode .butterflyFwd)) = .next t₃ →
      ∃ t, exec .forward (s.acceptCmd (encode .forward)) = .next t ∧ t.workMem = t₃.workMem ∧ t.outLen = t₃.outLen ∧
        t.sizeWarn = t₃.sizeWarn ∧ t.errCode = .ok) ∧
    (∀ t₄, exec .butterflyInv (t₂.acceptCmd (encode .butterflyInv)) = .next t₃ →
      exec .scaleInv (t₃.acceptCmd (encode .scaleInv)) = .next t₄ →
      ∃ t, exec .inverse (s.acceptCmd (encode .inverse)) = .next t ∧ t.workMem = t₄.workMem ∧ t.outLen = t₄.outLen ∧
        t.sizeWarn = t₄.sizeWarn ∧ t.errCode = .ok)

/-- Derived (R162, R205, R207): the commands for real input do not learn the imaginary components of IN. -/
def Obligations.RealCommandsIgnoreImaginaryInput : Prop :=
  ∀ (i : Instr) (s : State) (m : Memory), i = .loadReal ∨ i = .realForward ∨ i = .realSpectrum →
    (∀ k, k < s.loadCount → m.readRe s.cfg.fmt k = s.inMem.readRe s.cfg.fmt k) →
    (∀ t, exec i s = .next t → exec i { s with inMem := m } = .next { t with inMem := m }) ∧
    (∀ r, exec i s = .fault r → exec i { s with inMem := m } = .fault r)

/-- Derived (R187): whether a command completes depends on which bytes were written, never on sample values. -/
def Obligations.SampleValuesNeverDecideCompletion : Prop :=
  ∀ (i : Instr) (s : State) (inp work tw : Memory),
    (∀ a, (inp.readByte a).isSome = (s.inMem.readByte a).isSome) →
    (∀ a, (work.readByte a).isSome = (s.workMem.readByte a).isSome) →
    (∀ a, (tw.readByte a).isSome = (s.twMem.readByte a).isSome) →
    ((∃ t, exec i s = .next t) ↔ ∃ t, exec i { s with inMem := inp, workMem := work, twMem := tw } = .next t)

/-- Derived (R64, R286): a command that would consume a component nobody wrote since reset stops, at an entry it reads. -/
def Obligations.UnwrittenOperandsStopTheCommand : Prop :=
  ∀ s : State,
    (MayLoad s →
      (∀ i ∈ [Instr.loadComplex, .forward, .inverse, .inverseReal], ∀ k, k < s.loadCount →
        s.inMem.readEntry s.cfg.fmt k = none →
        ∃ j, j < s.loadCount ∧ exec i s = .fault (.unwritten .inp (entryOffset s.cfg.fmt j))) ∧
      (∀ i ∈ [Instr.loadReal, .realForward, .realSpectrum], ∀ k, k < s.loadCount →
        s.inMem.readRe s.cfg.fmt k = none →
        ∃ j, j < s.loadCount ∧ exec i s = .fault (.unwritten .inp (entryOffset s.cfg.fmt j)))) ∧
    (s.configured = true → PowerLength s → ∀ k, k < s.n → s.workMem.readEntry s.cfg.fmt k = none →
      (∃ j, j < s.n ∧ exec .scaleInv s = .fault (.unwritten .work (entryOffset s.cfg.fmt j))) ∧
      (rev s.log2n k ≠ k → ∃ j, j < s.n ∧ exec .bitrev s = .fault (.unwritten .work (entryOffset s.cfg.fmt j))) ∧
      (s.log2n ≠ 0 → (∀ e, e < s.n → (s.twMem.readEntry s.cfg.fmt e).isSome = true) →
        ∀ i ∈ [Instr.butterflyFwd, .butterflyInv],
          ∃ j, j < s.n ∧ exec i s = .fault (.unwritten .work (entryOffset s.cfg.fmt j))))

/-! ### Frames over all commands -/

/-- Derived (R57, R60, R236): no command changes the parameters, CTRL, OVERRUN, ACCESS_ERR, LASTCMD, CFG_LEN, IN_LEN, the
latch or IN, nor the model's own fields. -/
def Obligations.NoCommandTouchesTheHostSide : Prop :=
  ∀ (i : Instr) (s t : State), exec i s = .next t → KeepsHostSide s t

/-- Derived (R51, R52, R58, R59): no command but CONFIGURE changes N, LOG2N, CONFIGURED or TW, nor WORK from entry N on; only
a loading command changes SIZE_WARN; CONFIGURE changes no byte of WORK. -/
def Obligations.OnlyConfigureChangesTheConfiguration : Prop :=
  ∀ (i : Instr) (s t : State), exec i s = .next t →
    (i ≠ .configure → KeepsConfiguration s t) ∧
    (i ≠ .configure → PowerLength s → KeepsWorkFrom s t s.n) ∧
    (isLoading i = false → t.sizeWarn = s.sizeWarn) ∧
    (i = .configure → t.workMem = s.workMem)

/-! ### The host's accesses -/

/-- R84: an access of another size, or at an offset that is no multiple of 4, is answered with a bus error and changes
nothing else. -/
def Obligations.RejectedAccessesChangeNothing : Prop :=
  ∀ (s : State) (x : Access), s.cfg.base ≤ x.addr → x.addr < s.cfg.base + 0x400000 →
    (x.width ≠ .w32 ∨ (x.addr - s.cfg.base) % 4 ≠ 0) → hostAccess s x = .next { s with resp := .busError }

/-- R90: while busy a window read gives 0, a window write is ignored, and either sets ACCESS_ERR; every register stays
accessible; an access R84 rejects is rejected first. -/
def Obligations.BusyWindowAccessesSetAccessErr : Prop :=
  ∀ s : State, s.busy = true →
    (∀ (a : Nat) (v : Word), 0x100000 ≤ a → a < 0x400000 → a % 4 = 0 →
      hostAccess s (.read (s.cfg.base + a) .w32) = .next { s with accessErr := true, resp := .data 0 } ∧
      hostAccess s (.write (s.cfg.base + a) .w32 v) = .next { s with accessErr := true, resp := .ack }) ∧
    (∀ (r : Reg) (v : Word),
      hostAccess s (.read (s.cfg.base + regOffset r) .w32) = .next { s with resp := .data (s.readReg r) } ∧
      hostAccess s (.write (s.cfg.base + regOffset r) .w32 v) = .next { s.writeReg r v with resp := .ack }) ∧
    (∀ x : Access, s.cfg.base ≤ x.addr → x.addr < s.cfg.base + 0x400000 →
      (x.width ≠ .w32 ∨ (x.addr - s.cfg.base) % 4 ≠ 0) → hostAccess s x = .next { s with resp := .busError })

/-- R87, R89 (and of R88 that a TW write is ignored): while idle a write to IN or WORK sets the addressed word and no other bit, a read returns it, a TW write is
ignored; a read of a word never written stops (R64). -/
def Obligations.IdleWindowAccessesReachTheMemories : Prop :=
  ∀ (s : State) (o : Nat) (v : Word), s.cfg.wf = true → s.busy = false → o % 4 = 0 → o < s.cfg.memBytes →
    hostAccess s (.write (s.cfg.base + 0x100000 + o) .w32 v) =
      .next { s with inMem := s.inMem.writeWord o v, resp := .ack } ∧
    hostAccess s (.write (s.cfg.base + 0x200000 + o) .w32 v) =
      .next { s with workMem := s.workMem.writeWord o v, resp := .ack } ∧
    hostAccess s (.write (s.cfg.base + 0x300000 + o) .w32 v) = .next { s with resp := .ack } ∧
    (∀ m : Memory, (m.writeWord o v).readWord o = some v ∧
      ∀ a, a < o ∨ o + 4 ≤ a → (m.writeWord o v).readByte a = m.readByte a) ∧
    (∀ k : MemName,
      (∀ u, (s.memory k).readWord o = some u →
        hostAccess s (.read (s.cfg.base + memBase k + o) .w32) = .next { s with resp := .data u }) ∧
      ((s.memory k).readWord o = none →
        hostAccess s (.read (s.cfg.base + memBase k + o) .w32) = .fault (.unwritten k o)))

/-- R91: an offset whose entry index is at least NMAX reads 0 and ignores writes, with no status change while idle; while busy
R90 applies first. -/
def Obligations.EntriesBeyondTheMemoryReadZero : Prop :=
  ∀ (s : State) (k : MemName) (o : Nat) (v : Word), o % 4 = 0 → o < 0x100000 → s.cfg.nmax ≤ o / s.cfg.fmt.entryBytes →
    (s.busy = false →
      hostAccess s (.read (s.cfg.base + memBase k + o) .w32) = .next { s with resp := .data 0 } ∧
      hostAccess s (.write (s.cfg.base + memBase k + o) .w32 v) = .next { s with resp := .ack }) ∧
    (s.busy = true →
      hostAccess s (.read (s.cfg.base + memBase k + o) .w32) = .next { s with accessErr := true, resp := .data 0 } ∧
      hostAccess s (.write (s.cfg.base + memBase k + o) .w32 v) = .next { s with accessErr := true, resp := .ack })

/-- R82: an entry's real component starts at `e * ES` and its imaginary one `S` bytes after it, and the word of each component at
each window offset. -/
def Obligations.WordsAreTheHalvesOfComponents : Prop :=
  (SampleFmt.f32.compBytes = 4 ∧ SampleFmt.f64.compBytes = 8 ∧ ∀ f : SampleFmt, f.entryBytes = 2 * f.compBytes) ∧
  (∀ (f : SampleFmt) (m : Memory) (e : Nat),
    m.readRe f e = m.readComp f (e * f.entryBytes) ∧ m.readIm f e = m.readComp f (e * f.entryBytes + f.compBytes)) ∧
  (∀ (f : SampleFmt) (m : Memory) (e : Nat) (v : Entry f), m.readEntry f e = some v →
    ∀ w, w < f.compBytes / 4 →
      m.readWord (e * f.entryBytes + 4 * w) = some (BitVec.ofNat 32 (v.re.toNat / 2 ^ (32 * w))) ∧
      m.readWord (e * f.entryBytes + f.compBytes + 4 * w) = some (BitVec.ofNat 32 (v.im.toNat / 2 ^ (32 * w)))) ∧
  ∀ (f : SampleFmt) (m : Memory) (e c w : Nat) (x : Comp f), c < 2 → w < f.compBytes / 4 →
    m.readComp f (e * f.entryBytes + c * f.compBytes) = some x →
    m.readWord (e * f.entryBytes + c * f.compBytes + 4 * w) = some (BitVec.ofNat 32 (x.toNat / 2 ^ (32 * w))) ∧
    (e * f.entryBytes + c * f.compBytes + 4 * w) / f.entryBytes = e ∧
    (e * f.entryBytes + c * f.compBytes + 4 * w) % f.entryBytes / f.compBytes = c ∧
    (e * f.entryBytes + c * f.compBytes + 4 * w) % f.compBytes / 4 = w

/-- R47: a write of STATUS, busy or not, clears exactly the W1C bits written as 1; it and the completion that sets DONE are
separate steps, admitted in either order. The order stands in the model's list of events (assumption log 3). -/
def Obligations.StatusWritesClearOnlyTheirBits : Prop :=
  ∀ (s : State) (v : Word),
    (s.statusWord.getLsbD 0 = s.busy ∧ s.statusWord.getLsbD 1 = s.done ∧ s.statusWord.getLsbD 2 = s.err ∧
      s.statusWord.getLsbD 3 = s.sizeWarn ∧ s.statusWord.getLsbD 4 = s.overrun ∧ s.statusWord.getLsbD 5 = s.accessErr ∧
      s.statusWord.getLsbD 6 = s.configured ∧ ∀ b, 7 ≤ b → s.statusWord.getLsbD b = false) ∧
    hostAccess s (.write (s.cfg.base + 0x010) .w32 v) =
      .next { s with
        done := s.done && !v.getLsbD 1
        err := s.err && !v.getLsbD 2
        sizeWarn := s.sizeWarn && !v.getLsbD 3
        overrun := s.overrun && !v.getLsbD 4
        accessErr := s.accessErr && !v.getLsbD 5
        resp := .ack } ∧
    (s.w1c v).statusWord = s.statusWord &&& ~~~(v &&& 0x3E) ∧
    ∀ u : State, s.busy = true → controllerTurn { s with pending := [] } = .next u →
      (∃ t : State, Sys2Proof.core.run 2
        { s with pending := [.host (.write (s.cfg.base + 0x010) .w32 0x2), .controller] } = .next t ∧ t.done = true) ∧
      (∃ t : State, Sys2Proof.core.run 2
        { s with pending := [.controller, .host (.write (s.cfg.base + 0x010) .w32 0x2)] } = .next t ∧ t.done = false)

/-- R231, R232: a CMD write is accepted with its latch while idle and lost with OVERRUN while busy. -/
def Obligations.CommandWritesAreAcceptedOrLost : Prop :=
  ∀ (s : State) (v : Word),
    (s.busy = false → hostAccess s (.write (s.cfg.base + 0x014) .w32 v) = .next
      { s with
        lastCmd := v
        latch := { word := v, cfg := s.cfgLen, inlen := s.inLen, reject := s.oversizeReject }
        done := false
        busy := true
        resp := .ack }) ∧
    (s.busy = true → hostAccess s (.write (s.cfg.base + 0x014) .w32 v) = .next { s with overrun := true, resp := .ack })

/-- R55, with the writable registers' own write rules (derived from R45, R49, R50): CTRL keeps its three bits, CFG_LEN and
IN_LEN all of theirs, busy or not; reserved offsets read 0 and, like the read-only registers, ignore writes; no access to the
register page sets ACCESS_ERR. -/
def Obligations.RegisterWritesFollowTheMap : Prop :=
  ∀ (s : State) (v : Word),
    hostAccess s (.write (s.cfg.base + 0x00C) .w32 v) =
      .next { s with ieDone := v.getLsbD 0, ieErr := v.getLsbD 1, oversizeReject := v.getLsbD 2, resp := .ack } ∧
    (s.setCtrl v).readReg .ctrl = v &&& 7 ∧
    hostAccess s (.write (s.cfg.base + 0x018) .w32 v) = .next { s with cfgLen := v, resp := .ack } ∧
    hostAccess s (.write (s.cfg.base + 0x01C) .w32 v) = .next { s with inLen := v, resp := .ack } ∧
    s.readReg .cfgLen = s.cfgLen ∧ s.readReg .inLen = s.inLen ∧
    (∀ r : Reg, r ∉ [Reg.ctrl, Reg.status, Reg.cmd, Reg.cfgLen, Reg.inLen] →
      hostAccess s (.write (s.cfg.base + regOffset r) .w32 v) = .next { s with resp := .ack }) ∧
    (∀ a, 0x030 ≤ a → a ≤ 0x0FFFFC → a % 4 = 0 →
      hostAccess s (.write (s.cfg.base + a) .w32 v) = .next { s with resp := .ack } ∧
      hostAccess s (.read (s.cfg.base + a) .w32) = .next { s with resp := .data 0 }) ∧
    (∀ r : Reg,
      hostAccess s (.read (s.cfg.base + regOffset r) .w32) = .next { s with resp := .data (s.readReg r) } ∧
      ∃ t, hostAccess s (.write (s.cfg.base + regOffset r) .w32 v) = .next t ∧
        (t.accessErr = true → s.accessErr = true))

/-- R43, R44: ID, VERSION and CAPS are constants of the instance, and writes to them are ignored. -/
def Obligations.IdentificationRegisters : Prop :=
  (∀ (s : State) (r : Reg) (v : Word), r ∈ [Reg.id, Reg.version, Reg.caps] →
    hostAccess s (.write (s.cfg.base + regOffset r) .w32 v) = .next { s with resp := .ack }) ∧
  ∀ s : State, s.readReg .id = 0x46465432 ∧ s.readReg .version = 0x00010000 ∧
    (s.readReg .caps).extractLsb' 0 5 = BitVec.ofNat 5 s.cfg.log2Nmax ∧ (s.readReg .caps).extractLsb' 5 3 = 0 ∧
    (s.readReg .caps).getLsbD 8 = decide (s.cfg.fmt = .f64) ∧ (s.readReg .caps).extractLsb' 9 23 = 0

/-- Derived (R42, R46, R48, R51, R52, R54, R235): the host reads LASTCMD at CMD, the STATUS word at STATUS, the zero-extended code
of the outcome at ERRCODE and, in every state of the invariant, N, LOG2N and OUT_LEN whole. -/
def Obligations.RegisterReadsShowTheState : Prop :=
  ∀ s : State,
    hostAccess s (.read (s.cfg.base + 0x014) .w32) = .next { s with resp := .data s.lastCmd } ∧
    hostAccess s (.read (s.cfg.base + 0x010) .w32) = .next { s with resp := .data s.statusWord } ∧
    hostAccess s (.read (s.cfg.base + 0x02C) .w32) = .next { s with resp := .data (s.errCode.code.zeroExtend 32) } ∧
    s.errCode.code.toNat ≤ 5 ∧ (s.errCode.code = 0 ↔ s.errCode = .ok) ∧
    (s.Inv → ∃ n l o : Word,
      hostAccess s (.read (s.cfg.base + 0x020) .w32) = .next { s with resp := .data n } ∧
      hostAccess s (.read (s.cfg.base + 0x024) .w32) = .next { s with resp := .data l } ∧
      hostAccess s (.read (s.cfg.base + 0x028) .w32) = .next { s with resp := .data o } ∧
      n.toNat = s.n ∧ l.toNat = s.log2n ∧ o.toNat = s.outLen ∧ (n = 0 ↔ s.configured = false))

/-- Derived (R86, R90): a read changes nothing but the bus answer, except ACCESS_ERR at a window read while busy. -/
def Obligations.ReadsHaveNoSideEffect : Prop :=
  ∀ (s t : State) (addr : Nat) (w : Width), hostAccess s (.read addr w) = .next t →
    t = { s with resp := t.resp } ∨
      (s.busy = true ∧ 0x100000 ≤ addr - s.cfg.base ∧ t = { s with accessErr := true, resp := .data 0 })

/-- R245: the interrupt line in every state, and after reset. -/
def Obligations.InterruptLineFollowsItsSources : Prop :=
  (∀ s : State, s.irq = true ↔
    (s.done = true ∧ s.ieDone = true) ∨ ((s.err = true ∨ s.overrun = true ∨ s.accessErr = true) ∧ s.ieErr = true)) ∧
  ∀ (c : Config) (evs : List Event), (State.afterReset c evs).irq = false

/-- Derived (R118, R82, R87): the script operation `ldin i, RE, IM` leaves entry `i` of IN holding `(RE, IM)` and every other byte
of IN as it was, in both formats. That the script runs as the list of events, and the bus answer's field, are the model's choices
(DESIGN CHOICE, assumption logs 3, 4 and 15). -/
def Obligations.LdinStoresTheEntry : Prop :=
  ∀ (s : State) (i re im polls : Nat), s.cfg.wf = true → (ScriptOp.ldin i re im).wf s.cfg = true → s.busy = false →
    s.pending = expand s.cfg polls (.ldin i re im) →
    ∃ t : State, Sys2Proof.core.run s.pending.length s = .next t ∧
      t.inMem.readEntry s.cfg.fmt i = some ⟨BitVec.ofNat _ re, BitVec.ofNat _ im⟩ ∧
      (∀ a, a < entryOffset s.cfg.fmt i ∨ entryOffset s.cfg.fmt (i + 1) ≤ a →
        t.inMem.readByte a = s.inMem.readByte a) ∧
      t = { s with inMem := t.inMem, pending := [], resp := .ack }

/-! ### Reset -/

/-- R270: what assertion of RST leaves, whatever the block was doing; unspecified memory holds no value (R64, assumption log 5).
The latch, which has no meaningful value, and the model's own fields are not stated. -/
def Obligations.ResetClearsEveryRegister : Prop :=
  ∀ s : State, ∃ t, takeEvent s .rst = .next t ∧ t.cfg = s.cfg ∧ t.ctrlWord = 0 ∧ t.statusWord = 0 ∧ t.lastCmd = 0 ∧
    t.cfgLen = 0 ∧ t.inLen = 0 ∧ t.n = 0 ∧ t.log2n = 0 ∧ t.outLen = 0 ∧ t.errCode.code = 0 ∧
    (∀ r ∈ [Reg.id, Reg.version, Reg.caps], t.readReg r = s.readReg r) ∧
    (∀ (k : MemName) (a : Nat), (t.memory k).readByte a = none)

/-! ### Invariants and whole-machine rules -/

/-- Derived (R270, R64): the state after reset of every legal instance satisfies the invariant. -/
def Obligations.ResetSatisfiesTheInvariant : Prop :=
  ∀ (c : Config) (evs : List Event), c.wf = true → (State.afterReset c evs).Inv

/-- Derived (R8, R46, R53, R57 to R60, R62, R142, R287): every step keeps the invariant. -/
def Obligations.EveryStepKeepsTheInvariant : Prop :=
  ∀ s t : State, s.Inv → step s = .next t → t.Inv

/-- Derived (R51, R57, R58, R59, R87 to R89): TW, N, LOG2N and CONFIGURED change only by RST or by the controller's completion of
a CONFIGURE that passes its checks, IN only by RST or a host write into its window while idle, and WORK only by RST, such a write
into its own window, or the completion of another command that passes its checks. Which step comes next stands in the model's list
of events (DESIGN CHOICE, assumption log 3). -/
def Obligations.MemoriesChangeOnlyByTheirOwners : Prop :=
  ∀ s t : State, step s = .next t →
    (¬ KeepsConfiguration s t →
      (∃ rest, s.pending = .rst :: rest) ∨
        (ControllerNext s ∧ s.busy = true ∧ s.latch.word = 0x00000001 ∧ 0 < s.reqLen ∧ s.reqLen ≤ s.cfg.nmax)) ∧
    (t.inMem ≠ s.inMem →
      (∃ rest, s.pending = .rst :: rest) ∨ (s.busy = false ∧ HostWriteNext s .inp)) ∧
    (t.workMem ≠ s.workMem →
      (∃ rest, s.pending = .rst :: rest) ∨ (s.busy = false ∧ HostWriteNext s .work) ∨
        (ControllerNext s ∧ s.busy = true ∧
          ∃ i, decodeWord s.latch.word = .ok i ∧ i ≠ .configure ∧ s.validate i = .ok))

/-- Derived (R46, R242): ERR, SIZE_WARN, OVERRUN and ACCESS_ERR are cleared only by a host write of 1 to their STATUS bit or by
RST, and CONFIGURED only by RST. Which step comes next stands in the model's list of events (DESIGN CHOICE, assumption log 3). -/
def Obligations.StickyBitsStayUntilCleared : Prop :=
  ∀ s t : State, step s = .next t → (∀ rest, s.pending ≠ .rst :: rest) →
    (s.configured = true → t.configured = true) ∧
    (∀ (b : Nat) (flag : State → Bool),
      (b, flag) ∈ [(2, State.err), (3, State.sizeWarn), (4, State.overrun), (5, State.accessErr)] →
      flag s = true → flag t = false →
      ∃ v rest, s.pending = .host (.write (s.cfg.base + 0x010) .w32 v) :: rest ∧ v.getLsbD b = true)
end

