-- ==== Sys2Proof/Laws/Memory.lean ====
section
/-! SUPPORT. The laws of the sample memories: read after write for bytes, words, components and entries, and the canonical
form every memory operation keeps. -/

namespace Sys2Proof.Machine

/-! ### Bytes -/

@[simp] theorem readByte_nil (a : Nat) : Memory.readByte [] a = none := rfl

@[simp] theorem readByte_writeByte_self (m : Memory) (a : Nat) (b : Byte) :
    (m.writeByte a b).readByte a = some b := by
  induction m with
  | nil => simp [Memory.writeByte, Memory.readByte]
  | cons c m ih =>
    simp only [Memory.writeByte]
    split
    · simp [Memory.readByte]
    · split
      · simp [Memory.readByte]
      · have : c.1 ≠ a := by omega
        simp [Memory.readByte, this, ih]

theorem readByte_writeByte_ne (m : Memory) {a x : Nat} (b : Byte) (h : x ≠ a) :
    (m.writeByte a b).readByte x = m.readByte x := by
  induction m with
  | nil => simp [Memory.writeByte, Memory.readByte, Ne.symm h]
  | cons c m ih =>
    simp only [Memory.writeByte]
    split
    · simp [Memory.readByte, Ne.symm h]
    · split
      · rename_i h1 h2
        subst h2
        simp [Memory.readByte, Ne.symm h]
      · simp [Memory.readByte, ih]

/-- Every byte the write lists was listed before, or is the byte written. -/
theorem mem_writeByte {m : Memory} {a : Nat} {b : Byte} {c : Host.Cell} (h : c ∈ m.writeByte a b) :
    c = (a, b) ∨ c ∈ m := by
  induction m with
  | nil => simpa [Memory.writeByte] using h
  | cons d m ih =>
    simp only [Memory.writeByte] at h
    split at h
    · simpa using h
    · split at h
      · simp only [List.mem_cons] at h ⊢
        tauto
      · simp only [List.mem_cons] at h ⊢
        rcases h with h | h
        · exact .inr (.inl h)
        · rcases ih h with h | h
          · exact .inl h
          · exact .inr (.inr h)

theorem writeByte_wf {m : Memory} (a : Nat) (b : Byte) (h : m.wf) : (m.writeByte a b).wf := by
  induction m with
  | nil => simp [Memory.writeByte]
  | cons d m ih =>
    have hd := List.pairwise_cons.mp h
    simp only [Memory.writeByte]
    split
    · rename_i hlt
      refine List.pairwise_cons.mpr ⟨?_, h⟩
      intro c hc
      rcases List.mem_cons.mp hc with rfl | hc
      · exact hlt
      · exact lt_trans hlt (hd.1 c hc)
    · split
      · rename_i _ heq
        refine List.pairwise_cons.mpr ⟨?_, hd.2⟩
        intro c hc
        simpa [heq] using hd.1 c hc
      · rename_i h1 h2
        refine List.pairwise_cons.mpr ⟨?_, ih hd.2⟩
        intro c hc
        rcases mem_writeByte hc with rfl | hc
        · show d.1 < a
          omega
        · exact hd.1 c hc

theorem writeByte_below {m : Memory} {a bound : Nat} (b : Byte) (h : m.below bound) (ha : a < bound) :
    (m.writeByte a b).below bound := by
  intro c hc
  rcases mem_writeByte hc with rfl | hc
  · exact ha
  · exact h c hc

/-- A byte below everything listed reads as nothing. -/
theorem readByte_eq_none_of_lt {m : Memory} {a : Nat} (h : ∀ c ∈ m, a < c.1) : m.readByte a = none := by
  induction m with
  | nil => rfl
  | cons d m ih =>
    have h1 : d.1 ≠ a := by have := h d (by simp); omega
    simp only [Memory.readByte, h1, if_false]
    exact ih (fun c hc => h c (by simp [hc]))

theorem readByte_mem {m : Memory} {a : Nat} {b : Byte} (h : m.readByte a = some b) : (a, b) ∈ m := by
  induction m with
  | nil => simp at h
  | cons d m ih =>
    simp only [Memory.readByte] at h
    split at h
    · rename_i he
      obtain rfl := he
      simp only [Option.some.injEq] at h
      simp [← h]
    · simp [ih h]

theorem readByte_eq_none_of_below {m : Memory} {a bound : Nat} (h : m.below bound) (ha : bound ≤ a) :
    m.readByte a = none := by
  cases hb : m.readByte a with
  | none => rfl
  | some b => exact absurd (h _ (readByte_mem hb)) (by simp; omega)

/-- Equal memories are equal data: two memories in canonical form that read alike are the same list. -/
theorem memory_ext {m m' : Memory} (h : m.wf) (h' : m'.wf) (he : ∀ a, m.readByte a = m'.readByte a) : m = m' := by
  induction m generalizing m' with
  | nil =>
    cases m' with
    | nil => rfl
    | cons d m' => simpa [Memory.readByte] using he d.1
  | cons d m ih =>
    have hd := List.pairwise_cons.mp h
    cases m' with
    | nil => simpa [Memory.readByte] using he d.1
    | cons d' m' =>
      have hd' := List.pairwise_cons.mp h'
      have h1 : d.1 = d'.1 := by
        rcases lt_trichotomy d.1 d'.1 with hlt | heq | hgt
        · have : Memory.readByte (d' :: m') d.1 = none := readByte_eq_none_of_lt (by
            intro c hc
            rcases List.mem_cons.mp hc with rfl | hc
            · exact hlt
            · exact lt_trans hlt (hd'.1 c hc))
          have h2 := he d.1
          rw [this] at h2
          simp [Memory.readByte] at h2
        · exact heq
        · have : Memory.readByte (d :: m) d'.1 = none := readByte_eq_none_of_lt (by
            intro c hc
            rcases List.mem_cons.mp hc with rfl | hc
            · exact hgt
            · exact lt_trans hgt (hd.1 c hc))
          have h2 := he d'.1
          rw [this] at h2
          simp [Memory.readByte] at h2
      have h2 : d.2 = d'.2 := by
        have := he d.1
        simpa [Memory.readByte, h1] using this
      have hdd : d = d' := Prod.ext h1 h2
      subst hdd
      congr 1
      refine ih hd.2 hd'.2 (fun a => ?_)
      by_cases ha : d.1 = a
      · rw [readByte_eq_none_of_lt (fun c hc => ha ▸ hd.1 c hc),
          readByte_eq_none_of_lt (fun c hc => ha ▸ hd'.1 c hc)]
      · simpa [Memory.readByte, ha] using he a

/-! ### Little-endian runs of bytes -/

theorem readByte_writeLE_of_outside (m : Memory) {a k x : Nat} (v : Nat) (h : x < a ∨ a + k ≤ x) :
    (m.writeLE a k v).readByte x = m.readByte x := by
  induction k generalizing m a v with
  | zero => rfl
  | succ k ih =>
    simp only [Memory.writeLE]
    rw [ih _ _ (by omega), readByte_writeByte_ne _ _ (by omega)]

theorem writeLE_wf {m : Memory} (a k v : Nat) (h : m.wf) : (m.writeLE a k v).wf := by
  induction k generalizing m a v with
  | zero => exact h
  | succ k ih => exact ih _ _ (writeByte_wf _ _ h)

theorem writeLE_below {m : Memory} {a k bound : Nat} (v : Nat) (h : m.below bound) (ha : a + k ≤ bound) :
    (m.writeLE a k v).below bound := by
  induction k generalizing m a v with
  | zero => exact h
  | succ k ih => exact ih _ (writeByte_below _ h (by omega)) (by omega)

theorem readLE_congr {m m' : Memory} {a k : Nat} (h : ∀ x, a ≤ x → x < a + k → m'.readByte x = m.readByte x) :
    m'.readLE a k = m.readLE a k := by
  induction k generalizing a with
  | zero => rfl
  | succ k ih =>
    simp only [Memory.readLE]
    rw [h a (by omega) (by omega), ih (fun x h1 h2 => h x (by omega) (by omega))]

theorem readLE_writeLE_self (m : Memory) (a k v : Nat) : (m.writeLE a k v).readLE a k = some (v % 256 ^ k) := by
  induction k generalizing m a v with
  | zero => simp [Memory.readLE, Nat.mod_one]
  | succ k ih =>
    simp only [Memory.readLE, Memory.writeLE]
    rw [readByte_writeLE_of_outside _ _ (by omega), readByte_writeByte_self, ih]
    simp only [BitVec.toNat_ofNat, Option.some.injEq]
    rw [show (256 : Nat) ^ (k + 1) = 256 * 256 ^ k by ring, Nat.mod_mul]

theorem readLE_writeLE_of_disjoint (m : Memory) {a k b j : Nat} (v : Nat) (h : b + j ≤ a ∨ a + k ≤ b) :
    (m.writeLE a k v).readLE b j = m.readLE b j :=
  readLE_congr (fun x _ _ => readByte_writeLE_of_outside m v (by omega))

/-- A run of bytes holds a value exactly where each of its bytes does. -/
theorem readLE_isSome {m : Memory} {a k : Nat} :
    (m.readLE a k).isSome ↔ ∀ x, a ≤ x → x < a + k → (m.readByte x).isSome := by
  induction k generalizing a with
  | zero => simp [Memory.readLE]; intro x h1 h2; omega
  | succ k ih =>
    simp only [Memory.readLE]
    constructor
    · intro h x h1 h2
      cases hb : m.readByte a with
      | none => simp [hb] at h
      | some b =>
        cases hr : m.readLE (a + 1) k with
        | none => simp [hb, hr] at h
        | some r =>
          by_cases hx : x = a
          · simp [hx, hb]
          · exact (ih (a := a + 1)).mp (by simp [hr]) x (by omega) (by omega)
    · intro h
      have h1 := Option.isSome_iff_exists.mp (h a (by omega) (by omega))
      have h2 := Option.isSome_iff_exists.mp ((ih (a := a + 1)).mpr (fun x hx1 hx2 => h x (by omega) (by omega)))
      obtain ⟨b, hb⟩ := h1
      obtain ⟨r, hr⟩ := h2
      simp [hb, hr]

/-- The first byte of a run and the rest of it. -/
theorem readLE_succ {m : Memory} {a k v : Nat} (h : m.readLE a (k + 1) = some v) :
    ∃ b r, m.readByte a = some b ∧ m.readLE (a + 1) k = some r ∧ v = b.toNat + 256 * r := by
  simp only [Memory.readLE] at h
  cases hb : m.readByte a with
  | none => simp [hb] at h
  | some b =>
    cases hr : m.readLE (a + 1) k with
    | none => simp [hb, hr] at h
    | some r =>
      simp only [hb, hr, Option.some.injEq] at h
      exact ⟨b, r, rfl, rfl, h.symm⟩

theorem readLE_lt {m : Memory} {a k v : Nat} (h : m.readLE a k = some v) : v < 256 ^ k := by
  induction k generalizing a v with
  | zero => simp [Memory.readLE] at h; omega
  | succ k ih =>
    obtain ⟨b, r, hb, hr, rfl⟩ := readLE_succ h
    have h1 := ih hr
    have h2 := b.isLt
    rw [Nat.pow_succ]
    omega

/-- Bytes that hold a value are determined by it. -/
theorem readByte_of_readLE {m m' : Memory} {a k v : Nat} (h : m.readLE a k = some v) (h' : m'.readLE a k = some v) :
    ∀ x, a ≤ x → x < a + k → m'.readByte x = m.readByte x := by
  induction k generalizing a v with
  | zero => intro x h1 h2; omega
  | succ k ih =>
    intro x h1 h2
    obtain ⟨b, r, hb, hr, e0⟩ := readLE_succ h
    obtain ⟨b', r', hb', hr', e0'⟩ := readLE_succ h'
    have l1 := b.isLt
    have l2 := b'.isLt
    have e1 : b'.toNat = b.toNat := by omega
    have e2 : r' = r := by omega
    have e3 : b' = b := BitVec.eq_of_toNat_eq e1
    by_cases hx : x = a
    · subst hx; rw [hb, hb', e3]
    · exact ih hr (e2 ▸ hr') x (by omega) (by omega)

/-! ### Words -/

theorem readWord_writeWord_self (m : Memory) (a : Nat) (v : Word) : (m.writeWord a v).readWord a = some v := by
  simp only [Memory.readWord, Memory.writeWord, readLE_writeLE_self, Option.map_some, Option.some.injEq]
  apply BitVec.eq_of_toNat_eq
  have := v.isLt
  rw [BitVec.toNat_ofNat, show (256 : Nat) ^ 4 = 2 ^ 32 by norm_num, Nat.mod_mod, Nat.mod_eq_of_lt this]

theorem writeWord_wf {m : Memory} (a : Nat) (v : Word) (h : m.wf) : (m.writeWord a v).wf := writeLE_wf _ _ _ h

theorem writeWord_below {m : Memory} {a bound : Nat} (v : Word) (h : m.below bound) (ha : a + 4 ≤ bound) :
    (m.writeWord a v).below bound := writeLE_below _ h ha

theorem readByte_writeWord_of_outside (m : Memory) {a x : Nat} (v : Word) (h : x < a ∨ a + 4 ≤ x) :
    (m.writeWord a v).readByte x = m.readByte x := readByte_writeLE_of_outside m _ h

/-! ### Components and entries -/

theorem pow_compBytes (f : SampleFmt) : 256 ^ f.compBytes = 2 ^ f.width := by cases f <;> norm_num [SampleFmt.compBytes, SampleFmt.width]

theorem entryBytes_pos (f : SampleFmt) : 0 < f.entryBytes := by cases f <;> decide

theorem imOffset_eq (f : SampleFmt) (e : Nat) : imOffset f e = entryOffset f e + f.compBytes := rfl

theorem entryOffset_succ (f : SampleFmt) (e : Nat) : entryOffset f (e + 1) = entryOffset f e + 2 * f.compBytes := by
  simp [entryOffset, SampleFmt.entryBytes, Nat.add_mul]

/-- Entries lie one after another. -/
theorem entryOffset_le {f : SampleFmt} {e e' : Nat} (h : e < e') :
    entryOffset f e + 2 * f.compBytes ≤ entryOffset f e' := by
  rw [← entryOffset_succ]
  exact Nat.mul_le_mul_right _ h

theorem entryOffset_mono {f : SampleFmt} {e e' : Nat} (h : e ≤ e') : entryOffset f e ≤ entryOffset f e' :=
  Nat.mul_le_mul_right _ h

theorem readComp_writeComp_self (f : SampleFmt) (m : Memory) (a : Nat) (x : Comp f) :
    (m.writeComp f a x).readComp f a = some x := by
  simp only [Memory.readComp, Memory.writeComp, readLE_writeLE_self, Option.map_some, Option.some.injEq]
  apply BitVec.eq_of_toNat_eq
  rw [BitVec.toNat_ofNat, pow_compBytes, Nat.mod_mod, Nat.mod_eq_of_lt x.isLt]

theorem readComp_writeComp_of_disjoint {f : SampleFmt} (m : Memory) {a b : Nat} (x : Comp f)
    (h : b + f.compBytes ≤ a ∨ a + f.compBytes ≤ b) : (m.writeComp f a x).readComp f b = m.readComp f b := by
  simp only [Memory.readComp, Memory.writeComp, readLE_writeLE_of_disjoint m x.toNat h]

@[simp] theorem readRe_writeEntry_self (f : SampleFmt) (m : Memory) (e : Nat) (v : Entry f) :
    (m.writeEntry f e v).readRe f e = some v.re := by
  simp only [Memory.readRe, Memory.writeEntry]
  rw [readComp_writeComp_of_disjoint _ _ (by rw [imOffset_eq]; omega), readComp_writeComp_self]

@[simp] theorem readIm_writeEntry_self (f : SampleFmt) (m : Memory) (e : Nat) (v : Entry f) :
    (m.writeEntry f e v).readIm f e = some v.im := by
  simp only [Memory.readIm, Memory.writeEntry, readComp_writeComp_self]

@[simp] theorem readEntry_writeEntry_self (f : SampleFmt) (m : Memory) (e : Nat) (v : Entry f) :
    (m.writeEntry f e v).readEntry f e = some v := by
  simp [Memory.readEntry]

theorem readRe_writeEntry_ne {f : SampleFmt} (m : Memory) {e e' : Nat} (v : Entry f) (h : e' ≠ e) :
    (m.writeEntry f e v).readRe f e' = m.readRe f e' := by
  simp only [Memory.readRe, Memory.writeEntry]
  rcases Nat.lt_or_gt_of_ne h with h | h
  · have := entryOffset_le (f := f) h
    rw [readComp_writeComp_of_disjoint _ _ (by rw [imOffset_eq]; omega),
      readComp_writeComp_of_disjoint _ _ (by omega)]
  · have := entryOffset_le (f := f) h
    rw [readComp_writeComp_of_disjoint _ _ (by rw [imOffset_eq]; omega),
      readComp_writeComp_of_disjoint _ _ (by omega)]

theorem readIm_writeEntry_ne {f : SampleFmt} (m : Memory) {e e' : Nat} (v : Entry f) (h : e' ≠ e) :
    (m.writeEntry f e v).readIm f e' = m.readIm f e' := by
  simp only [Memory.readIm, Memory.writeEntry]
  rcases Nat.lt_or_gt_of_ne h with h | h
  · have := entryOffset_le (f := f) h
    rw [readComp_writeComp_of_disjoint _ _ (by rw [imOffset_eq, imOffset_eq]; omega),
      readComp_writeComp_of_disjoint _ _ (by rw [imOffset_eq]; omega)]
  · have := entryOffset_le (f := f) h
    rw [readComp_writeComp_of_disjoint _ _ (by rw [imOffset_eq, imOffset_eq]; omega),
      readComp_writeComp_of_disjoint _ _ (by rw [imOffset_eq]; omega)]

theorem readEntry_writeEntry_ne {f : SampleFmt} (m : Memory) {e e' : Nat} (v : Entry f) (h : e' ≠ e) :
    (m.writeEntry f e v).readEntry f e' = m.readEntry f e' := by
  simp only [Memory.readEntry, readRe_writeEntry_ne m v h, readIm_writeEntry_ne m v h]

/-- A write of entry `e` leaves every byte outside its bytes. -/
theorem readByte_writeEntry_of_outside {f : SampleFmt} (m : Memory) {e x : Nat} (v : Entry f)
    (h : x < entryOffset f e ∨ entryOffset f (e + 1) ≤ x) : (m.writeEntry f e v).readByte x = m.readByte x := by
  rw [entryOffset_succ] at h
  simp only [Memory.writeEntry, Memory.writeComp]
  rw [readByte_writeLE_of_outside _ _ (by rw [imOffset_eq]; omega), readByte_writeLE_of_outside _ _ (by omega)]

/-- After a write of entry `e` every byte of it holds a value. -/
theorem readByte_writeEntry_isSome {f : SampleFmt} (m : Memory) {e x : Nat} (v : Entry f)
    (h1 : entryOffset f e ≤ x) (h2 : x < entryOffset f (e + 1)) : ((m.writeEntry f e v).readByte x).isSome := by
  rw [entryOffset_succ] at h2
  rcases Nat.lt_or_ge x (imOffset f e) with h | h
  · have hs : ((m.writeEntry f e v).readLE (entryOffset f e) f.compBytes).isSome := by
      have := readRe_writeEntry_self f m e v
      simp only [Memory.readRe, Memory.readComp] at this
      cases hr : Memory.readLE (m.writeEntry f e v) (entryOffset f e) f.compBytes with
      | none => simp [hr] at this
      | some _ => rfl
    exact readLE_isSome.mp hs x h1 (by rw [imOffset_eq] at h; omega)
  · have hs : ((m.writeEntry f e v).readLE (imOffset f e) f.compBytes).isSome := by
      have := readIm_writeEntry_self f m e v
      simp only [Memory.readIm, Memory.readComp] at this
      cases hr : Memory.readLE (m.writeEntry f e v) (imOffset f e) f.compBytes with
      | none => simp [hr] at this
      | some _ => rfl
    exact readLE_isSome.mp hs x h (by rw [imOffset_eq] at h ⊢; omega)

theorem writeEntry_wf {f : SampleFmt} {m : Memory} (e : Nat) (v : Entry f) (h : m.wf) : (m.writeEntry f e v).wf :=
  writeLE_wf _ _ _ (writeLE_wf _ _ _ h)

theorem writeEntry_below {f : SampleFmt} {m : Memory} {e n : Nat} (v : Entry f) (h : m.below (entryOffset f n))
    (he : e < n) : (m.writeEntry f e v).below (entryOffset f n) := by
  have := entryOffset_le (f := f) he
  exact writeLE_below _ (writeLE_below _ h (by omega)) (by rw [imOffset_eq]; omega)

/-- The two components of an entry that holds a value. -/
theorem readEntry_eq_some {f : SampleFmt} {m : Memory} {e : Nat} {v : Entry f} :
    m.readEntry f e = some v ↔ m.readRe f e = some v.re ∧ m.readIm f e = some v.im := by
  cases v with
  | mk x y =>
    simp only [Memory.readEntry]
    cases h1 : m.readRe f e <;> cases h2 : m.readIm f e <;> simp

/-- Memories that read alike below an entry's end have the same entry. -/
theorem readEntry_congr {f : SampleFmt} {m m' : Memory} {e : Nat}
    (h : ∀ x, entryOffset f e ≤ x → x < entryOffset f (e + 1) → m'.readByte x = m.readByte x) :
    m'.readEntry f e = m.readEntry f e := by
  have hs := entryOffset_succ f e
  simp only [Memory.readEntry, Memory.readRe, Memory.readIm, Memory.readComp]
  rw [readLE_congr (m := m) (m' := m') (a := entryOffset f e) (fun x h1 h2 => h x h1 (by omega)),
    readLE_congr (m := m) (m' := m') (a := imOffset f e) (fun x h1 h2 => by rw [imOffset_eq] at h1 h2; exact h x (by omega) (by omega))]

/-! ### A command's reads -/

theorem useEntry_eq_ok {f : SampleFmt} {k : MemName} {m : Memory} {e : Nat} {v : Entry f} :
    useEntry f k m e = .ok v ↔ m.readEntry f e = some v := by
  simp only [useEntry]
  cases m.readEntry f e <;> simp

theorem useRe_eq_ok {f : SampleFmt} {k : MemName} {m : Memory} {e : Nat} {x : Comp f} :
    useRe f k m e = .ok x ↔ m.readRe f e = some x := by
  simp only [useRe]
  cases m.readRe f e <;> simp

end Sys2Proof.Machine
end

