-- ==== Sys2Proof/Laws/Loop.lean ====
section
/-! SUPPORT. The ascending loop: its induction packaged once, for a loop that must answer and for one that did. -/

namespace Sys2Proof.Machine

@[simp] theorem forUpTo_zero {α : Type} (body : Nat → α → Except Fault α) (x : α) : forUpTo 0 body x = .ok x := rfl

theorem forUpTo_succ {α : Type} (n : Nat) (body : Nat → α → Except Fault α) (x : α) :
    forUpTo (n + 1) body x = (forUpTo n body x).bind (body n) := rfl

/-- A loop whose every body answers from what holds before it answers, and what it establishes holds. -/
theorem forUpTo_total {α : Type} {n : Nat} {body : Nat → α → Except Fault α} {x : α} (P : Nat → α → Prop)
    (h0 : P 0 x) (hs : ∀ i y, i < n → P i y → ∃ z, body i y = .ok z ∧ P (i + 1) z) :
    ∃ z, forUpTo n body x = .ok z ∧ P n z := by
  induction n with
  | zero => exact ⟨x, rfl, h0⟩
  | succ n ih =>
    obtain ⟨y, hy, hp⟩ := ih (fun i y hi => hs i y (by omega))
    obtain ⟨z, hz, hq⟩ := hs n y (by omega) hp
    exact ⟨z, by simp only [forUpTo_succ, hy, Except.bind, hz], hq⟩

/-- What each body keeps, a loop that answers keeps. -/
theorem forUpTo_inv {α : Type} {n : Nat} {body : Nat → α → Except Fault α} {x z : α} (P : Nat → α → Prop)
    (h : forUpTo n body x = .ok z) (h0 : P 0 x)
    (hs : ∀ i y y', i < n → P i y → body i y = .ok y' → P (i + 1) y') : P n z := by
  induction n generalizing z with
  | zero =>
    simp only [forUpTo_zero, Except.ok.injEq] at h
    exact h ▸ h0
  | succ n ih =>
    rw [forUpTo_succ] at h
    cases hy : forUpTo n body x with
    | error e => simp [hy, Except.bind] at h
    | ok y =>
      simp only [hy, Except.bind] at h
      exact hs n y z (by omega) (ih hy (fun i y y' hi => hs i y y' (by omega))) h

/-- Loops with the same bodies are the same. -/
theorem forUpTo_congr {α : Type} {n : Nat} {body body' : Nat → α → Except Fault α} (x : α)
    (h : ∀ i y, i < n → body i y = body' i y) : forUpTo n body x = forUpTo n body' x := by
  induction n with
  | zero => rfl
  | succ n ih =>
    simp only [forUpTo_succ]
    rw [ih (fun i y hi => h i y (by omega))]
    cases forUpTo n body' x with
    | error e => rfl
    | ok y => exact h n y (by omega)

/-- `Except.map` answers exactly when its argument does. -/
theorem map_eq_ok {α β : Type} {e : Except Fault α} {g : α → β} {y : β} :
    e.map g = .ok y ↔ ∃ x, e = .ok x ∧ y = g x := by
  cases e <;> simp [Except.map, eq_comm]

/-- `Except.bind` answers exactly when both parts do. -/
theorem bind_eq_ok {α β : Type} {e : Except Fault α} {g : α → Except Fault β} {y : β} :
    e.bind g = .ok y ↔ ∃ x, e = .ok x ∧ g x = .ok y := by
  cases e <;> simp [Except.bind]

/-! ### What a run of entry writes can do -/

/-- Everything a command's writes below entry `n` can do to a memory: the canonical form and the bound are kept, every byte
from entry `n` on is left, and no byte loses its value. -/
structure WritesBelow (f : SampleFmt) (n : Nat) (m m' : Memory) : Prop where
  wf : m.wf → m'.wf
  below : ∀ k, n ≤ k → m.below (entryOffset f k) → m'.below (entryOffset f k)
  outside : ∀ a, entryOffset f n ≤ a → m'.readByte a = m.readByte a
  holds : ∀ a, (m.readByte a).isSome → (m'.readByte a).isSome

theorem WritesBelow.refl (f : SampleFmt) (n : Nat) (m : Memory) : WritesBelow f n m m :=
  ⟨id, fun _ _ h => h, fun _ _ => rfl, fun _ h => h⟩

theorem WritesBelow.trans {f : SampleFmt} {n : Nat} {m m' m'' : Memory} (h : WritesBelow f n m m')
    (h' : WritesBelow f n m' m'') : WritesBelow f n m m'' :=
  ⟨fun w => h'.wf (h.wf w), fun k hk b => h'.below k hk (h.below k hk b),
    fun a ha => (h'.outside a ha).trans (h.outside a ha), fun a ha => h'.holds a (h.holds a ha)⟩

theorem WritesBelow.mono {f : SampleFmt} {n n' : Nat} {m m' : Memory} (h : WritesBelow f n m m') (hn : n ≤ n') :
    WritesBelow f n' m m' :=
  ⟨h.wf, fun k hk => h.below k (by omega), fun a ha => h.outside a (le_trans (entryOffset_mono hn) ha), h.holds⟩

theorem writesBelow_writeEntry {f : SampleFmt} {n e : Nat} (m : Memory) (v : Entry f) (h : e < n) :
    WritesBelow f n m (m.writeEntry f e v) where
  wf := writeEntry_wf e v
  below := fun _ hk hb => writeEntry_below v hb (by omega)
  outside := fun a ha => readByte_writeEntry_of_outside m v
    (.inr (le_trans (entryOffset_mono (show e + 1 ≤ n from h)) ha))
  holds := fun a ha => by
    by_cases h1 : entryOffset f e ≤ a ∧ a < entryOffset f (e + 1)
    · exact readByte_writeEntry_isSome m v h1.1 h1.2
    · rw [readByte_writeEntry_of_outside m v (by omega)]
      exact ha

/-- A loop each body of which writes below entry `n` writes below entry `n`. -/
theorem writesBelow_forUpTo {f : SampleFmt} {n k : Nat} {body : Nat → Memory → Except Fault Memory} {m m' : Memory}
    (h : forUpTo k body m = .ok m')
    (hs : ∀ i y y', i < k → body i y = .ok y' → WritesBelow f n y y') : WritesBelow f n m m' :=
  forUpTo_inv (fun _ y => WritesBelow f n m y) h (WritesBelow.refl f n m)
    (fun i y y' hi hy hb => hy.trans (hs i y y' hi hb))

end Sys2Proof.Machine
end

