-- ==== Sys2Proof/Laws/Stages.lean ====
section
/-! SUPPORT. The index primitives, and each stage of the controller: where it answers, what its loop can do to a memory. -/

namespace Sys2Proof.Machine

/-! ### Index primitives -/

@[simp] theorem rev_zero (i : Nat) : rev 0 i = 0 := rfl

theorem rev_succ (m i : Nat) : rev (m + 1) i = 2 ^ m * (i % 2) + rev m (i / 2) := rfl

/-- The reversal stays inside the array. -/
theorem rev_lt (m i : Nat) : rev m i < 2 ^ m := by
  induction m generalizing i with
  | zero => simp
  | succ m ih =>
    have h1 := ih (i / 2)
    have h2 : i % 2 = 0 ∨ i % 2 = 1 := by omega
    rw [rev_succ, Nat.pow_succ]
    rcases h2 with h | h <;> rw [h] <;> omega

/-- Entry positions of one pass lie inside the array. -/
theorem pass_position_lt {n h blk j : Nat} (hb : blk < n / (2 * h)) (hj : j < h) : blk * (2 * h) + j + h < n := by
  have h1 : (blk + 1) * (2 * h) ≤ n := le_trans (Nat.mul_le_mul_right _ hb) (Nat.div_mul_le_self n (2 * h))
  have h2 : (blk + 1) * (2 * h) = blk * (2 * h) + 2 * h := by ring
  omega

/-! ### What each loop can do to WORK or TW -/

theorem loadComplexLoop_writes {f : SampleFmt} {n count : Nat} {inp w w' : Memory}
    (h : loadComplexLoop f n count inp w = .ok w') : WritesBelow f n w w' :=
  writesBelow_forUpTo h (fun i y y' hi hb => by
    split at hb
    · obtain ⟨v, _, rfl⟩ := map_eq_ok.mp hb
      exact writesBelow_writeEntry _ _ hi
    · simp only [Except.ok.injEq] at hb
      exact hb ▸ writesBelow_writeEntry _ _ hi)

theorem loadRealLoop_writes {f : SampleFmt} {n count : Nat} {inp w w' : Memory}
    (h : loadRealLoop f n count inp w = .ok w') : WritesBelow f n w w' :=
  writesBelow_forUpTo h (fun i y y' hi hb => by
    split at hb
    · obtain ⟨v, _, rfl⟩ := map_eq_ok.mp hb
      exact writesBelow_writeEntry _ _ hi
    · simp only [Except.ok.injEq] at hb
      exact hb ▸ writesBelow_writeEntry _ _ hi)

/-- A swap answers exactly where both entries hold a value, and exchanges them. -/
theorem swapEntries_ok {f : SampleFmt} {w w' : Memory} {i r : Nat} :
    swapEntries f w i r = .ok w' ↔ ∃ a b, w.readEntry f i = some a ∧ w.readEntry f r = some b ∧
      w' = (w.writeEntry f i b).writeEntry f r a := by
  simp only [swapEntries, bind_eq_ok, map_eq_ok, useEntry_eq_ok]
  constructor
  · rintro ⟨a, ha, b, hb, rfl⟩
    exact ⟨a, b, ha, hb, rfl⟩
  · rintro ⟨a, b, ha, hb, rfl⟩
    exact ⟨a, ha, b, hb, rfl⟩

theorem bitRevLoop_writes {f : SampleFmt} {n m : Nat} {w w' : Memory} (hn : 2 ^ m ≤ n)
    (h : bitRevLoop f n m w = .ok w') : WritesBelow f n w w' :=
  writesBelow_forUpTo h (fun i y y' hi hb => by
    split at hb
    · obtain ⟨a, b, _, _, rfl⟩ := swapEntries_ok.mp hb
      exact (writesBelow_writeEntry _ _ hi).trans (writesBelow_writeEntry _ _ (lt_of_lt_of_le (rev_lt m i) hn))
    · simp only [Except.ok.injEq] at hb
      exact hb ▸ WritesBelow.refl f n y)

/-- A butterfly answers exactly where its three entries hold a value (R180). -/
theorem butterfly_ok {f : SampleFmt} {tw w w' : Memory} {p q t : Nat} :
    butterfly f tw w p q t = .ok w' ↔ ∃ a b c, w.readEntry f p = some a ∧ w.readEntry f q = some b ∧
      tw.readEntry f t = some c ∧ w' = (w.writeEntry f p (cadd a (cmul b c))).writeEntry f q (csub a (cmul b c)) := by
  simp only [butterfly, bind_eq_ok, map_eq_ok, useEntry_eq_ok]
  constructor
  · rintro ⟨a, ha, b, hb, c, hc, rfl⟩
    exact ⟨a, b, c, ha, hb, hc, rfl⟩
  · rintro ⟨a, b, c, ha, hb, hc, rfl⟩
    exact ⟨a, ha, b, hb, c, hc, rfl⟩

theorem passLoop_writes {f : SampleFmt} {tw w w' : Memory} {n off s : Nat}
    (h : passLoop f tw n off s w = .ok w') : WritesBelow f n w w' :=
  writesBelow_forUpTo h (fun blk y y' hblk hb =>
    writesBelow_forUpTo hb (fun j z z' hj hz => by
      obtain ⟨a, b, c, _, _, _, rfl⟩ := butterfly_ok.mp hz
      have hlt := pass_position_lt hblk hj
      exact (writesBelow_writeEntry _ _ (by omega)).trans (writesBelow_writeEntry _ _ hlt)))

theorem passesLoop_writes {f : SampleFmt} {tw w w' : Memory} {n m off : Nat}
    (h : passesLoop f tw n m off w = .ok w') : WritesBelow f n w w' :=
  writesBelow_forUpTo h (fun _ _ _ _ hb => passLoop_writes hb)

theorem scaleLoop_writes {f : SampleFmt} {w w' : Memory} {n : Nat}
    (h : scaleLoop f n w = .ok w') : WritesBelow f n w w' :=
  writesBelow_forUpTo h (fun i y y' hi hb => by
    obtain ⟨v, _, rfl⟩ := map_eq_ok.mp hb
    exact writesBelow_writeEntry _ _ hi)

theorem dropImagLoop_writes {f : SampleFmt} {w w' : Memory} {n : Nat}
    (h : dropImagLoop f n w = .ok w') : WritesBelow f n w w' :=
  writesBelow_forUpTo h (fun i y y' hi hb => by
    obtain ⟨v, _, rfl⟩ := map_eq_ok.mp hb
    exact writesBelow_writeEntry _ _ hi)

theorem spectrumLoop_writes {f : SampleFmt} {w w' : Memory} {n m : Nat} (hn : 0 < n)
    (h : spectrumLoop f n m w = .ok w') : WritesBelow f n w w' := by
  obtain ⟨y, hy, hz⟩ := bind_eq_ok.mp h
  refine (writesBelow_forUpTo hy (fun i y y' hi hb => ?_)).trans (writesBelow_forUpTo hz (fun i y y' hi hb => ?_))
  · obtain ⟨v, _, rfl⟩ := map_eq_ok.mp hb
    exact writesBelow_writeEntry _ _ (by omega)
  · simp only [Except.ok.injEq] at hb
    exact hb ▸ writesBelow_writeEntry _ _ (by omega)

theorem generateTwiddles_writes {f : SampleFmt} {nmax m : Nat} {tw tw' : Memory} (hm : 2 ^ m ≤ nmax)
    (h : generateTwiddles f nmax m tw = .ok tw') : WritesBelow f nmax tw tw' := by
  obtain ⟨y, hy, hz⟩ := bind_eq_ok.mp h
  refine (writesBelow_forUpTo hy (fun i y y' hi hb => ?_)).trans (writesBelow_forUpTo hz (fun i y y' hi hb => ?_))
  · simp only [Except.ok.injEq] at hb
    exact hb ▸ (writesBelow_writeEntry _ _ (by omega)).trans (writesBelow_writeEntry _ _ (by omega))
  · simp only [Except.ok.injEq] at hb
    exact hb ▸ writesBelow_writeEntry _ _ (by omega)

/-- The twiddle generator never stops: it reads nothing (R140). -/
theorem generateTwiddles_total (f : SampleFmt) (nmax m : Nat) (tw : Memory) :
    ∃ tw', generateTwiddles f nmax m tw = .ok tw' := by
  obtain ⟨y, hy, -⟩ := forUpTo_total (x := tw) (n := 2 ^ m / 2)
    (body := fun k t => .ok ((t.writeEntry f k (canon f m k)).writeEntry f (2 ^ m / 2 + k) (anti f m k)))
    (fun _ _ => True) trivial (fun _ _ _ _ => ⟨_, rfl, trivial⟩)
  obtain ⟨z, hz, -⟩ := forUpTo_total (x := y) (n := nmax - 2 * (2 ^ m / 2))
    (body := fun k t => .ok (t.writeEntry f (2 * (2 ^ m / 2) + k) (zeroEntry f)))
    (fun _ _ => True) trivial (fun _ _ _ _ => ⟨_, rfl, trivial⟩)
  exact ⟨z, bind_eq_ok.mpr ⟨y, hy, hz⟩⟩

/-! ### Where each stage answers, and with what -/

theorem loadC_ok {s t : State} : loadC s = .ok t ↔
    ∃ w, loadComplexLoop s.cfg.fmt s.n s.loadCount s.inMem s.workMem = .ok w ∧
      t = ((s.withWork w).warnIf (decide (s.n < s.lin))).withOutLen s.n := map_eq_ok

theorem loadR_ok {s t : State} : loadR s = .ok t ↔
    ∃ w, loadRealLoop s.cfg.fmt s.n s.loadCount s.inMem s.workMem = .ok w ∧
      t = ((s.withWork w).warnIf (decide (s.n < s.lin))).withOutLen s.n := map_eq_ok

theorem bitRev_ok {s t : State} : bitRev s = .ok t ↔
    ∃ w, bitRevLoop s.cfg.fmt s.n s.log2n s.workMem = .ok w ∧ t = (s.withWork w).withOutLen s.n := map_eq_ok

theorem passes_ok {off : Nat} {s t : State} : passes off s = .ok t ↔
    ∃ w, passesLoop s.cfg.fmt s.twMem s.n s.log2n off s.workMem = .ok w ∧ t = (s.withWork w).withOutLen s.n := map_eq_ok

theorem scale_ok {s t : State} : scale s = .ok t ↔
    ∃ w, scaleLoop s.cfg.fmt s.n s.workMem = .ok w ∧ t = (s.withWork w).withOutLen s.n := map_eq_ok

theorem spectrum_ok {s t : State} : spectrum s = .ok t ↔
    ∃ w, spectrumLoop s.cfg.fmt s.n s.log2n s.workMem = .ok w ∧ t = (s.withWork w).withOutLen (s.n / 2 + 1) := map_eq_ok

theorem dropImag_ok {s t : State} : dropImag s = .ok t ↔
    ∃ w, dropImagLoop s.cfg.fmt s.n s.workMem = .ok w ∧ t = (s.withWork w).withOutLen s.n := map_eq_ok

theorem configureEffect_ok {s t : State} : configureEffect s = .ok t ↔
    ∃ tw, generateTwiddles s.cfg.fmt s.cfg.nmax (ceilLog2 s.reqLen.toNat) s.twMem = .ok tw ∧
      t = { s with
        twMem := tw
        n := 2 ^ ceilLog2 s.reqLen.toNat
        log2n := ceilLog2 s.reqLen.toNat
        configured := true
        outLen := 0 } := map_eq_ok

/-- All a stage of a transform can do: it writes WORK below entry N, and it may set OUT_LEN and SIZE_WARN. -/
structure StageStep (s t : State) : Prop where
  writes : WritesBelow s.cfg.fmt s.n s.workMem t.workMem
  rest : t = { s with workMem := t.workMem, outLen := t.outLen, sizeWarn := t.sizeWarn }

theorem StageStep.trans {s t u : State} (h : StageStep s t) (h' : StageStep t u) : StageStep s u where
  writes := by
    have h1 : t.cfg = s.cfg := by rw [h.rest]
    have h2 : t.n = s.n := by rw [h.rest]
    exact h.writes.trans (h1 ▸ h2 ▸ h'.writes)
  rest := by
    have h1 := h'.rest
    rw [h.rest] at h1
    exact h1

theorem loadC_step {s t : State} (h : loadC s = .ok t) : StageStep s t := by
  obtain ⟨w, hw, rfl⟩ := loadC_ok.mp h
  exact ⟨loadComplexLoop_writes hw, rfl⟩

theorem loadR_step {s t : State} (h : loadR s = .ok t) : StageStep s t := by
  obtain ⟨w, hw, rfl⟩ := loadR_ok.mp h
  exact ⟨loadRealLoop_writes hw, rfl⟩

theorem bitRev_step {s t : State} (hn : 2 ^ s.log2n ≤ s.n) (h : bitRev s = .ok t) : StageStep s t := by
  obtain ⟨w, hw, rfl⟩ := bitRev_ok.mp h
  exact ⟨bitRevLoop_writes hn hw, rfl⟩

theorem passes_step {off : Nat} {s t : State} (h : passes off s = .ok t) : StageStep s t := by
  obtain ⟨w, hw, rfl⟩ := passes_ok.mp h
  exact ⟨passesLoop_writes hw, rfl⟩

theorem scale_step {s t : State} (h : scale s = .ok t) : StageStep s t := by
  obtain ⟨w, hw, rfl⟩ := scale_ok.mp h
  exact ⟨scaleLoop_writes hw, rfl⟩

theorem spectrum_step {s t : State} (hn : 0 < s.n) (h : spectrum s = .ok t) : StageStep s t := by
  obtain ⟨w, hw, rfl⟩ := spectrum_ok.mp h
  exact ⟨spectrumLoop_writes hn hw, rfl⟩

theorem dropImag_step {s t : State} (h : dropImag s = .ok t) : StageStep s t := by
  obtain ⟨w, hw, rfl⟩ := dropImag_ok.mp h
  exact ⟨dropImagLoop_writes hw, rfl⟩

end Sys2Proof.Machine
end

