-- ==== Sys2Proof/Laws/Exec.lean ====
section
/-! SUPPORT. Every command is one completion: its validation, its effect, the bookkeeping. The cases a completion and a step
can end in, said once. -/

namespace Sys2Proof.Machine

/-- `Execute` of each command (60_exceptions.md R236). -/
def effectOf : Instr → State → Except Fault State
  | .configure => configureEffect
  | .forward => forwardEffect
  | .inverse => inverseEffect
  | .realForward => realForwardEffect
  | .realSpectrum => realSpectrumEffect
  | .inverseReal => inverseRealEffect
  | .loadComplex => loadC
  | .loadReal => loadR
  | .bitrev => bitRev
  | .butterflyFwd => passesFwd
  | .butterflyInv => passesInv
  | .scaleInv => scale

/-- Each command's meaning is the completion with its validation and its effect. -/
theorem exec_eq_complete (i : Instr) (s : State) : exec i s = complete (s.validate i) (effectOf i) s := by
  cases i <;> rfl

/-- A completion that failed validation answers with the error state. -/
theorem complete_of_error {e : ErrCode} (he : e ≠ .ok) (effect : State → Except Fault State) (s : State) :
    complete e effect s = .next (s.raiseCmdError e) := by
  cases e <;> first | rfl | exact absurd rfl he

/-- A completion that passed validation answers as its effect does. -/
theorem complete_ok_eq (effect : State → Except Fault State) (s : State) :
    complete .ok effect s = match effect s with
      | .ok t => .next (t.finish .ok)
      | .error r => .fault r := rfl

/-- The two ways a completion answers a next state. -/
theorem complete_next_cases {e : ErrCode} {effect : State → Except Fault State} {s t : State}
    (h : complete e effect s = .next t) :
    (e = .ok ∧ ∃ u, effect s = .ok u ∧ t = u.finish .ok) ∨ (e ≠ .ok ∧ t = s.raiseCmdError e) := by
  by_cases he : e = .ok
  · subst he
    refine .inl ⟨rfl, ?_⟩
    rw [complete_ok_eq] at h
    cases hu : effect s with
    | ok u =>
      simp only [hu, Host.Outcome.next.injEq] at h
      exact ⟨u, rfl, h.symm⟩
    | error r => simp [hu] at h
  · rw [complete_of_error he, Host.Outcome.next.injEq] at h
    exact .inr ⟨he, h.symm⟩

/-- The two ways a command answers a next state. -/
theorem exec_next_cases {i : Instr} {s t : State} (h : exec i s = .next t) :
    (s.validate i = .ok ∧ ∃ u, effectOf i s = .ok u ∧ t = u.finish .ok) ∨
      (s.validate i ≠ .ok ∧ t = s.raiseCmdError (s.validate i)) := by
  rw [exec_eq_complete] at h
  exact complete_next_cases h

/-- A command that passed validation and whose effect answers completes. -/
theorem exec_next_of_effect {i : Instr} {s u : State} (hv : s.validate i = .ok) (hu : effectOf i s = .ok u) :
    exec i s = .next (u.finish .ok) := by
  rw [exec_eq_complete, hv, complete_ok_eq, hu]

/-- No command is refused. -/
theorem exec_not_refused (i : Instr) (s : State) (r : Refusal) : exec i s ≠ .refused r := by
  rw [exec_eq_complete]
  by_cases he : s.validate i = .ok
  · rw [he, complete_ok_eq]
    cases effectOf i s <;> simp
  · rw [complete_of_error he]
    simp

/-- All a transform or primitive command's effect can do, over a length that is a power of two. -/
theorem effectOf_step {i : Instr} (hi : i ≠ .configure) {s t : State} (hn : s.n = 2 ^ s.log2n)
    (h : effectOf i s = .ok t) : StageStep s t := by
  have hpos : 0 < s.n := hn ▸ Nat.two_pow_pos _
  have keep : ∀ {u : State}, StageStep s u → 2 ^ u.log2n ≤ u.n ∧ 0 < u.n := by
    intro u hu
    have h1 : u.log2n = s.log2n := by rw [hu.rest]
    have h2 : u.n = s.n := by rw [hu.rest]
    rw [h1, h2]
    exact ⟨hn.ge, hpos⟩
  have load : ∀ {u : State}, (loadC s).bind bitRev = .ok u → StageStep s u := by
    intro u hu
    obtain ⟨v, hv, hw⟩ := bind_eq_ok.mp hu
    exact (loadC_step hv).trans (bitRev_step (keep (loadC_step hv)).1 hw)
  have inverse : ∀ {u : State}, inverseEffect s = .ok u → StageStep s u := by
    intro u hu
    obtain ⟨v, hv, hw⟩ := bind_eq_ok.mp hu
    obtain ⟨x, hx, hy⟩ := bind_eq_ok.mp hv
    exact ((load hx).trans (passes_step hy)).trans (scale_step hw)
  have realForward : ∀ {u : State}, realForwardEffect s = .ok u → StageStep s u := by
    intro u hu
    obtain ⟨v, hv, hw⟩ := bind_eq_ok.mp hu
    obtain ⟨x, hx, hy⟩ := bind_eq_ok.mp hv
    exact ((loadR_step hx).trans (bitRev_step (keep (loadR_step hx)).1 hy)).trans (passes_step hw)
  cases i with
  | configure => exact absurd rfl hi
  | forward =>
    obtain ⟨v, hv, hw⟩ := bind_eq_ok.mp h
    exact (load hv).trans (passes_step hw)
  | inverse => exact inverse h
  | realForward => exact realForward h
  | realSpectrum =>
    obtain ⟨v, hv, hw⟩ := bind_eq_ok.mp h
    exact (realForward hv).trans (spectrum_step (keep (realForward hv)).2 hw)
  | inverseReal =>
    obtain ⟨v, hv, hw⟩ := bind_eq_ok.mp h
    exact (inverse hv).trans (dropImag_step hw)
  | loadComplex => exact loadC_step h
  | loadReal => exact loadR_step h
  | bitrev => exact bitRev_step (by omega) h
  | butterflyFwd => exact passes_step h
  | butterflyInv => exact passes_step h
  | scaleInv => exact scale_step h

/-- The ways the completion step ends in a next state: a command's meaning, or the illegal-command error. -/
theorem completionStep_next_cases {s t : State} (h : completionStep s = .next t) :
    (∃ i, decodeWord s.latch.word = .ok i ∧ exec i s = .next t) ∨
      ((∀ i, decodeWord s.latch.word ≠ .ok i) ∧ t = s.raiseCmdError .illegalCommand) := by
  unfold completionStep at h
  cases hd : decodeWord s.latch.word with
  | ok i =>
    simp only [hd] at h
    exact .inl ⟨i, rfl, h⟩
  | error r =>
    simp only [hd, Host.Outcome.next.injEq] at h
    exact .inr ⟨by simp, h.symm⟩

/-- The ways the controller's turn ends in a next state. -/
theorem controllerTurn_next_cases {s t : State} (h : controllerTurn s = .next t) :
    (s.busy = true ∧ completionStep s = .next t) ∨ (s.busy = false ∧ t = s) := by
  unfold controllerTurn at h
  split at h
  · rename_i hb
    exact .inl ⟨hb, h⟩
  · rename_i hb
    simp only [Host.Outcome.next.injEq] at h
    exact .inr ⟨by simpa using hb, h.symm⟩

end Sys2Proof.Machine
end

