-- ==== Sys2Proof/Laws/Fp.lean ====
section
/-! SUPPORT. The parts of a component's pattern, and what each helper of the arithmetic answers. -/

namespace Sys2Proof.Machine

theorem width_pos (f : SampleFmt) : 0 < f.width := by cases f <;> decide

theorem two_pow_width (f : SampleFmt) : 2 ^ f.width = 2 ^ (f.width - 1) + 2 ^ (f.width - 1) := by
  cases f <;> norm_num [SampleFmt.width]

theorem infMag_lt (f : SampleFmt) : infMag f < 2 ^ (f.width - 1) := by
  cases f <;> norm_num [infMag, SampleFmt.width, SampleFmt.expBits, SampleFmt.fracBits]

theorem infMag_pos (f : SampleFmt) : 0 < infMag f := by
  cases f <;> norm_num [infMag, SampleFmt.expBits, SampleFmt.fracBits]

theorem canonNaN_mag_lt (f : SampleFmt) : infMag f + 2 ^ (f.fracBits - 1) < 2 ^ (f.width - 1) := by
  cases f <;> norm_num [infMag, SampleFmt.width, SampleFmt.expBits, SampleFmt.fracBits]

theorem magOf_lt {f : SampleFmt} (x : Comp f) : magOf x < 2 ^ (f.width - 1) := Nat.mod_lt _ (Nat.two_pow_pos _)

theorem toNat_packComp {f : SampleFmt} {neg : Bool} {mag : Nat} (h : mag < 2 ^ (f.width - 1)) :
    (packComp f neg mag).toNat = (if neg then 2 ^ (f.width - 1) else 0) + mag := by
  have hw := two_pow_width f
  rw [packComp, BitVec.toNat_ofNat]
  apply Nat.mod_eq_of_lt
  cases neg <;> simp <;> omega

theorem magOf_packComp {f : SampleFmt} (neg : Bool) {mag : Nat} (h : mag < 2 ^ (f.width - 1)) :
    magOf (packComp f neg mag) = mag := by
  rw [magOf, toNat_packComp h]
  cases neg
  · simp [Nat.mod_eq_of_lt h]
  · simp [Nat.mod_eq_of_lt h]

theorem signOf_eq {f : SampleFmt} (x : Comp f) : signOf x = decide (2 ^ (f.width - 1) ≤ x.toNat) := by
  rw [signOf, BitVec.msb_eq_decide]

theorem signOf_packComp {f : SampleFmt} (neg : Bool) {mag : Nat} (h : mag < 2 ^ (f.width - 1)) :
    signOf (packComp f neg mag) = neg := by
  rw [signOf_eq, toNat_packComp h]
  cases neg <;> simp [h]

/-- A component is its sign and its magnitude pattern. -/
theorem packComp_signOf_magOf {f : SampleFmt} (x : Comp f) : packComp f (signOf x) (magOf x) = x := by
  apply BitVec.eq_of_toNat_eq
  rw [toNat_packComp (magOf_lt x), signOf_eq, magOf]
  have hx := x.isLt
  rw [two_pow_width] at hx
  by_cases h : 2 ^ (f.width - 1) ≤ x.toNat
  · rw [Nat.mod_eq_sub_mod h, Nat.mod_eq_of_lt (by omega)]
    simp only [h, decide_true, if_true]
    omega
  · rw [Nat.mod_eq_of_lt (by omega)]
    simp [h]

/-- Components of the same sign and magnitude pattern are the same. -/
theorem comp_ext {f : SampleFmt} {x y : Comp f} (hs : signOf x = signOf y) (hm : magOf x = magOf y) : x = y := by
  rw [← packComp_signOf_magOf x, ← packComp_signOf_magOf y, hs, hm]

theorem roundMag_le (f : SampleFmt) (num den : Nat) : roundMag f num den ≤ infMag f := Nat.min_le_right _ _

theorem magOf_roundComp (f : SampleFmt) (neg : Bool) (num den : Nat) :
    magOf (roundComp f neg num den) = roundMag f num den :=
  magOf_packComp neg (lt_of_le_of_lt (roundMag_le f num den) (infMag_lt f))

theorem signOf_roundComp (f : SampleFmt) (neg : Bool) (num den : Nat) : signOf (roundComp f neg num den) = neg :=
  signOf_packComp neg (lt_of_le_of_lt (roundMag_le f num den) (infMag_lt f))

theorem isNaN_roundComp (f : SampleFmt) (neg : Bool) (num den : Nat) : isNaN (roundComp f neg num den) = false := by
  have := roundMag_le f num den
  simp [isNaN, magOf_roundComp, this]

@[simp] theorem isNaN_canonNaN (f : SampleFmt) : isNaN (canonNaN f) = true := by
  simp [isNaN, canonNaN, magOf_packComp false (canonNaN_mag_lt f)]

theorem magOf_fneg {f : SampleFmt} (x : Comp f) : magOf (fneg x) = magOf x := magOf_packComp _ (magOf_lt x)

theorem signOf_fneg {f : SampleFmt} (x : Comp f) : signOf (fneg x) = !signOf x := signOf_packComp _ (magOf_lt x)

theorem toUnits_fneg {f : SampleFmt} (x : Comp f) : toUnits (fneg x) = -toUnits x := by
  simp only [toUnits, magOf_fneg, signOf_fneg]
  cases signOf x <;> simp

/-- Newton's iteration from above never passes the root. -/
theorem isqrtFrom_le {q fuel x : Nat} (hx : 0 < x) (h : Nat.sqrt q ≤ x) : Nat.sqrt q ≤ isqrtFrom q fuel x := by
  induction fuel generalizing x with
  | zero => exact h
  | succ fuel ih =>
    simp only [isqrtFrom]
    split
    · have hge : Nat.sqrt q ≤ (x + q / x) / 2 := by
        rw [Nat.le_div_iff_mul_le (by norm_num)]
        have hs := Nat.sqrt_le q
        by_contra hc
        have h1 : q / x < 2 * Nat.sqrt q - x := by omega
        have h2 : q < (2 * Nat.sqrt q - x) * x := (Nat.div_lt_iff_lt_mul hx).mp h1
        obtain ⟨d, hd⟩ := Nat.exists_eq_add_of_le h
        have h3 : 2 * Nat.sqrt q - x = Nat.sqrt q - d := by omega
        rw [h3, hd] at h2
        have h4 : d ≤ Nat.sqrt q := by
          by_contra hd'
          rw [Nat.sub_eq_zero_of_le (by omega), Nat.zero_mul] at h2
          omega
        obtain ⟨c, hc'⟩ := Nat.exists_eq_add_of_le h4
        have h5 : Nat.sqrt q - d = c := by omega
        rw [h5] at h2
        nlinarith
      by_cases hz : (x + q / x) / 2 = 0
      · have : Nat.sqrt q = 0 := by omega
        omega
      · exact ih (by omega) hge
    · exact h

/-- Each step at least halves the distance to the root. -/
theorem isqrtFrom_close {q fuel x : Nat} (hx : 0 < x) (h : Nat.sqrt q ≤ x) (hf : x - Nat.sqrt q < 2 ^ fuel) :
    isqrtFrom q fuel x ≤ Nat.sqrt q := by
  induction fuel generalizing x with
  | zero => simp only [isqrtFrom]; simp at hf; omega
  | succ fuel ih =>
    by_cases he : x = Nat.sqrt q
    · have h1 := isqrtFrom_le (fuel := fuel + 1) hx h
      simp only [isqrtFrom] at *
      split
      · rename_i hlt
        exfalso
        have h2 : (x + q / x) / 2 < x := hlt
        have h3 : q / x < x := by omega
        have h4 := (Nat.div_lt_iff_lt_mul hx).mp h3
        have h5 := Nat.sqrt_le q
        rw [← he] at h5
        omega
      · omega
    · have hgt : Nat.sqrt q < x := by omega
      have hlt : q < (Nat.sqrt q + 1) * (Nat.sqrt q + 1) := Nat.lt_succ_sqrt q
      have hq : q / x ≤ Nat.sqrt q := by
        have h2 : q < (Nat.sqrt q + 1) * x := lt_of_lt_of_le hlt (Nat.mul_le_mul_left _ hgt)
        have := (Nat.div_lt_iff_lt_mul hx).mpr h2
        omega
      have hy : (x + q / x) / 2 < x := by omega
      have hge : Nat.sqrt q ≤ (x + q / x) / 2 := by
        have h0 := isqrtFrom_le (q := q) (fuel := 1) hx h
        simpa [isqrtFrom, hy] using h0
      simp only [isqrtFrom, hy, if_true]
      by_cases hz : (x + q / x) / 2 = 0
      · rw [hz]
        have hz' : Nat.sqrt q = 0 := by omega
        have hall : ∀ k, isqrtFrom q k 0 = 0 := by
          intro k
          induction k with
          | zero => rfl
          | succ k _ => simp [isqrtFrom]
        simp [hall]
      · refine ih (by omega) hge ?_
        rw [pow_succ] at hf
        omega

/-- The integer square root is the integer square root. -/
theorem isqrt_eq_sqrt (q : Nat) : isqrt q = Nat.sqrt q := by
  unfold isqrt
  split
  · rename_i h; simp [h]
  · rename_i h
    have hb : q < 2 ^ bitLength q := by
      simp only [bitLength, h, if_false]
      exact Nat.lt_log2_self
    have hx : Nat.sqrt q ≤ 2 ^ ((bitLength q + 1) / 2) := by
      have h1 : bitLength q ≤ 2 * ((bitLength q + 1) / 2) := by omega
      have h2 : q < 2 ^ ((bitLength q + 1) / 2) * 2 ^ ((bitLength q + 1) / 2) := by
        rw [← pow_add]
        exact lt_of_lt_of_le hb (Nat.pow_le_pow_right (by norm_num) (by omega))
      exact le_of_lt (Nat.sqrt_lt.mpr h2)
    have hl : 0 < bitLength q := by simp [bitLength, h]
    have hs : 0 < Nat.sqrt q := Nat.sqrt_pos.mpr (by omega)
    refine le_antisymm (isqrtFrom_close (Nat.two_pow_pos _) hx ?_) (isqrtFrom_le (Nat.two_pow_pos _) hx)
    have : 2 ^ ((bitLength q + 1) / 2) ≤ 2 ^ bitLength q := Nat.pow_le_pow_right (by norm_num) (by omega)
    omega

end Sys2Proof.Machine
end

