-- ==== Sys2Proof/Laws/State.lean ====
section
/-! SUPPORT. One lemma per field per named update of the state, so that no later proof unfolds an update. -/

namespace Sys2Proof.Machine

variable (s : State)

/-! ### `State.withWork` -/

@[simp] theorem withWork_cfg (w : Memory) : (s.withWork w).cfg = s.cfg := rfl
@[simp] theorem withWork_ieDone (w : Memory) : (s.withWork w).ieDone = s.ieDone := rfl
@[simp] theorem withWork_ieErr (w : Memory) : (s.withWork w).ieErr = s.ieErr := rfl
@[simp] theorem withWork_oversizeReject (w : Memory) : (s.withWork w).oversizeReject = s.oversizeReject := rfl
@[simp] theorem withWork_busy (w : Memory) : (s.withWork w).busy = s.busy := rfl
@[simp] theorem withWork_done (w : Memory) : (s.withWork w).done = s.done := rfl
@[simp] theorem withWork_err (w : Memory) : (s.withWork w).err = s.err := rfl
@[simp] theorem withWork_sizeWarn (w : Memory) : (s.withWork w).sizeWarn = s.sizeWarn := rfl
@[simp] theorem withWork_overrun (w : Memory) : (s.withWork w).overrun = s.overrun := rfl
@[simp] theorem withWork_accessErr (w : Memory) : (s.withWork w).accessErr = s.accessErr := rfl
@[simp] theorem withWork_configured (w : Memory) : (s.withWork w).configured = s.configured := rfl
@[simp] theorem withWork_lastCmd (w : Memory) : (s.withWork w).lastCmd = s.lastCmd := rfl
@[simp] theorem withWork_cfgLen (w : Memory) : (s.withWork w).cfgLen = s.cfgLen := rfl
@[simp] theorem withWork_inLen (w : Memory) : (s.withWork w).inLen = s.inLen := rfl
@[simp] theorem withWork_n (w : Memory) : (s.withWork w).n = s.n := rfl
@[simp] theorem withWork_log2n (w : Memory) : (s.withWork w).log2n = s.log2n := rfl
@[simp] theorem withWork_outLen (w : Memory) : (s.withWork w).outLen = s.outLen := rfl
@[simp] theorem withWork_errCode (w : Memory) : (s.withWork w).errCode = s.errCode := rfl
@[simp] theorem withWork_latch (w : Memory) : (s.withWork w).latch = s.latch := rfl
@[simp] theorem withWork_inMem (w : Memory) : (s.withWork w).inMem = s.inMem := rfl
@[simp] theorem withWork_workMem (w : Memory) : (s.withWork w).workMem = w := rfl
@[simp] theorem withWork_twMem (w : Memory) : (s.withWork w).twMem = s.twMem := rfl
@[simp] theorem withWork_pending (w : Memory) : (s.withWork w).pending = s.pending := rfl
@[simp] theorem withWork_resp (w : Memory) : (s.withWork w).resp = s.resp := rfl

/-! ### `State.withOutLen` -/

@[simp] theorem withOutLen_cfg (k : Nat) : (s.withOutLen k).cfg = s.cfg := rfl
@[simp] theorem withOutLen_ieDone (k : Nat) : (s.withOutLen k).ieDone = s.ieDone := rfl
@[simp] theorem withOutLen_ieErr (k : Nat) : (s.withOutLen k).ieErr = s.ieErr := rfl
@[simp] theorem withOutLen_oversizeReject (k : Nat) : (s.withOutLen k).oversizeReject = s.oversizeReject := rfl
@[simp] theorem withOutLen_busy (k : Nat) : (s.withOutLen k).busy = s.busy := rfl
@[simp] theorem withOutLen_done (k : Nat) : (s.withOutLen k).done = s.done := rfl
@[simp] theorem withOutLen_err (k : Nat) : (s.withOutLen k).err = s.err := rfl
@[simp] theorem withOutLen_sizeWarn (k : Nat) : (s.withOutLen k).sizeWarn = s.sizeWarn := rfl
@[simp] theorem withOutLen_overrun (k : Nat) : (s.withOutLen k).overrun = s.overrun := rfl
@[simp] theorem withOutLen_accessErr (k : Nat) : (s.withOutLen k).accessErr = s.accessErr := rfl
@[simp] theorem withOutLen_configured (k : Nat) : (s.withOutLen k).configured = s.configured := rfl
@[simp] theorem withOutLen_lastCmd (k : Nat) : (s.withOutLen k).lastCmd = s.lastCmd := rfl
@[simp] theorem withOutLen_cfgLen (k : Nat) : (s.withOutLen k).cfgLen = s.cfgLen := rfl
@[simp] theorem withOutLen_inLen (k : Nat) : (s.withOutLen k).inLen = s.inLen := rfl
@[simp] theorem withOutLen_n (k : Nat) : (s.withOutLen k).n = s.n := rfl
@[simp] theorem withOutLen_log2n (k : Nat) : (s.withOutLen k).log2n = s.log2n := rfl
@[simp] theorem withOutLen_outLen (k : Nat) : (s.withOutLen k).outLen = k := rfl
@[simp] theorem withOutLen_errCode (k : Nat) : (s.withOutLen k).errCode = s.errCode := rfl
@[simp] theorem withOutLen_latch (k : Nat) : (s.withOutLen k).latch = s.latch := rfl
@[simp] theorem withOutLen_inMem (k : Nat) : (s.withOutLen k).inMem = s.inMem := rfl
@[simp] theorem withOutLen_workMem (k : Nat) : (s.withOutLen k).workMem = s.workMem := rfl
@[simp] theorem withOutLen_twMem (k : Nat) : (s.withOutLen k).twMem = s.twMem := rfl
@[simp] theorem withOutLen_pending (k : Nat) : (s.withOutLen k).pending = s.pending := rfl
@[simp] theorem withOutLen_resp (k : Nat) : (s.withOutLen k).resp = s.resp := rfl

/-! ### `State.answer` -/

@[simp] theorem answer_cfg (r : BusResp) : (s.answer r).cfg = s.cfg := rfl
@[simp] theorem answer_ieDone (r : BusResp) : (s.answer r).ieDone = s.ieDone := rfl
@[simp] theorem answer_ieErr (r : BusResp) : (s.answer r).ieErr = s.ieErr := rfl
@[simp] theorem answer_oversizeReject (r : BusResp) : (s.answer r).oversizeReject = s.oversizeReject := rfl
@[simp] theorem answer_busy (r : BusResp) : (s.answer r).busy = s.busy := rfl
@[simp] theorem answer_done (r : BusResp) : (s.answer r).done = s.done := rfl
@[simp] theorem answer_err (r : BusResp) : (s.answer r).err = s.err := rfl
@[simp] theorem answer_sizeWarn (r : BusResp) : (s.answer r).sizeWarn = s.sizeWarn := rfl
@[simp] theorem answer_overrun (r : BusResp) : (s.answer r).overrun = s.overrun := rfl
@[simp] theorem answer_accessErr (r : BusResp) : (s.answer r).accessErr = s.accessErr := rfl
@[simp] theorem answer_configured (r : BusResp) : (s.answer r).configured = s.configured := rfl
@[simp] theorem answer_lastCmd (r : BusResp) : (s.answer r).lastCmd = s.lastCmd := rfl
@[simp] theorem answer_cfgLen (r : BusResp) : (s.answer r).cfgLen = s.cfgLen := rfl
@[simp] theorem answer_inLen (r : BusResp) : (s.answer r).inLen = s.inLen := rfl
@[simp] theorem answer_n (r : BusResp) : (s.answer r).n = s.n := rfl
@[simp] theorem answer_log2n (r : BusResp) : (s.answer r).log2n = s.log2n := rfl
@[simp] theorem answer_outLen (r : BusResp) : (s.answer r).outLen = s.outLen := rfl
@[simp] theorem answer_errCode (r : BusResp) : (s.answer r).errCode = s.errCode := rfl
@[simp] theorem answer_latch (r : BusResp) : (s.answer r).latch = s.latch := rfl
@[simp] theorem answer_inMem (r : BusResp) : (s.answer r).inMem = s.inMem := rfl
@[simp] theorem answer_workMem (r : BusResp) : (s.answer r).workMem = s.workMem := rfl
@[simp] theorem answer_twMem (r : BusResp) : (s.answer r).twMem = s.twMem := rfl
@[simp] theorem answer_pending (r : BusResp) : (s.answer r).pending = s.pending := rfl
@[simp] theorem answer_resp (r : BusResp) : (s.answer r).resp = r := rfl

/-! ### `State.finish` -/

@[simp] theorem finish_cfg (e : ErrCode) : (s.finish e).cfg = s.cfg := rfl
@[simp] theorem finish_ieDone (e : ErrCode) : (s.finish e).ieDone = s.ieDone := rfl
@[simp] theorem finish_ieErr (e : ErrCode) : (s.finish e).ieErr = s.ieErr := rfl
@[simp] theorem finish_oversizeReject (e : ErrCode) : (s.finish e).oversizeReject = s.oversizeReject := rfl
@[simp] theorem finish_busy (e : ErrCode) : (s.finish e).busy = false := rfl
@[simp] theorem finish_done (e : ErrCode) : (s.finish e).done = true := rfl
@[simp] theorem finish_err (e : ErrCode) : (s.finish e).err = s.err := rfl
@[simp] theorem finish_sizeWarn (e : ErrCode) : (s.finish e).sizeWarn = s.sizeWarn := rfl
@[simp] theorem finish_overrun (e : ErrCode) : (s.finish e).overrun = s.overrun := rfl
@[simp] theorem finish_accessErr (e : ErrCode) : (s.finish e).accessErr = s.accessErr := rfl
@[simp] theorem finish_configured (e : ErrCode) : (s.finish e).configured = s.configured := rfl
@[simp] theorem finish_lastCmd (e : ErrCode) : (s.finish e).lastCmd = s.lastCmd := rfl
@[simp] theorem finish_cfgLen (e : ErrCode) : (s.finish e).cfgLen = s.cfgLen := rfl
@[simp] theorem finish_inLen (e : ErrCode) : (s.finish e).inLen = s.inLen := rfl
@[simp] theorem finish_n (e : ErrCode) : (s.finish e).n = s.n := rfl
@[simp] theorem finish_log2n (e : ErrCode) : (s.finish e).log2n = s.log2n := rfl
@[simp] theorem finish_outLen (e : ErrCode) : (s.finish e).outLen = s.outLen := rfl
@[simp] theorem finish_errCode (e : ErrCode) : (s.finish e).errCode = e := rfl
@[simp] theorem finish_latch (e : ErrCode) : (s.finish e).latch = s.latch := rfl
@[simp] theorem finish_inMem (e : ErrCode) : (s.finish e).inMem = s.inMem := rfl
@[simp] theorem finish_workMem (e : ErrCode) : (s.finish e).workMem = s.workMem := rfl
@[simp] theorem finish_twMem (e : ErrCode) : (s.finish e).twMem = s.twMem := rfl
@[simp] theorem finish_pending (e : ErrCode) : (s.finish e).pending = s.pending := rfl
@[simp] theorem finish_resp (e : ErrCode) : (s.finish e).resp = s.resp := rfl

/-! ### `State.raiseCmdError` -/

@[simp] theorem raiseCmdError_cfg (e : ErrCode) : (s.raiseCmdError e).cfg = s.cfg := rfl
@[simp] theorem raiseCmdError_ieDone (e : ErrCode) : (s.raiseCmdError e).ieDone = s.ieDone := rfl
@[simp] theorem raiseCmdError_ieErr (e : ErrCode) : (s.raiseCmdError e).ieErr = s.ieErr := rfl
@[simp] theorem raiseCmdError_oversizeReject (e : ErrCode) : (s.raiseCmdError e).oversizeReject = s.oversizeReject := rfl
@[simp] theorem raiseCmdError_busy (e : ErrCode) : (s.raiseCmdError e).busy = false := rfl
@[simp] theorem raiseCmdError_done (e : ErrCode) : (s.raiseCmdError e).done = true := rfl
@[simp] theorem raiseCmdError_err (e : ErrCode) : (s.raiseCmdError e).err = true := rfl
@[simp] theorem raiseCmdError_sizeWarn (e : ErrCode) : (s.raiseCmdError e).sizeWarn = s.sizeWarn := rfl
@[simp] theorem raiseCmdError_overrun (e : ErrCode) : (s.raiseCmdError e).overrun = s.overrun := rfl
@[simp] theorem raiseCmdError_accessErr (e : ErrCode) : (s.raiseCmdError e).accessErr = s.accessErr := rfl
@[simp] theorem raiseCmdError_configured (e : ErrCode) : (s.raiseCmdError e).configured = s.configured := rfl
@[simp] theorem raiseCmdError_lastCmd (e : ErrCode) : (s.raiseCmdError e).lastCmd = s.lastCmd := rfl
@[simp] theorem raiseCmdError_cfgLen (e : ErrCode) : (s.raiseCmdError e).cfgLen = s.cfgLen := rfl
@[simp] theorem raiseCmdError_inLen (e : ErrCode) : (s.raiseCmdError e).inLen = s.inLen := rfl
@[simp] theorem raiseCmdError_n (e : ErrCode) : (s.raiseCmdError e).n = s.n := rfl
@[simp] theorem raiseCmdError_log2n (e : ErrCode) : (s.raiseCmdError e).log2n = s.log2n := rfl
@[simp] theorem raiseCmdError_outLen (e : ErrCode) : (s.raiseCmdError e).outLen = s.outLen := rfl
@[simp] theorem raiseCmdError_errCode (e : ErrCode) : (s.raiseCmdError e).errCode = e := rfl
@[simp] theorem raiseCmdError_latch (e : ErrCode) : (s.raiseCmdError e).latch = s.latch := rfl
@[simp] theorem raiseCmdError_inMem (e : ErrCode) : (s.raiseCmdError e).inMem = s.inMem := rfl
@[simp] theorem raiseCmdError_workMem (e : ErrCode) : (s.raiseCmdError e).workMem = s.workMem := rfl
@[simp] theorem raiseCmdError_twMem (e : ErrCode) : (s.raiseCmdError e).twMem = s.twMem := rfl
@[simp] theorem raiseCmdError_pending (e : ErrCode) : (s.raiseCmdError e).pending = s.pending := rfl
@[simp] theorem raiseCmdError_resp (e : ErrCode) : (s.raiseCmdError e).resp = s.resp := rfl

/-! ### `State.flagAccessErr` -/

@[simp] theorem flagAccessErr_cfg : (s.flagAccessErr).cfg = s.cfg := rfl
@[simp] theorem flagAccessErr_ieDone : (s.flagAccessErr).ieDone = s.ieDone := rfl
@[simp] theorem flagAccessErr_ieErr : (s.flagAccessErr).ieErr = s.ieErr := rfl
@[simp] theorem flagAccessErr_oversizeReject : (s.flagAccessErr).oversizeReject = s.oversizeReject := rfl
@[simp] theorem flagAccessErr_busy : (s.flagAccessErr).busy = s.busy := rfl
@[simp] theorem flagAccessErr_done : (s.flagAccessErr).done = s.done := rfl
@[simp] theorem flagAccessErr_err : (s.flagAccessErr).err = s.err := rfl
@[simp] theorem flagAccessErr_sizeWarn : (s.flagAccessErr).sizeWarn = s.sizeWarn := rfl
@[simp] theorem flagAccessErr_overrun : (s.flagAccessErr).overrun = s.overrun := rfl
@[simp] theorem flagAccessErr_accessErr : (s.flagAccessErr).accessErr = true := rfl
@[simp] theorem flagAccessErr_configured : (s.flagAccessErr).configured = s.configured := rfl
@[simp] theorem flagAccessErr_lastCmd : (s.flagAccessErr).lastCmd = s.lastCmd := rfl
@[simp] theorem flagAccessErr_cfgLen : (s.flagAccessErr).cfgLen = s.cfgLen := rfl
@[simp] theorem flagAccessErr_inLen : (s.flagAccessErr).inLen = s.inLen := rfl
@[simp] theorem flagAccessErr_n : (s.flagAccessErr).n = s.n := rfl
@[simp] theorem flagAccessErr_log2n : (s.flagAccessErr).log2n = s.log2n := rfl
@[simp] theorem flagAccessErr_outLen : (s.flagAccessErr).outLen = s.outLen := rfl
@[simp] theorem flagAccessErr_errCode : (s.flagAccessErr).errCode = s.errCode := rfl
@[simp] theorem flagAccessErr_latch : (s.flagAccessErr).latch = s.latch := rfl
@[simp] theorem flagAccessErr_inMem : (s.flagAccessErr).inMem = s.inMem := rfl
@[simp] theorem flagAccessErr_workMem : (s.flagAccessErr).workMem = s.workMem := rfl
@[simp] theorem flagAccessErr_twMem : (s.flagAccessErr).twMem = s.twMem := rfl
@[simp] theorem flagAccessErr_pending : (s.flagAccessErr).pending = s.pending := rfl
@[simp] theorem flagAccessErr_resp : (s.flagAccessErr).resp = s.resp := rfl

/-! ### `State.warnIf` -/

@[simp] theorem warnIf_cfg (b : Bool) : (s.warnIf b).cfg = s.cfg := rfl
@[simp] theorem warnIf_ieDone (b : Bool) : (s.warnIf b).ieDone = s.ieDone := rfl
@[simp] theorem warnIf_ieErr (b : Bool) : (s.warnIf b).ieErr = s.ieErr := rfl
@[simp] theorem warnIf_oversizeReject (b : Bool) : (s.warnIf b).oversizeReject = s.oversizeReject := rfl
@[simp] theorem warnIf_busy (b : Bool) : (s.warnIf b).busy = s.busy := rfl
@[simp] theorem warnIf_done (b : Bool) : (s.warnIf b).done = s.done := rfl
@[simp] theorem warnIf_err (b : Bool) : (s.warnIf b).err = s.err := rfl
@[simp] theorem warnIf_sizeWarn (b : Bool) : (s.warnIf b).sizeWarn = (s.sizeWarn || b) := rfl
@[simp] theorem warnIf_overrun (b : Bool) : (s.warnIf b).overrun = s.overrun := rfl
@[simp] theorem warnIf_accessErr (b : Bool) : (s.warnIf b).accessErr = s.accessErr := rfl
@[simp] theorem warnIf_configured (b : Bool) : (s.warnIf b).configured = s.configured := rfl
@[simp] theorem warnIf_lastCmd (b : Bool) : (s.warnIf b).lastCmd = s.lastCmd := rfl
@[simp] theorem warnIf_cfgLen (b : Bool) : (s.warnIf b).cfgLen = s.cfgLen := rfl
@[simp] theorem warnIf_inLen (b : Bool) : (s.warnIf b).inLen = s.inLen := rfl
@[simp] theorem warnIf_n (b : Bool) : (s.warnIf b).n = s.n := rfl
@[simp] theorem warnIf_log2n (b : Bool) : (s.warnIf b).log2n = s.log2n := rfl
@[simp] theorem warnIf_outLen (b : Bool) : (s.warnIf b).outLen = s.outLen := rfl
@[simp] theorem warnIf_errCode (b : Bool) : (s.warnIf b).errCode = s.errCode := rfl
@[simp] theorem warnIf_latch (b : Bool) : (s.warnIf b).latch = s.latch := rfl
@[simp] theorem warnIf_inMem (b : Bool) : (s.warnIf b).inMem = s.inMem := rfl
@[simp] theorem warnIf_workMem (b : Bool) : (s.warnIf b).workMem = s.workMem := rfl
@[simp] theorem warnIf_twMem (b : Bool) : (s.warnIf b).twMem = s.twMem := rfl
@[simp] theorem warnIf_pending (b : Bool) : (s.warnIf b).pending = s.pending := rfl
@[simp] theorem warnIf_resp (b : Bool) : (s.warnIf b).resp = s.resp := rfl

/-! ### `State.setCtrl` -/

@[simp] theorem setCtrl_cfg (v : Word) : (s.setCtrl v).cfg = s.cfg := rfl
@[simp] theorem setCtrl_ieDone (v : Word) : (s.setCtrl v).ieDone = v.getLsbD 0 := rfl
@[simp] theorem setCtrl_ieErr (v : Word) : (s.setCtrl v).ieErr = v.getLsbD 1 := rfl
@[simp] theorem setCtrl_oversizeReject (v : Word) : (s.setCtrl v).oversizeReject = v.getLsbD 2 := rfl
@[simp] theorem setCtrl_busy (v : Word) : (s.setCtrl v).busy = s.busy := rfl
@[simp] theorem setCtrl_done (v : Word) : (s.setCtrl v).done = s.done := rfl
@[simp] theorem setCtrl_err (v : Word) : (s.setCtrl v).err = s.err := rfl
@[simp] theorem setCtrl_sizeWarn (v : Word) : (s.setCtrl v).sizeWarn = s.sizeWarn := rfl
@[simp] theorem setCtrl_overrun (v : Word) : (s.setCtrl v).overrun = s.overrun := rfl
@[simp] theorem setCtrl_accessErr (v : Word) : (s.setCtrl v).accessErr = s.accessErr := rfl
@[simp] theorem setCtrl_configured (v : Word) : (s.setCtrl v).configured = s.configured := rfl
@[simp] theorem setCtrl_lastCmd (v : Word) : (s.setCtrl v).lastCmd = s.lastCmd := rfl
@[simp] theorem setCtrl_cfgLen (v : Word) : (s.setCtrl v).cfgLen = s.cfgLen := rfl
@[simp] theorem setCtrl_inLen (v : Word) : (s.setCtrl v).inLen = s.inLen := rfl
@[simp] theorem setCtrl_n (v : Word) : (s.setCtrl v).n = s.n := rfl
@[simp] theorem setCtrl_log2n (v : Word) : (s.setCtrl v).log2n = s.log2n := rfl
@[simp] theorem setCtrl_outLen (v : Word) : (s.setCtrl v).outLen = s.outLen := rfl
@[simp] theorem setCtrl_errCode (v : Word) : (s.setCtrl v).errCode = s.errCode := rfl
@[simp] theorem setCtrl_latch (v : Word) : (s.setCtrl v).latch = s.latch := rfl
@[simp] theorem setCtrl_inMem (v : Word) : (s.setCtrl v).inMem = s.inMem := rfl
@[simp] theorem setCtrl_workMem (v : Word) : (s.setCtrl v).workMem = s.workMem := rfl
@[simp] theorem setCtrl_twMem (v : Word) : (s.setCtrl v).twMem = s.twMem := rfl
@[simp] theorem setCtrl_pending (v : Word) : (s.setCtrl v).pending = s.pending := rfl
@[simp] theorem setCtrl_resp (v : Word) : (s.setCtrl v).resp = s.resp := rfl

/-! ### `State.w1c` -/

@[simp] theorem w1c_cfg (v : Word) : (s.w1c v).cfg = s.cfg := rfl
@[simp] theorem w1c_ieDone (v : Word) : (s.w1c v).ieDone = s.ieDone := rfl
@[simp] theorem w1c_ieErr (v : Word) : (s.w1c v).ieErr = s.ieErr := rfl
@[simp] theorem w1c_oversizeReject (v : Word) : (s.w1c v).oversizeReject = s.oversizeReject := rfl
@[simp] theorem w1c_busy (v : Word) : (s.w1c v).busy = s.busy := rfl
@[simp] theorem w1c_done (v : Word) : (s.w1c v).done = (s.done && !v.getLsbD 1) := rfl
@[simp] theorem w1c_err (v : Word) : (s.w1c v).err = (s.err && !v.getLsbD 2) := rfl
@[simp] theorem w1c_sizeWarn (v : Word) : (s.w1c v).sizeWarn = (s.sizeWarn && !v.getLsbD 3) := rfl
@[simp] theorem w1c_overrun (v : Word) : (s.w1c v).overrun = (s.overrun && !v.getLsbD 4) := rfl
@[simp] theorem w1c_accessErr (v : Word) : (s.w1c v).accessErr = (s.accessErr && !v.getLsbD 5) := rfl
@[simp] theorem w1c_configured (v : Word) : (s.w1c v).configured = s.configured := rfl
@[simp] theorem w1c_lastCmd (v : Word) : (s.w1c v).lastCmd = s.lastCmd := rfl
@[simp] theorem w1c_cfgLen (v : Word) : (s.w1c v).cfgLen = s.cfgLen := rfl
@[simp] theorem w1c_inLen (v : Word) : (s.w1c v).inLen = s.inLen := rfl
@[simp] theorem w1c_n (v : Word) : (s.w1c v).n = s.n := rfl
@[simp] theorem w1c_log2n (v : Word) : (s.w1c v).log2n = s.log2n := rfl
@[simp] theorem w1c_outLen (v : Word) : (s.w1c v).outLen = s.outLen := rfl
@[simp] theorem w1c_errCode (v : Word) : (s.w1c v).errCode = s.errCode := rfl
@[simp] theorem w1c_latch (v : Word) : (s.w1c v).latch = s.latch := rfl
@[simp] theorem w1c_inMem (v : Word) : (s.w1c v).inMem = s.inMem := rfl
@[simp] theorem w1c_workMem (v : Word) : (s.w1c v).workMem = s.workMem := rfl
@[simp] theorem w1c_twMem (v : Word) : (s.w1c v).twMem = s.twMem := rfl
@[simp] theorem w1c_pending (v : Word) : (s.w1c v).pending = s.pending := rfl
@[simp] theorem w1c_resp (v : Word) : (s.w1c v).resp = s.resp := rfl

/-! ### `State.acceptCmd` -/

@[simp] theorem acceptCmd_cfg (v : Word) : (s.acceptCmd v).cfg = s.cfg := rfl
@[simp] theorem acceptCmd_ieDone (v : Word) : (s.acceptCmd v).ieDone = s.ieDone := rfl
@[simp] theorem acceptCmd_ieErr (v : Word) : (s.acceptCmd v).ieErr = s.ieErr := rfl
@[simp] theorem acceptCmd_oversizeReject (v : Word) : (s.acceptCmd v).oversizeReject = s.oversizeReject := rfl
@[simp] theorem acceptCmd_busy (v : Word) : (s.acceptCmd v).busy = true := rfl
@[simp] theorem acceptCmd_done (v : Word) : (s.acceptCmd v).done = false := rfl
@[simp] theorem acceptCmd_err (v : Word) : (s.acceptCmd v).err = s.err := rfl
@[simp] theorem acceptCmd_sizeWarn (v : Word) : (s.acceptCmd v).sizeWarn = s.sizeWarn := rfl
@[simp] theorem acceptCmd_overrun (v : Word) : (s.acceptCmd v).overrun = s.overrun := rfl
@[simp] theorem acceptCmd_accessErr (v : Word) : (s.acceptCmd v).accessErr = s.accessErr := rfl
@[simp] theorem acceptCmd_configured (v : Word) : (s.acceptCmd v).configured = s.configured := rfl
@[simp] theorem acceptCmd_lastCmd (v : Word) : (s.acceptCmd v).lastCmd = v := rfl
@[simp] theorem acceptCmd_cfgLen (v : Word) : (s.acceptCmd v).cfgLen = s.cfgLen := rfl
@[simp] theorem acceptCmd_inLen (v : Word) : (s.acceptCmd v).inLen = s.inLen := rfl
@[simp] theorem acceptCmd_n (v : Word) : (s.acceptCmd v).n = s.n := rfl
@[simp] theorem acceptCmd_log2n (v : Word) : (s.acceptCmd v).log2n = s.log2n := rfl
@[simp] theorem acceptCmd_outLen (v : Word) : (s.acceptCmd v).outLen = s.outLen := rfl
@[simp] theorem acceptCmd_errCode (v : Word) : (s.acceptCmd v).errCode = s.errCode := rfl
@[simp] theorem acceptCmd_latch (v : Word) : (s.acceptCmd v).latch = ⟨v, s.cfgLen, s.inLen, s.oversizeReject⟩ := rfl
@[simp] theorem acceptCmd_inMem (v : Word) : (s.acceptCmd v).inMem = s.inMem := rfl
@[simp] theorem acceptCmd_workMem (v : Word) : (s.acceptCmd v).workMem = s.workMem := rfl
@[simp] theorem acceptCmd_twMem (v : Word) : (s.acceptCmd v).twMem = s.twMem := rfl
@[simp] theorem acceptCmd_pending (v : Word) : (s.acceptCmd v).pending = s.pending := rfl
@[simp] theorem acceptCmd_resp (v : Word) : (s.acceptCmd v).resp = s.resp := rfl

/-! ### `State.overrunCmd` -/

@[simp] theorem overrunCmd_cfg : (s.overrunCmd).cfg = s.cfg := rfl
@[simp] theorem overrunCmd_ieDone : (s.overrunCmd).ieDone = s.ieDone := rfl
@[simp] theorem overrunCmd_ieErr : (s.overrunCmd).ieErr = s.ieErr := rfl
@[simp] theorem overrunCmd_oversizeReject : (s.overrunCmd).oversizeReject = s.oversizeReject := rfl
@[simp] theorem overrunCmd_busy : (s.overrunCmd).busy = s.busy := rfl
@[simp] theorem overrunCmd_done : (s.overrunCmd).done = s.done := rfl
@[simp] theorem overrunCmd_err : (s.overrunCmd).err = s.err := rfl
@[simp] theorem overrunCmd_sizeWarn : (s.overrunCmd).sizeWarn = s.sizeWarn := rfl
@[simp] theorem overrunCmd_overrun : (s.overrunCmd).overrun = true := rfl
@[simp] theorem overrunCmd_accessErr : (s.overrunCmd).accessErr = s.accessErr := rfl
@[simp] theorem overrunCmd_configured : (s.overrunCmd).configured = s.configured := rfl
@[simp] theorem overrunCmd_lastCmd : (s.overrunCmd).lastCmd = s.lastCmd := rfl
@[simp] theorem overrunCmd_cfgLen : (s.overrunCmd).cfgLen = s.cfgLen := rfl
@[simp] theorem overrunCmd_inLen : (s.overrunCmd).inLen = s.inLen := rfl
@[simp] theorem overrunCmd_n : (s.overrunCmd).n = s.n := rfl
@[simp] theorem overrunCmd_log2n : (s.overrunCmd).log2n = s.log2n := rfl
@[simp] theorem overrunCmd_outLen : (s.overrunCmd).outLen = s.outLen := rfl
@[simp] theorem overrunCmd_errCode : (s.overrunCmd).errCode = s.errCode := rfl
@[simp] theorem overrunCmd_latch : (s.overrunCmd).latch = s.latch := rfl
@[simp] theorem overrunCmd_inMem : (s.overrunCmd).inMem = s.inMem := rfl
@[simp] theorem overrunCmd_workMem : (s.overrunCmd).workMem = s.workMem := rfl
@[simp] theorem overrunCmd_twMem : (s.overrunCmd).twMem = s.twMem := rfl
@[simp] theorem overrunCmd_pending : (s.overrunCmd).pending = s.pending := rfl
@[simp] theorem overrunCmd_resp : (s.overrunCmd).resp = s.resp := rfl

/-! ### `State.setCfgLen` -/

@[simp] theorem setCfgLen_cfg (v : Word) : (s.setCfgLen v).cfg = s.cfg := rfl
@[simp] theorem setCfgLen_ieDone (v : Word) : (s.setCfgLen v).ieDone = s.ieDone := rfl
@[simp] theorem setCfgLen_ieErr (v : Word) : (s.setCfgLen v).ieErr = s.ieErr := rfl
@[simp] theorem setCfgLen_oversizeReject (v : Word) : (s.setCfgLen v).oversizeReject = s.oversizeReject := rfl
@[simp] theorem setCfgLen_busy (v : Word) : (s.setCfgLen v).busy = s.busy := rfl
@[simp] theorem setCfgLen_done (v : Word) : (s.setCfgLen v).done = s.done := rfl
@[simp] theorem setCfgLen_err (v : Word) : (s.setCfgLen v).err = s.err := rfl
@[simp] theorem setCfgLen_sizeWarn (v : Word) : (s.setCfgLen v).sizeWarn = s.sizeWarn := rfl
@[simp] theorem setCfgLen_overrun (v : Word) : (s.setCfgLen v).overrun = s.overrun := rfl
@[simp] theorem setCfgLen_accessErr (v : Word) : (s.setCfgLen v).accessErr = s.accessErr := rfl
@[simp] theorem setCfgLen_configured (v : Word) : (s.setCfgLen v).configured = s.configured := rfl
@[simp] theorem setCfgLen_lastCmd (v : Word) : (s.setCfgLen v).lastCmd = s.lastCmd := rfl
@[simp] theorem setCfgLen_cfgLen (v : Word) : (s.setCfgLen v).cfgLen = v := rfl
@[simp] theorem setCfgLen_inLen (v : Word) : (s.setCfgLen v).inLen = s.inLen := rfl
@[simp] theorem setCfgLen_n (v : Word) : (s.setCfgLen v).n = s.n := rfl
@[simp] theorem setCfgLen_log2n (v : Word) : (s.setCfgLen v).log2n = s.log2n := rfl
@[simp] theorem setCfgLen_outLen (v : Word) : (s.setCfgLen v).outLen = s.outLen := rfl
@[simp] theorem setCfgLen_errCode (v : Word) : (s.setCfgLen v).errCode = s.errCode := rfl
@[simp] theorem setCfgLen_latch (v : Word) : (s.setCfgLen v).latch = s.latch := rfl
@[simp] theorem setCfgLen_inMem (v : Word) : (s.setCfgLen v).inMem = s.inMem := rfl
@[simp] theorem setCfgLen_workMem (v : Word) : (s.setCfgLen v).workMem = s.workMem := rfl
@[simp] theorem setCfgLen_twMem (v : Word) : (s.setCfgLen v).twMem = s.twMem := rfl
@[simp] theorem setCfgLen_pending (v : Word) : (s.setCfgLen v).pending = s.pending := rfl
@[simp] theorem setCfgLen_resp (v : Word) : (s.setCfgLen v).resp = s.resp := rfl

/-! ### `State.setInLen` -/

@[simp] theorem setInLen_cfg (v : Word) : (s.setInLen v).cfg = s.cfg := rfl
@[simp] theorem setInLen_ieDone (v : Word) : (s.setInLen v).ieDone = s.ieDone := rfl
@[simp] theorem setInLen_ieErr (v : Word) : (s.setInLen v).ieErr = s.ieErr := rfl
@[simp] theorem setInLen_oversizeReject (v : Word) : (s.setInLen v).oversizeReject = s.oversizeReject := rfl
@[simp] theorem setInLen_busy (v : Word) : (s.setInLen v).busy = s.busy := rfl
@[simp] theorem setInLen_done (v : Word) : (s.setInLen v).done = s.done := rfl
@[simp] theorem setInLen_err (v : Word) : (s.setInLen v).err = s.err := rfl
@[simp] theorem setInLen_sizeWarn (v : Word) : (s.setInLen v).sizeWarn = s.sizeWarn := rfl
@[simp] theorem setInLen_overrun (v : Word) : (s.setInLen v).overrun = s.overrun := rfl
@[simp] theorem setInLen_accessErr (v : Word) : (s.setInLen v).accessErr = s.accessErr := rfl
@[simp] theorem setInLen_configured (v : Word) : (s.setInLen v).configured = s.configured := rfl
@[simp] theorem setInLen_lastCmd (v : Word) : (s.setInLen v).lastCmd = s.lastCmd := rfl
@[simp] theorem setInLen_cfgLen (v : Word) : (s.setInLen v).cfgLen = s.cfgLen := rfl
@[simp] theorem setInLen_inLen (v : Word) : (s.setInLen v).inLen = v := rfl
@[simp] theorem setInLen_n (v : Word) : (s.setInLen v).n = s.n := rfl
@[simp] theorem setInLen_log2n (v : Word) : (s.setInLen v).log2n = s.log2n := rfl
@[simp] theorem setInLen_outLen (v : Word) : (s.setInLen v).outLen = s.outLen := rfl
@[simp] theorem setInLen_errCode (v : Word) : (s.setInLen v).errCode = s.errCode := rfl
@[simp] theorem setInLen_latch (v : Word) : (s.setInLen v).latch = s.latch := rfl
@[simp] theorem setInLen_inMem (v : Word) : (s.setInLen v).inMem = s.inMem := rfl
@[simp] theorem setInLen_workMem (v : Word) : (s.setInLen v).workMem = s.workMem := rfl
@[simp] theorem setInLen_twMem (v : Word) : (s.setInLen v).twMem = s.twMem := rfl
@[simp] theorem setInLen_pending (v : Word) : (s.setInLen v).pending = s.pending := rfl
@[simp] theorem setInLen_resp (v : Word) : (s.setInLen v).resp = s.resp := rfl

end Sys2Proof.Machine
end

