-- ==== Sys2Proof/Laws/HostBus.lean ====
section
/-! SUPPORT. The ways a host access can end, said once. -/

namespace Sys2Proof.Machine

theorem writeReg_cases (s : State) (r : Reg) (v : Word) :
    s.writeReg r v = s ∨ (r = .ctrl ∧ s.writeReg r v = s.setCtrl v) ∨ (r = .status ∧ s.writeReg r v = s.w1c v) ∨
      (r = .cmd ∧ s.busy = false ∧ s.writeReg r v = s.acceptCmd v) ∨
      (r = .cmd ∧ s.busy = true ∧ s.writeReg r v = s.overrunCmd) ∨
      (r = .cfgLen ∧ s.writeReg r v = s.setCfgLen v) ∨ (r = .inLen ∧ s.writeReg r v = s.setInLen v) := by
  cases r <;> simp only [State.writeReg, reduceCtorEq, false_and, false_or, or_false, true_and, or_true]
  unfold State.offerCmd
  cases s.busy <;> simp

/-- A write to a sample memory's window while idle, where the memory has an entry. -/
theorem writeMemWord_cases (s : State) (k : MemName) (o : Nat) (v : Word) :
    (k = .inp ∧ s.writeMemWord k o v = { s with inMem := s.inMem.writeWord o v }) ∨
      (k = .work ∧ s.writeMemWord k o v = { s with workMem := s.workMem.writeWord o v }) ∨
      (k = .tw ∧ s.writeMemWord k o v = s) := by
  cases k <;> simp [State.writeMemWord]

/-- All a host write can do, up to the bus answer. -/
inductive WriteEffect (s : State) (v : Word) : State → Prop where
  | nothing : WriteEffect s v s
  | ctrl : WriteEffect s v (s.setCtrl v)
  | status : WriteEffect s v (s.w1c v)
  | accepted (h : s.busy = false) : WriteEffect s v (s.acceptCmd v)
  | overrun (h : s.busy = true) : WriteEffect s v s.overrunCmd
  | cfgLen : WriteEffect s v (s.setCfgLen v)
  | inLen : WriteEffect s v (s.setInLen v)
  | accessErr (h : s.busy = true) : WriteEffect s v s.flagAccessErr
  | inMem (o : Nat) (h : s.busy = false) (ho : o / s.cfg.fmt.entryBytes < s.cfg.nmax)
      (h4 : o % 4 = 0) :
      WriteEffect s v { s with inMem := s.inMem.writeWord o v }
  | workMem (o : Nat) (h : s.busy = false) (ho : o / s.cfg.fmt.entryBytes < s.cfg.nmax)
      (h4 : o % 4 = 0) :
      WriteEffect s v { s with workMem := s.workMem.writeWord o v }

/-- An aligned window offset gives an aligned offset inside a memory's window. -/
theorem regionOf_mem_aligned {a o : Nat} {k : MemName} (h : regionOf a = .mem k o) (h4 : a % 4 = 0) : o % 4 = 0 := by
  have ho : o = a % regionBytes := by
    unfold regionOf at h
    simp only at h
    split at h <;> simp at h <;> exact h.2.symm
  rw [ho, regionBytes]
  omega

theorem hostWrite_effect (s : State) {a : Nat} (v : Word) (h4 : a % 4 = 0) :
    ∃ t, WriteEffect s v t ∧ hostWrite s a v = t.answer .ack := by
  unfold hostWrite
  cases hr : regionOf a with
  | regs o =>
    simp only
    cases regAt o with
    | none => exact ⟨s, .nothing, rfl⟩
    | some r =>
      refine ⟨s.writeReg r v, ?_, rfl⟩
      rcases writeReg_cases s r v with h | ⟨-, h⟩ | ⟨-, h⟩ | ⟨-, hb, h⟩ | ⟨-, hb, h⟩ | ⟨-, h⟩ | ⟨-, h⟩ <;> rw [h]
      · exact .nothing
      · exact .ctrl
      · exact .status
      · exact .accepted hb
      · exact .overrun hb
      · exact .cfgLen
      · exact .inLen
  | mem k o =>
    simp only
    by_cases hb : s.busy = true
    · exact ⟨s.flagAccessErr, .accessErr hb, by simp [hb]⟩
    · have hb' : s.busy = false := by simpa using hb
      by_cases ho : s.cfg.nmax ≤ o / s.cfg.fmt.entryBytes
      · exact ⟨s, .nothing, by simp [hb', ho]⟩
      · refine ⟨s.writeMemWord k o v, ?_, by simp [hb', ho]⟩
        rcases writeMemWord_cases s k o v with ⟨-, h⟩ | ⟨-, h⟩ | ⟨-, h⟩ <;> rw [h]
        · exact .inMem o hb' (by omega) (regionOf_mem_aligned hr h4)
        · exact .workMem o hb' (by omega) (regionOf_mem_aligned hr h4)
        · exact .nothing

/-- All a host read can do: an answer, and ACCESS_ERR where it reads a busy window. -/
theorem hostRead_next_cases {s t : State} {a : Nat} (h : hostRead s a = .next t) :
    (∃ r, t = s.answer r) ∨ (s.busy = true ∧ ∃ r, t = s.flagAccessErr.answer r) := by
  unfold hostRead at h
  cases hr : regionOf a with
  | regs o =>
    simp only [hr] at h
    cases ho : regAt o with
    | none =>
      simp only [ho, Host.Outcome.next.injEq] at h
      exact .inl ⟨_, h.symm⟩
    | some r =>
      simp only [ho, Host.Outcome.next.injEq] at h
      exact .inl ⟨_, h.symm⟩
  | mem k o =>
    simp only [hr] at h
    split at h
    · rename_i hb
      simp only [Host.Outcome.next.injEq] at h
      exact .inr ⟨hb, _, h.symm⟩
    · split at h
      · simp only [Host.Outcome.next.injEq] at h
        exact .inl ⟨_, h.symm⟩
      · split at h
        · simp only [Host.Outcome.next.injEq] at h
          exact .inl ⟨_, h.symm⟩
        · simp at h

/-- All a host access can do. -/
theorem hostAccess_next_cases {s t : State} {x : Access} (h : hostAccess s x = .next t) :
    (∃ r, t = s.answer r) ∨ (s.busy = true ∧ ∃ r, t = s.flagAccessErr.answer r) ∨
      ∃ v u, WriteEffect s v u ∧ t = u.answer .ack := by
  unfold hostAccess at h
  split at h
  · simp only [Host.Outcome.next.injEq] at h
    exact .inl ⟨_, h.symm⟩
  · split at h
    · simp only [Host.Outcome.next.injEq] at h
      exact .inl ⟨_, h.symm⟩
    · rename_i h4
      cases x with
      | read addr w =>
        rcases hostRead_next_cases h with h | h
        · exact .inl h
        · exact .inr (.inl h)
      | write addr w v =>
        simp only [Host.Outcome.next.injEq] at h
        obtain ⟨u, hu, he⟩ := hostWrite_effect s v (a := addr - s.cfg.base) (by
          simp only [Access.addr, not_or, ne_eq, not_not] at h4
          exact h4.2)
        exact .inr (.inr ⟨v, u, hu, by rw [← h, he]⟩)

/-- A window offset lies in the window of memory `k` exactly where its region says. -/
theorem regionOf_mem_eq {a o : Nat} {k : MemName} (ha : a < windowBytes) (h : regionOf a = .mem k o) :
    a = memBase k + o ∧ o < regionBytes := by
  simp only [windowBytes, regionBytes] at *
  unfold regionOf at h
  simp only [regionBytes] at h
  have hq : a / 0x100000 = 0 ∨ a / 0x100000 = 1 ∨ a / 0x100000 = 2 ∨ a / 0x100000 = 3 := by omega
  rcases hq with hq | hq | hq | hq <;> rw [hq] at h <;> simp at h <;> obtain ⟨rfl, rfl⟩ := h <;> simp only [memBase] <;> omega

/-- A host access that changes the contents of IN or WORK is a 32-bit write of a word of that memory while idle; none changes TW. -/
theorem hostAccess_memory_cases {s t : State} {x : Access} (h : hostAccess s x = .next t) (k : MemName)
    (hm : t.memory k ≠ s.memory k) :
    s.busy = false ∧ k ≠ .tw ∧ ∃ o v, x = .write (s.cfg.base + memBase k + o) .w32 v ∧ o % 4 = 0 ∧ o < regionBytes ∧
      o / s.cfg.fmt.entryBytes < s.cfg.nmax := by
  unfold hostAccess at h
  split at h
  · cases h; exact absurd (by cases k <;> rfl) hm
  rename_i hin
  split at h
  · cases h; exact absurd (by cases k <;> rfl) hm
  rename_i hal
  cases x with
  | read addr w =>
    rcases hostRead_next_cases h with ⟨r, rfl⟩ | ⟨-, r, rfl⟩ <;> exact absurd (by cases k <;> rfl) hm
  | write addr w v =>
    simp only [Host.Outcome.next.injEq] at h
    subst h
    simp only [Access.addr, Access.width, not_or, not_lt, not_le, ne_eq, not_not] at hin hal
    unfold hostWrite at hm
    cases hr : regionOf (addr - s.cfg.base) with
    | regs o =>
      rw [hr] at hm
      simp only at hm
      cases ho : regAt o with
      | none => rw [ho] at hm; exact absurd (by cases k <;> rfl) hm
      | some r =>
        rw [ho] at hm
        rcases writeReg_cases s r v with e | ⟨-, e⟩ | ⟨-, e⟩ | ⟨-, -, e⟩ | ⟨-, -, e⟩ | ⟨-, e⟩ | ⟨-, e⟩ <;>
          simp only [e] at hm <;> exact absurd (by cases k <;> rfl) hm
    | mem k' o =>
      rw [hr] at hm
      simp only at hm
      split at hm
      · exact absurd (by cases k <;> rfl) hm
      rename_i hb
      split at hm
      · exact absurd (by cases k <;> rfl) hm
      rename_i hn
      have hk : k = k' ∧ k ≠ .tw := by
        cases k <;> cases k' <;> first | exact ⟨rfl, by decide⟩ | exact absurd rfl hm
      obtain ⟨rfl, hk⟩ := hk
      obtain ⟨ha, ho⟩ := regionOf_mem_eq (by omega) hr
      refine ⟨by simpa using hb, hk, o, v, ?_, regionOf_mem_aligned hr hal.2, ho, by omega⟩
      rw [hal.1, Nat.add_assoc, ← ha, Nat.add_sub_cancel' hin.1]

end Sys2Proof.Machine
end

