-- ==== Sys2Proof/Laws/PerInstr.lean ====
section
/-! SUPPORT. What holds of every command as syntax, one lemma per constructor: its word's RSVD bits are 0 and it is well
formed (30_encoding.md R111, R112). -/

namespace Sys2Proof.Laws.ReservedBitsZero

/-- The word of the command has RSVD = 0, and the command is well formed. -/
def Statement (i : Instr) : Prop := rsvdField (encode i) = 0 ∧ i.wf = true

theorem configure : Statement .configure := by unfold Statement; decide
theorem forward : Statement .forward := by unfold Statement; decide
theorem inverse : Statement .inverse := by unfold Statement; decide
theorem realForward : Statement .realForward := by unfold Statement; decide
theorem realSpectrum : Statement .realSpectrum := by unfold Statement; decide
theorem inverseReal : Statement .inverseReal := by unfold Statement; decide
theorem loadComplex : Statement .loadComplex := by unfold Statement; decide
theorem loadReal : Statement .loadReal := by unfold Statement; decide
theorem bitrev : Statement .bitrev := by unfold Statement; decide
theorem butterflyFwd : Statement .butterflyFwd := by unfold Statement; decide
theorem butterflyInv : Statement .butterflyInv := by unfold Statement; decide
theorem scaleInv : Statement .scaleInv := by unfold Statement; decide

end Sys2Proof.Laws.ReservedBitsZero
end

