-- ==== Sys2Proof/Tests/Slice0.lean ====
section
/-! SUPPORT. Small tests: what WellFormed refuses, the words of 30_encoding.md, one step per command with the results of
95_test_vectors.md, the bus vectors, and for every statement with hypotheses a state that meets them. -/

set_option Elab.async false

namespace Sys2Proof.Tests

open Sys2Proof.Machine

/-! ### Helpers -/

theorem not_ok {w : Word} {e : DecodeReject} (h : decodeWord w = .error e) (i : Instr) : decodeWord w ≠ .ok i :=
  fun h' => nomatch h.symm.trans h'

/-- Consecutive entries from index `e`, written into a memory. -/
def putEntries (f : SampleFmt) : Nat → List (Nat × Nat) → Memory → Memory
  | _, [], m => m
  | e, v :: l, m => putEntries f (e + 1) l (m.writeEntry f e ⟨BitVec.ofNat _ v.1, BitVec.ofNat _ v.2⟩)

/-- A memory of the entries listed from index 0. -/
def mem (f : SampleFmt) (l : List (Nat × Nat)) : Memory := putEntries f 0 l []

/-- The entries of a memory from index 0 are those listed. -/
def holds (f : SampleFmt) (m : Memory) (l : List (Nat × Nat)) : Bool :=
  (List.range l.length).map (fun e => m.readEntry f e)
    == l.map (fun v => some ⟨BitVec.ofNat _ v.1, BitVec.ofNat _ v.2⟩)

/-- A check of the next state; false at a fault or a refusal. -/
def nextIs (o : Host.Outcome State Fault Refusal) (q : State → Bool) : Bool :=
  match o with
  | .next t => q t
  | _ => false

/-- The step stops with this fault. -/
def faultIs (o : Host.Outcome State Fault Refusal) (r : Fault) : Bool :=
  match o with
  | .fault r' => decide (r' = r)
  | _ => false

theorem exists_next {o : Host.Outcome State Fault Refusal} {q : State → Bool} (h : nextIs o q = true) :
    ∃ t, o = .next t ∧ q t = true := by
  cases o with
  | next t => exact ⟨t, rfl, h⟩
  | fault r => cases h
  | refused r => cases h

theorem eq_fault {o : Host.Outcome State Fault Refusal} {r : Fault} (h : faultIs o r = true) : o = .fault r := by
  cases o with
  | next t => cases h
  | fault r' => exact congrArg _ (of_decide_eq_true h)
  | refused r' => cases h

/-- The tables `TW-1`, `TW-2` and `TW-4` of 95_test_vectors.md, section 2.1, on a memory of four entries. -/
def tw32 : Nat → List (Nat × Nat)
  | 0 => [(0, 0), (0, 0), (0, 0), (0, 0)]
  | 1 => [(0x3F800000, 0), (0x3F800000, 0), (0, 0), (0, 0)]
  | _ => [(0x3F800000, 0), (0, 0xBF800000), (0x3F800000, 0), (0, 0x3F800000)]

/-- An F32 block with `LOG2_NMAX = 2`, configured with `N = 2^m`, with command `i` in flight. -/
def block (i : Instr) (m inLen : Nat) (inp work : List (Nat × Nat)) : State :=
  { State.afterReset { fmt := .f32, log2Nmax := 2, base := 0x400000 } [] with
    configured := true
    busy := true
    n := 2 ^ m
    log2n := m
    lastCmd := encode i
    latch := { word := encode i, cfg := 0, inlen := BitVec.ofNat 32 inLen, reject := false }
    inMem := mem .f32 inp
    workMem := mem .f32 work
    twMem := mem .f32 (tw32 m) }

/-- An unconfigured F32 block of `NMAX = 16` with a CONFIGURE of length `len` in flight. -/
def configuring (len : Word) : State :=
  { State.reset with busy := true, lastCmd := 1, latch := { word := 1, cfg := len, inlen := 0, reject := false } }

/-! ### WellFormed refuses each ill-formed term -/

theorem test_wf_config_nmax : Config.wf { fmt := .f32, log2Nmax := 17, base := 0 } = false := by decide
theorem test_wf_config_base : Config.wf { fmt := .f64, log2Nmax := 4, base := 4 } = false := by decide
theorem test_wf_config_legal : Config.wf { fmt := .f64, log2Nmax := 16, base := 0x400000 } = true := by decide
theorem test_wf_access_below : Access.wf { fmt := .f32, log2Nmax := 4, base := 0x400000 } (.read 0x3FFFFC .w32) = false := by decide
theorem test_wf_access_above : Access.wf Config.shown (.read 0x400000 .w32) = false := by decide
theorem test_wf_access_width : Access.wf Config.shown (.read 0x010 .w16) = false := by decide
theorem test_wf_access_aligned : Access.wf Config.shown (.write 0x012 .w32 0) = false := by decide
theorem test_wf_script_offset : ScriptOp.wf Config.shown (.wr 0x400000 0) = false := by decide
theorem test_wf_script_aligned : ScriptOp.wf Config.shown (.rd 0x012) = false := by decide
theorem test_wf_script_entry : ScriptOp.wf Config.shown (.ldin 16 0 0) = false := by decide
theorem test_wf_script_pattern : ScriptOp.wf Config.shown (.ldwork 0 0 0x100000000) = false := by decide

/-! ### Decoding: every command's word of R113, bit by bit, and the illegal words ILL-1 to ILL-7 -/

theorem test_decode_configure : decodeWord 0b00000000000000000000000000000001#32 = .ok .configure := by rfl
theorem test_decode_forward : decodeWord 0b00000000000000000000000000000010#32 = .ok .forward := by rfl
theorem test_decode_inverse : decodeWord 0b00000000000000000000000000000011#32 = .ok .inverse := by rfl
theorem test_decode_real_forward : decodeWord 0b00000000000000000000000000000100#32 = .ok .realForward := by rfl
theorem test_decode_real_spectrum : decodeWord 0b00000000000000000000000000000101#32 = .ok .realSpectrum := by rfl
theorem test_decode_inverse_real : decodeWord 0b00000000000000000000000000000110#32 = .ok .inverseReal := by rfl
theorem test_decode_load_complex : decodeWord 0b00000000000000000000000000010000#32 = .ok .loadComplex := by rfl
theorem test_decode_load_real : decodeWord 0b00000000000000000000000000010001#32 = .ok .loadReal := by rfl
theorem test_decode_bitrev : decodeWord 0b00000000000000000000000000010010#32 = .ok .bitrev := by rfl
theorem test_decode_butterfly_fwd : decodeWord 0b00000000000000000000000000010011#32 = .ok .butterflyFwd := by rfl
theorem test_decode_butterfly_inv : decodeWord 0b00000000000000000000000000010100#32 = .ok .butterflyInv := by rfl
theorem test_decode_scale_inv : decodeWord 0b00000000000000000000000000010101#32 = .ok .scaleInv := by rfl

theorem test_decode_ill_zero : decodeWord 0x00000000 = .error .opcodeZero := by rfl
theorem test_decode_ill_facade : decodeWord 0x00000007 = .error .reservedFacade ∧ decodeWord 0x0000000F = .error .reservedFacade :=
  ⟨rfl, rfl⟩
theorem test_decode_ill_primitive :
    decodeWord 0x00000016 = .error .reservedPrimitive ∧ decodeWord 0x000000FF = .error .reservedPrimitive := ⟨rfl, rfl⟩
theorem test_decode_ill_reserved : decodeWord 0x00000101 = .error .reservedBits ∧ decodeWord 0xFFFFFFFF = .error .reservedBits :=
  ⟨rfl, rfl⟩
theorem test_decode_truncated : decodeBytes [0x01, 0x00, 0x00] = .error .truncated := by rfl
theorem test_decode_bytes : decodeBytes [0x13, 0x00, 0x00, 0x00, 0x77] = .ok (.butterflyFwd, [0x77]) := by rfl
theorem test_decode_table_word : decodeTableWord 32 0x12 = some .bitrev ∧ decodeTableWord 32 0x102 = none := ⟨rfl, rfl⟩

/-! ### One step of each command, results from 95_test_vectors.md -/

/-- CFG-2 with the table TW-2. -/
theorem test_configure_two : nextIs (exec .configure (configuring 2)) (fun t =>
    decide (t.n = 2 ∧ t.log2n = 1 ∧ t.outLen = 0 ∧ t.statusWord = 0x42) && holds .f32 t.twMem (tw32 1))
      = true := by decide +kernel

/-- TW-8 in F64, entries 1 and 6. -/
theorem test_twiddle_f64 : canon .f64 3 1 = ⟨0x3FE6A09E667F3BCD, 0xBFE6A09E667F3BCD⟩ ∧
    anti .f64 3 2 = ⟨0x0000000000000000, 0x3FF0000000000000⟩ := by decide +kernel

/-- CFG-7, CFG-9 and CFG-10. -/
theorem test_configure_fails :
    nextIs (exec .configure (configuring 0)) (fun t => decide (t.errCode.code = 2 ∧ t.statusWord = 0x06)) = true ∧
    nextIs (exec .configure (configuring 0x80000000)) (fun t => decide (t.errCode.code = 2)) = true ∧
    nextIs (exec .configure (configuring 17)) (fun t => decide (t.errCode.code = 3 ∧ t.n = 0)) = true := by decide +kernel

/-- FWD-1. -/
theorem test_forward : nextIs
    (exec .forward (block .forward 2 4 [(0x3F800000, 0), (0x40000000, 0), (0x40400000, 0), (0x40800000, 0)] []))
    (fun t => holds .f32 t.workMem
      [(0x41200000, 0), (0xC0000000, 0x40000000), (0xC0000000, 0), (0xC0000000, 0xC0000000)] && decide (t.outLen = 4))
      = true := by decide +kernel

/-- FWD-5: N = 1 moves the entry bit for bit. -/
theorem test_forward_one : nextIs (exec .forward (block .forward 0 1 [(0x80000000, 0x40A00000)] []))
    (fun t => holds .f32 t.workMem [(0x80000000, 0x40A00000)] && decide (t.outLen = 1)) = true := by decide +kernel

/-- INV-1. -/
theorem test_inverse : nextIs (exec .inverse (block .inverse 2 4
    [(0x41200000, 0), (0xC0000000, 0x40000000), (0xC0000000, 0), (0xC0000000, 0xC0000000)] []))
    (fun t => holds .f32 t.workMem [(0x3F800000, 0), (0x40000000, 0), (0x40400000, 0), (0x40800000, 0)]) = true := by
  decide +kernel

/-- FWD-1's input as real values, the imaginary components garbage (R206). -/
theorem test_real_forward : nextIs
    (exec .realForward (block .realForward 2 4 [(0x3F800000, 9), (0x40000000, 9), (0x40400000, 9), (0x40800000, 9)] []))
    (fun t => holds .f32 t.workMem
      [(0x41200000, 0), (0xC0000000, 0x40000000), (0xC0000000, 0), (0xC0000000, 0xC0000000)]) = true := by decide +kernel

/-- SP-4. -/
theorem test_real_spectrum : nextIs (exec .realSpectrum (block .realSpectrum 1 2 [(0x3F800000, 0), (0x40400000, 0)] []))
    (fun t => holds .f32 t.workMem [(0x40800000, 0), (0x40000000, 0)] && decide (t.outLen = 2)) = true := by decide +kernel

/-- SP-2: the entries above `N/2` become `(+0, +0)`. -/
theorem test_real_spectrum_constant : nextIs (exec .realSpectrum (block .realSpectrum 2 4
    [(0x3F800000, 0), (0x3F800000, 0), (0x3F800000, 0), (0x3F800000, 0)] []))
    (fun t => holds .f32 t.workMem [(0x40000000, 0), (0, 0), (0, 0), (0, 0)] && decide (t.outLen = 3)) = true := by
  decide +kernel

/-- IR-2. -/
theorem test_inverse_real : nextIs (exec .inverseReal (block .inverseReal 2 4 [(0, 0x40800000), (0, 0), (0, 0), (0, 0)] []))
    (fun t => holds .f32 t.workMem [(0, 0), (0, 0), (0, 0), (0, 0)]) = true := by decide +kernel

/-- LD-5: a bit-exact copy. -/
theorem test_load_complex : nextIs
    (exec .loadComplex (block .loadComplex 1 2 [(0x7F800001, 0x80000000), (0x00000001, 0x7FC12345)] []))
    (fun t => holds .f32 t.workMem [(0x7F800001, 0x80000000), (0x00000001, 0x7FC12345)]) = true := by decide +kernel

/-- As LD-2 with N = 2: truncation sets SIZE_WARN. -/
theorem test_load_complex_truncates : nextIs (exec .loadComplex (block .loadComplex 1 3 [(1, 2), (3, 4), (5, 6)] [(7, 7), (7, 7), (8, 8)]))
    (fun t => holds .f32 t.workMem [(1, 2), (3, 4), (8, 8)] && decide (t.statusWord = 0x4A)) = true := by decide +kernel

/-- LD-6, with padding after two entries. -/
theorem test_load_real : nextIs (exec .loadReal (block .loadReal 2 2 [(0x80000000, 9), (0x40400000, 0x7FC00000)] []))
    (fun t => holds .f32 t.workMem [(0x80000000, 0), (0x40400000, 0), (0, 0), (0, 0)]) = true := by decide +kernel

/-- BR-4. -/
theorem test_bitrev : nextIs (exec .bitrev (block .bitrev 2 0 []
    [(0x7FC00001, 0x80000000), (0x3F800000, 0x3F800000), (0x80000000, 0), (0x7F800000, 0x40000000)]))
    (fun t => holds .f32 t.workMem
      [(0x7FC00001, 0x80000000), (0x80000000, 0), (0x3F800000, 0x3F800000), (0x7F800000, 0x40000000)]) = true := by
  decide +kernel

/-- BF-4: signed zeros. -/
theorem test_butterfly_fwd : nextIs
    (exec .butterflyFwd (block .butterflyFwd 1 0 [] [(0x3F800000, 0x80000000), (0x40000000, 0x80000000)]))
    (fun t => holds .f32 t.workMem [(0x40400000, 0), (0xBF800000, 0x80000000)]) = true := by decide +kernel

/-- BF-5: infinity times zero. -/
theorem test_butterfly_fwd_infinite : nextIs (exec .butterflyFwd (block .butterflyFwd 1 0 [] [(0, 0), (0x7F800000, 0)]))
    (fun t => holds .f32 t.workMem [(0x7F800000, 0x7FC00000), (0xFF800000, 0x7FC00000)] && decide (t.errCode = .ok)) = true := by
  decide +kernel

/-- BF-3. -/
theorem test_butterfly_inv : nextIs (exec .butterflyInv (block .butterflyInv 2 0 []
    [(0x41200000, 0), (0xC0000000, 0), (0xC0000000, 0x40000000), (0xC0000000, 0xC0000000)]))
    (fun t => holds .f32 t.workMem [(0x40800000, 0), (0x41000000, 0), (0x41400000, 0), (0x41800000, 0)]) = true := by
  decide +kernel

/-- SC-2: halving subnormals. -/
theorem test_scale_inv : nextIs
    (exec .scaleInv (block .scaleInv 1 0 [] [(0x00000001, 0x00000003), (0x80000001, 0x80000003)]))
    (fun t => holds .f32 t.workMem [(0, 2), (0x80000000, 0x80000002)]) = true := by decide +kernel

/-- ERR-1: an unconfigured block, and no memory is read. -/
theorem test_not_configured : nextIs (exec .scaleInv State.reset) (fun t => decide (t.errCode.code = 4 ∧ t.outLen = 0)) = true := by
  decide +kernel

/-- A command that consumes an entry nobody wrote stops (R286). -/
theorem test_unwritten : faultIs (exec .scaleInv (block .scaleInv 1 0 [] [(0, 0)])) (.unwritten .work 8) = true := by
  decide +kernel

/-! ### The bus, the protocol and reset -/

/-- REG-1, the second configuration. -/
theorem test_reg_caps : (State.afterReset { fmt := .f64, log2Nmax := 10, base := 0 } []).readReg .caps = 0x0000010A := by decide

/-- REG-2: CTRL keeps three bits, a reserved offset ignores the write. -/
theorem test_reg_ctrl : nextIs (hostAccess State.reset (.write 0x00C .w32 0xFFFFFFFF))
    (fun t => decide (t.readReg .ctrl = 0x00000007)) = true := by decide +kernel

/-- REG-3: 16 bits wide, and misaligned in a window. -/
theorem test_reg_bus_error :
    nextIs (hostAccess State.reset (.read 0x010 .w16)) (fun t => decide (t = { State.reset with resp := .busError })) = true ∧
    nextIs (hostAccess State.reset (.write 0x100002 .w32 1)) (fun t => decide (t = { State.reset with resp := .busError })) = true := by
  decide +kernel

/-- REG-4: entry 16 of 16. -/
theorem test_reg_beyond : nextIs (hostAccess State.reset (.read 0x100080 .w32))
    (fun t => decide (t = { State.reset with resp := .data 0 })) = true := by decide +kernel

/-- ISS-1 and ISS-2. -/
theorem test_issue : nextIs (hostAccess { State.reset with done := true, sizeWarn := true, configured := true } (.write 0x014 .w32 2))
    (fun t => decide (t.statusWord = 0x49 ∧ t.lastCmd = 2) &&
      nextIs (hostAccess t (.write 0x014 .w32 3)) (fun u => decide (u.overrun = true ∧ u.lastCmd = 2))) = true := by decide +kernel

/-- ISS-4: `wr STATUS, 0x04` on 0x7E. -/
theorem test_w1c : (({ State.reset with
    done := true, err := true, sizeWarn := true, overrun := true, accessErr := true, configured := true } : State).w1c 0x04).statusWord
      = 0x7A := by decide

/-- RST-1. -/
theorem test_reset_abandons : nextIs (step { configuring 4 with pending := [.rst] }) (fun t =>
    decide (t.statusWord = 0 ∧ t.lastCmd = 0 ∧ t.irq = false)) = true := by decide +kernel

/-- ISS-7: half of an F64 component is replaced. -/
theorem test_f64_half_write :
    ((mem .f64 [(0x3FF0000000000000, 0)]).writeWord 0 0x00000001).readRe .f64 0 = some (0x3FF0000000000001 : BitVec 64) := by
  decide +kernel

/-- A word in flight is run by the very next step. -/
theorem test_fetch : nextIs (step (State.reset.withFetchWord 32 0x15)) (fun t => decide (t.lastCmd = 0x15 ∧ t.errCode.code = 4))
    = true := by decide +kernel

/-! ### Witnesses: a state and operands that meet the hypotheses of each statement that has some

Each is named after its statement and shows the hypotheses together, per clause, at a boundary where the clause has a range. -/

/-- An idle configured block of `N = 2` with two entries in IN and IN_LEN = 2. -/
def idle : State := { block .forward 1 2 [(0x3F800000, 0), (0x40400000, 0)] [] with busy := false, inLen := 2 }

theorem witness_IllegalWordsAreAcceptedAndFail :
    (∀ i, decodeWord 0x00000007 ≠ .ok i) ∧ (∀ i, decodeWord 0x0000000F ≠ .ok i) ∧ (∀ i, decodeWord 0x00000016 ≠ .ok i) ∧
    (∀ i, decodeWord 0x00000101 ≠ .ok i) ∧ idle.busy = false ∧
    (idle.acceptCmd 0x16).busy = true ∧ (idle.acceptCmd 0x16).latch.word = 0x16 := by
  exact ⟨not_ok test_decode_ill_facade.1, not_ok test_decode_ill_facade.2, not_ok test_decode_ill_primitive.1,
    not_ok test_decode_ill_reserved.1, rfl, rfl, rfl⟩

theorem witness_StepRunsTheDecodedCommand :
    let s := block .bitrev 1 0 [] []
    s.busy = true ∧ decodeWord s.latch.word = .ok .bitrev ∧ s.pending = [] ∧
      ({ s with pending := [.controller, .rst] } : State).pending = .controller :: [.rst] := ⟨rfl, rfl, rfl, rfl⟩

theorem witness_StepTakesTheNextEvent :
    ({ idle with pending := [.host (.read 0x400010 .w32)] } : State).pending = .host (.read 0x400010 .w32) :: [] ∧
    ({ idle with pending := [.rst, .controller] } : State).pending = .rst :: [.controller] ∧
    ({ idle with pending := [.controller] } : State).pending = .controller :: [] ∧ idle.pending = [] ∧ idle.busy = false :=
  ⟨rfl, rfl, rfl, rfl, rfl⟩

theorem witness_BusyCommandCompletesOrStopsUnlessReset :
    let s := { block .bitrev 1 0 [] [] with pending := [.host (.read 0x500000 .w32), .controller] }
    s.busy = true ∧ ∀ e ∈ s.pending, e ≠ .rst := by decide

theorem witness_FirstFailingCheckGivesTheCode :
    (configuring 17).busy = true ∧ (∃ t, controllerTurn (configuring 17) = .next t) ∧ priorityCode (configuring 17) = .capacity := by
  obtain ⟨t, ht, -⟩ := exists_next (o := controllerTurn (configuring 17)) (q := fun _ => true) (by decide +kernel)
  exact ⟨rfl, ⟨t, ht⟩, by decide +kernel⟩

theorem witness_FailedCommandsChangeOnlyTheOutcome :
    State.reset.validate .bitrev ≠ .ok ∧ (configuring 0).busy = true ∧ priorityCode (configuring 0) ≠ .ok := by decide +kernel

/-- A next state of a command exists, for the statements about every next state. -/
theorem witness_EveryCompletionRecordsItsOutcome : (∃ t, exec .configure (configuring 1) = .next t) ∧
    (∃ t, exec .scaleInv State.reset = .next t ∧ t.errCode ≠ .ok) := by
  obtain ⟨t, ht, -⟩ := exists_next (o := exec .configure (configuring 1)) (q := fun _ => true) (by decide +kernel)
  obtain ⟨u, hu, he⟩ := exists_next (o := exec .scaleInv State.reset) (q := fun u => decide (u.errCode ≠ .ok)) (by decide +kernel)
  exact ⟨⟨t, ht⟩, ⟨u, hu, of_decide_eq_true he⟩⟩

theorem witness_OversizeInputIsRejectedOrTruncatedWithWarning :
    let s := block .loadReal 1 3 [(0, 0), (0, 0)] []
    isLoading .loadReal = true ∧ s.configured = true ∧ s.n < s.lin ∧ s.latch.reject = false ∧
      (∃ t, exec .loadReal s = .next t) ∧
      ({ s with latch := { s.latch with reject := true } } : State).latch.reject = true := by
  obtain ⟨t, ht, -⟩ := exists_next (o := exec .loadReal (block .loadReal 1 3 [(0, 0), (0, 0)] [])) (q := fun _ => true)
    (by decide +kernel)
  exact ⟨rfl, rfl, by decide +kernel, rfl, ⟨t, ht⟩, rfl⟩

theorem witness_OutLenNamesTheResultLength :
    (configuring 0).busy = true ∧ (∃ t, controllerTurn (configuring 0) = .next t ∧ t.errCode ≠ .ok) ∧
    (configuring 0).validate .configure ≠ .ok ∧ (configuring 16).validate .configure = .ok ∧
    (∃ t, exec .bitrev (block .bitrev 1 0 [] []) = .next t) ∧ (block .bitrev 1 0 [] []).validate .bitrev = .ok := by
  obtain ⟨t, ht, he⟩ := exists_next (o := controllerTurn (configuring 0)) (q := fun u => decide (u.errCode ≠ .ok)) (by decide +kernel)
  obtain ⟨u, hu, -⟩ := exists_next (o := exec .bitrev (block .bitrev 1 0 [] [])) (q := fun _ => true) (by decide +kernel)
  exact ⟨rfl, ⟨t, ht, of_decide_eq_true he⟩, by decide +kernel, by decide +kernel, ⟨u, hu⟩, by decide +kernel⟩

/-- The lengths 1, NMAX, 0 and NMAX + 1. -/
theorem witness_ConfigureSetsLengthAndTable :
    (0 < (configuring 1).reqLen ∧ (configuring 1).reqLen ≤ (configuring 1).cfg.nmax) ∧
    (0 < (configuring 16).reqLen ∧ (configuring 16).reqLen ≤ (configuring 16).cfg.nmax) ∧
    (configuring 0).reqLen ≤ 0 ∧ ((configuring 17).cfg.nmax : Int) < (configuring 17).reqLen := by decide +kernel

theorem witness_FailedConfigureKeepsThePreviousConfiguration :
    (configuring 0).busy = true ∧ (configuring 0).latch.word = 0x00000001 ∧ (configuring 0).reqLen ≤ 0 ∧
    ((configuring 17).cfg.nmax : Int) < (configuring 17).reqLen ∧
    (∀ i, decodeWord (idle.acceptCmd 0x16).latch.word ≠ .ok i) := by
  exact ⟨rfl, rfl, by decide +kernel, by decide +kernel, not_ok test_decode_ill_primitive.1⟩

theorem witness_ConfiguredTableForgetsThePast :
    let s := configuring 2
    let s' := { configuring 2 with twMem := mem .f32 [(7, 8)], configured := true, n := 1 }
    s.cfg = s'.cfg ∧ s.latch.cfg = s'.latch.cfg ∧ 0 < s.reqLen ∧ s.reqLen ≤ s.cfg.nmax ∧
      s.twMem.wf ∧ s.twMem.below s.cfg.memBytes ∧ s'.twMem.wf ∧ s'.twMem.below s'.cfg.memBytes ∧
      (∃ t, exec .configure s = .next t) ∧ ∃ t', exec .configure s' = .next t' := by
  obtain ⟨t, ht, -⟩ := exists_next (o := exec .configure (configuring 2)) (q := fun _ => true) (by decide +kernel)
  obtain ⟨u, hu, -⟩ := exists_next
    (o := exec .configure { configuring 2 with twMem := mem .f32 [(7, 8)], configured := true, n := 1 })
    (q := fun _ => true) (by decide +kernel)
  exact ⟨rfl, rfl, by decide +kernel, by decide +kernel, by decide +kernel, by decide +kernel, by decide +kernel,
    by decide +kernel, ⟨t, ht⟩, ⟨u, hu⟩⟩

theorem witness_TwiddleTableSymmetries :
    2 ≤ 2 ∧ (1 ≤ 3 ∧ 1 < 2 ^ (3 - 1) ∧ 0 < 1 ∧ 4 * 1 ≠ 2 ^ 3 ∧ 3 ≤ 3 ∧ 4 * 1 < 2 ^ 3 ∧ 3 ≤ 16) ∧
      (1 ≤ 1 ∧ 0 < 2 ^ (1 - 1)) := by decide

theorem witness_TwiddlesToSixteenAreCorrectlyRounded : 1 ≤ 4 ∧ 4 ≤ 4 ∧ 7 < 2 ^ (4 - 1) := by decide

theorem witness_TwiddlesAreNearestUpToATinyError :
    1 ≤ 16 ∧ 16 ≤ 16 ∧ 2 ^ 15 - 1 < 2 ^ (16 - 1) ∧ isFinite (0x7F7FFFFF : Comp .f32) = true := by decide

theorem compVal_pow {x : Comp .f32} {k : Nat} (h : toUnits x = 2 ^ k) : compVal x = 2 ^ k / 2 ^ 149 := by
  simp [compVal, h, show unitExp .f32 = 149 from rfl]

theorem witness_ArithmeticRoundsTheExactResultOnce :
    isFinite (0x7F7FFFFF : Comp .f32) = true ∧ isFinite (0x00000001 : Comp .f32) = true ∧ isZero (0x00000001 : Comp .f32) = false ∧
      0 ≤ compVal (0x00000001 : Comp .f32) := by
  refine ⟨by decide, by decide, by decide, ?_⟩
  rw [compVal_pow (k := 0) (by decide)]
  positivity

theorem witness_NaNResultsAreCanonical :
    isNaN (0x7F800001 : Comp .f32) = true ∧ isInf (0x7F800000 : Comp .f32) = true ∧ isInf (0xFF800000 : Comp .f32) = true ∧
    signOf (0x7F800000 : Comp .f32) ≠ signOf (0xFF800000 : Comp .f32) ∧ isZero (0x80000000 : Comp .f32) = true ∧
    signOf (0x80000001 : Comp .f32) = true ∧ isZero (0x80000001 : Comp .f32) = false ∧
    isNaN (fsqrt (0x80000001 : Comp .f32)) = true := by decide +kernel

theorem witness_SignedZerosAndInfinities :
    isFinite (0x00000001 : Comp .f32) = true ∧ isZero (0x00000001 : Comp .f32) = false ∧ isZero (0x80000000 : Comp .f32) = true ∧
    isInf (0xFF800000 : Comp .f32) = true ∧ signOf (0xFF800000 : Comp .f32) = true ∧ isZero (0xFF800000 : Comp .f32) = false := by
  decide +kernel

/-- `2^-110` and `m = 16`: the quotient is the least normal number. -/
theorem witness_PowerOfTwoScalingIsExact :
    16 ≤ 16 ∧ isFinite (0x08800000 : Comp .f32) = true ∧
    1 / 2 ^ (SampleFmt.f32.bias - 1) ≤ |compVal (0x08800000 : Comp .f32) / 2 ^ 16| ∧
    1 / 2 ^ (SampleFmt.f32.bias - 1) ≤ |compVal (0x08800000 : Comp .f32) * (2 / 2 ^ 16)| ∧
    |compVal (0x08800000 : Comp .f32) * (2 / 2 ^ 16)| < overflowAt .f32 := by
  rw [compVal_pow (k := 39) (by decide)]
  refine ⟨le_rfl, by decide, ?_, ?_, ?_⟩ <;> norm_num [overflowAt, SampleFmt.bias, SampleFmt.fracBits]

theorem witness_IndexPrimitives : 0 < 1 ∧ 15 < 16 ∧ 1 ≤ 1 ∧ 1 ≤ 2 ^ 0 := by decide

theorem witness_LoadComplexCopiesAndPads :
    let s := block .loadComplex 2 3 [(1, 2), (3, 4), (5, 6)] []
    MayLoad s ∧ s.inMem.IsArray s.cfg.fmt s.loadCount (fun i => ⟨BitVec.ofNat 32 (2 * i + 1), BitVec.ofNat 32 (2 * i + 2)⟩) := by
  unfold MayLoad Memory.IsArray
  decide +kernel

/-- The error clauses of every loading command: not configured, and `Lin = N + 1` under policy 1. -/
theorem witness_LoadErrors :
    let s := { block .loadComplex 1 3 [] [] with latch := { word := 0x10, cfg := 0, inlen := 3, reject := true } }
    State.reset.configured = false ∧ s.configured = true ∧ s.n < s.lin ∧ s.latch.reject = true := by decide +kernel

theorem witness_LoadRealPromotesAndPads :
    let s := block .loadReal 2 5 [(1, 0), (2, 0), (3, 0), (4, 0)] []
    MayLoad s ∧ s.inMem.IsRealArray s.cfg.fmt s.loadCount (fun i => BitVec.ofNat 32 (i + 1)) := by
  unfold MayLoad Memory.IsRealArray
  decide +kernel

/-- The swapped entries 1 and 2 are written, the others not. -/
theorem witness_BitReversalMovesEveryEntry :
    let s := { block .bitrev 2 0 [] [] with workMem := putEntries .f32 1 [(1, 2), (3, 4)] [] }
    State.reset.configured = false ∧ s.configured = true ∧ PowerLength s ∧
      ∀ i, i < s.n → rev s.log2n i ≠ i → (s.workMem.readEntry s.cfg.fmt i).isSome = true := by
  unfold PowerLength
  decide +kernel

theorem witness_BitReversalTwiceRestoresWork :
    let s := { block .bitrev 2 0 [] [] with workMem := putEntries .f32 1 [(1, 2), (3, 4)] [] }
    s.configured = true ∧ PowerLength s ∧ s.workMem.wf ∧
      ∀ i, i < s.n → rev s.log2n i ≠ i → (s.workMem.readEntry s.cfg.fmt i).isSome = true := by
  unfold PowerLength
  decide +kernel

theorem witness_ForwardButterfliesComputeThePasses :
    let s := block .butterflyFwd 1 0 [] [(1, 2), (3, 4)]
    s.configured = true ∧ PowerLength s ∧
      (s.log2n ≠ 0 → s.workMem.IsArray s.cfg.fmt s.n (fun i => ⟨BitVec.ofNat 32 (2 * i + 1), BitVec.ofNat 32 (2 * i + 2)⟩)) ∧
      s.twMem.IsArray s.cfg.fmt (s.n / 2) (fun _ => ⟨0x3F800000#32, 0#32⟩) ∧
      PowerLength (block .butterflyFwd 0 0 [] []) ∧ (block .butterflyFwd 0 0 [] []).log2n = 0 := by
  unfold PowerLength Memory.IsArray
  decide +kernel

theorem witness_InverseButterfliesComputeThePasses :
    let s := block .butterflyInv 1 0 [] [(1, 2), (3, 4)]
    s.configured = true ∧ PowerLength s ∧
      (s.log2n ≠ 0 → s.workMem.IsArray s.cfg.fmt s.n (fun i => ⟨BitVec.ofNat 32 (2 * i + 1), BitVec.ofNat 32 (2 * i + 2)⟩)) ∧
      (∀ k, k < s.n / 2 → s.twMem.readEntry s.cfg.fmt (s.n / 2 + k) = some ⟨0x3F800000#32, 0#32⟩) := by
  unfold PowerLength Memory.IsArray
  decide +kernel

theorem witness_ScaleDividesEveryComponent :
    let s := block .scaleInv 1 0 [] [(1, 2), (3, 4)]
    s.configured = true ∧
      s.workMem.IsArray s.cfg.fmt s.n (fun i => ⟨BitVec.ofNat 32 (2 * i + 1), BitVec.ofNat 32 (2 * i + 2)⟩) := by
  unfold Memory.IsArray
  decide +kernel

/-- The hypotheses of the transforms of complex input, forward and inverse. -/
theorem witness_ForwardTransformsThePaddedInput :
    let s := block .forward 1 2 [(1, 2), (3, 4)] []
    MayLoad s ∧ PowerLength s ∧
      s.inMem.IsArray s.cfg.fmt s.loadCount (fun i => ⟨BitVec.ofNat 32 (2 * i + 1), BitVec.ofNat 32 (2 * i + 2)⟩) ∧
      s.twMem.IsArray s.cfg.fmt (s.n / 2) (fun _ => ⟨0x3F800000#32, 0#32⟩) := by
  unfold MayLoad PowerLength Memory.IsArray
  decide +kernel

/-- The hypotheses of INVERSE and of INVERSE_REAL. -/
theorem witness_InverseTransformsAndScales :
    let s := block .inverse 1 3 [(1, 2), (3, 4)] []
    MayLoad s ∧ PowerLength s ∧
      s.inMem.IsArray s.cfg.fmt s.loadCount (fun i => ⟨BitVec.ofNat 32 (2 * i + 1), BitVec.ofNat 32 (2 * i + 2)⟩) ∧
      (∀ k, k < s.n / 2 → s.twMem.readEntry s.cfg.fmt (s.n / 2 + k) = some ⟨0x3F800000#32, 0#32⟩) := by
  unfold MayLoad PowerLength Memory.IsArray
  decide +kernel

theorem witness_InverseRealKeepsTheRealParts :
    let s := block .inverseReal 0 0 [] []
    MayLoad s ∧ PowerLength s ∧ s.inMem.IsArray s.cfg.fmt s.loadCount (fun _ => ⟨0#32, 0#32⟩) ∧
      (∀ k, k < s.n / 2 → s.twMem.readEntry s.cfg.fmt (s.n / 2 + k) = some ⟨0#32, 0#32⟩) := by
  unfold MayLoad PowerLength Memory.IsArray
  decide +kernel

/-- The hypotheses of REAL_FORWARD and of REAL_SPECTRUM. -/
theorem witness_RealForwardTransformsTheRealParts :
    let s := block .realForward 1 2 [(1, 0), (2, 0)] []
    MayLoad s ∧ PowerLength s ∧ s.inMem.IsRealArray s.cfg.fmt s.loadCount (fun i => BitVec.ofNat 32 (i + 1)) ∧
      s.twMem.IsArray s.cfg.fmt (s.n / 2) (fun _ => ⟨0x3F800000#32, 0#32⟩) := by
  unfold MayLoad PowerLength Memory.IsRealArray Memory.IsArray
  decide +kernel

theorem witness_RealSpectrumLeavesScaledMagnitudes :
    let s := block .realSpectrum 1 1 [(1, 0)] []
    MayLoad s ∧ PowerLength s ∧ s.inMem.IsRealArray s.cfg.fmt s.loadCount (fun i => BitVec.ofNat 32 (i + 1)) ∧
      s.twMem.IsArray s.cfg.fmt (s.n / 2) (fun _ => ⟨0x3F800000#32, 0#32⟩) := by
  unfold MayLoad PowerLength Memory.IsRealArray Memory.IsArray
  decide +kernel

theorem witness_RealForwardIsForwardOfThePromotedInput :
    let s := block .realForward 1 2 [(1, 9), (2, 9)] []
    s.inMem.IsRealArray s.cfg.fmt s.loadCount (fun i => BitVec.ofNat 32 (i + 1)) ∧
      (mem .f32 [(1, 0), (2, 0)]).IsArray s.cfg.fmt s.loadCount (promoted (fun i => BitVec.ofNat 32 (i + 1))) ∧
      (∃ t, exec .realForward s = .next t) ∧
      (exec .realForward { s with twMem := [] } = .fault (.unwritten .tw 0)) := by
  obtain ⟨t, ht, -⟩ := exists_next (o := exec .realForward (block .realForward 1 2 [(1, 9), (2, 9)] [])) (q := fun _ => true)
    (by decide +kernel)
  refine ⟨?_, ?_, ⟨t, ht⟩, eq_fault (by decide +kernel)⟩
  · unfold Memory.IsRealArray; decide +kernel
  · unfold Memory.IsArray; decide +kernel

theorem witness_PrimitiveSequencesAreTheFacadeCommands : ∃ t₁ t₂ t₃ u₃ u₄ : State,
    exec .loadComplex (idle.acceptCmd (encode .loadComplex)) = .next t₁ ∧ t₁.errCode = .ok ∧
    exec .bitrev (t₁.acceptCmd (encode .bitrev)) = .next t₂ ∧
    exec .butterflyFwd (t₂.acceptCmd (encode .butterflyFwd)) = .next t₃ ∧
    exec .butterflyInv (t₂.acceptCmd (encode .butterflyInv)) = .next u₃ ∧
    exec .scaleInv (u₃.acceptCmd (encode .scaleInv)) = .next u₄ := by
  obtain ⟨t₁, h₁, e₁⟩ := exists_next (o := exec .loadComplex (idle.acceptCmd (encode .loadComplex)))
    (q := fun t₁ => decide (t₁.errCode = .ok) && nextIs (exec .bitrev (t₁.acceptCmd (encode .bitrev))) (fun t₂ =>
      nextIs (exec .butterflyFwd (t₂.acceptCmd (encode .butterflyFwd))) (fun _ => true) &&
      nextIs (exec .butterflyInv (t₂.acceptCmd (encode .butterflyInv))) (fun u₃ =>
        nextIs (exec .scaleInv (u₃.acceptCmd (encode .scaleInv))) (fun _ => true)))) (by decide +kernel)
  simp only [Bool.and_eq_true, decide_eq_true_eq] at e₁
  obtain ⟨t₂, h₂, e₂⟩ := exists_next e₁.2
  simp only [Bool.and_eq_true] at e₂
  obtain ⟨t₃, h₃, -⟩ := exists_next e₂.1
  obtain ⟨u₃, k₃, e₃⟩ := exists_next e₂.2
  obtain ⟨u₄, k₄, -⟩ := exists_next e₃
  exact ⟨t₁, t₂, t₃, u₃, u₄, h₁, e₁.1, h₂, h₃, k₃, k₄⟩

theorem witness_RealCommandsIgnoreImaginaryInput :
    let s := block .realSpectrum 1 2 [(1, 9), (2, 9)] []
    (∀ k, k < s.loadCount → (mem .f32 [(1, 5), (2, 6)]).readRe s.cfg.fmt k = s.inMem.readRe s.cfg.fmt k) ∧
      (∃ t, exec .realSpectrum s = .next t) ∧ exec .realSpectrum { s with twMem := [] } = .fault (.unwritten .tw 0) := by
  obtain ⟨t, ht, -⟩ := exists_next (o := exec .realSpectrum (block .realSpectrum 1 2 [(1, 9), (2, 9)] [])) (q := fun _ => true)
    (by decide +kernel)
  exact ⟨by decide +kernel, ⟨t, ht⟩, eq_fault (by decide +kernel)⟩

/-- Other sample values on the same written bytes. -/
theorem witness_SampleValuesNeverDecideCompletion (a : Nat) :
    (Memory.readByte [(0, 7)] a).isSome = (Memory.readByte [(0, 9)] a).isSome := by
  simp only [Memory.readByte]
  split <;> rfl

theorem witness_UnwrittenOperandsStopTheCommand :
    let s := block .forward 2 2 [(1, 2)] [(1, 2), (3, 4)]
    MayLoad s ∧ 1 < s.loadCount ∧ s.inMem.readEntry s.cfg.fmt 1 = none ∧ s.inMem.readRe s.cfg.fmt 1 = none ∧
      s.configured = true ∧ PowerLength s ∧ 2 < s.n ∧ s.workMem.readEntry s.cfg.fmt 2 = none ∧ rev s.log2n 2 ≠ 2 ∧
      s.log2n ≠ 0 ∧ ∀ e, e < s.n → (s.twMem.readEntry s.cfg.fmt e).isSome = true := by
  unfold MayLoad PowerLength
  decide +kernel

theorem witness_NoCommandTouchesTheHostSide : ∃ t, exec .configure (configuring 16) = .next t := by
  obtain ⟨t, ht, -⟩ := exists_next (o := exec .configure (configuring 16)) (q := fun _ => true) (by decide +kernel)
  exact ⟨t, ht⟩

/-- A command that is not CONFIGURE, and CONFIGURE, each with a next state. -/
theorem witness_OnlyConfigureChangesTheConfiguration :
    let s := block .bitrev 1 0 [] []
    (∃ t, exec .bitrev s = .next t) ∧ Instr.bitrev ≠ .configure ∧ PowerLength s ∧ isLoading .bitrev = false ∧
      ∃ t, exec .configure (configuring 16) = .next t := by
  obtain ⟨t, ht, -⟩ := exists_next (o := exec .bitrev (block .bitrev 1 0 [] [])) (q := fun _ => true) (by decide +kernel)
  obtain ⟨u, hu, -⟩ := exists_next (o := exec .configure (configuring 16)) (q := fun _ => true) (by decide +kernel)
  exact ⟨⟨t, ht⟩, by decide, rfl, rfl, ⟨u, hu⟩⟩

theorem witness_RejectedAccessesChangeNothing :
    let x : Access := .read 0x7FFFFE .w32
    let y : Access := .write 0x400000 .w64 1
    idle.cfg.base ≤ x.addr ∧ x.addr < idle.cfg.base + 0x400000 ∧ (x.addr - idle.cfg.base) % 4 ≠ 0 ∧
      idle.cfg.base ≤ y.addr ∧ y.addr < idle.cfg.base + 0x400000 ∧ y.width ≠ .w32 := by decide +kernel

theorem witness_BusyWindowAccessesSetAccessErr :
    let s := block .bitrev 1 0 [] []
    s.busy = true ∧ (0x100000 ≤ 0x100000 ∧ 0x3FFFFC < 0x400000 ∧ 0x3FFFFC % 4 = 0) ∧
      s.cfg.base ≤ (Access.read 0x7FFFFF .w32).addr ∧ (Access.read 0x7FFFFF .w32).addr < s.cfg.base + 0x400000 ∧
      ((Access.read 0x7FFFFF .w32).addr - s.cfg.base) % 4 ≠ 0 := by decide +kernel

/-- The last word of the memories, written in IN and never written in WORK. -/
theorem witness_IdleWindowAccessesReachTheMemories :
    let s := { idle with inMem := Memory.writeWord [] 28 5 }
    s.cfg.wf = true ∧ s.busy = false ∧ 28 % 4 = 0 ∧ 28 < s.cfg.memBytes ∧ (s.memory .inp).readWord 28 = some 5 ∧
      (s.memory .work).readWord 28 = none := by decide +kernel

theorem witness_EntriesBeyondTheMemoryReadZero :
    32 % 4 = 0 ∧ 32 < 0x100000 ∧ idle.cfg.nmax ≤ 32 / idle.cfg.fmt.entryBytes ∧ idle.busy = false ∧
      (block .bitrev 1 0 [] []).busy = true ∧
      (block .bitrev 1 0 [] []).cfg.nmax ≤ 32 / (block .bitrev 1 0 [] []).cfg.fmt.entryBytes := by decide +kernel

theorem witness_WordsAreTheHalvesOfComponents :
    1 < 2 ∧ 1 < SampleFmt.f64.compBytes / 4 ∧
      (mem .f64 [(1, 2)]).readComp .f64 (0 * SampleFmt.f64.entryBytes + 1 * SampleFmt.f64.compBytes) = some (2 : BitVec 64) ∧
      (mem .f64 [(1, 2)]).readEntry .f64 0 = some ⟨(1 : BitVec 64), (2 : BitVec 64)⟩ := by
  decide +kernel

theorem witness_StatusWritesClearOnlyTheirBits :
    let s := block .bitrev 1 0 [] []
    s.busy = true ∧ ∃ u, controllerTurn { s with pending := [] } = .next u := by
  obtain ⟨t, ht, -⟩ := exists_next (o := controllerTurn (block .bitrev 1 0 [] [])) (q := fun _ => true) (by decide +kernel)
  exact ⟨rfl, ⟨t, ht⟩⟩

theorem witness_CommandWritesAreAcceptedOrLost : idle.busy = false ∧ (block .bitrev 1 0 [] []).busy = true := ⟨rfl, rfl⟩

theorem witness_RegisterWritesFollowTheMap :
    Reg.outLen ∉ [Reg.ctrl, Reg.status, Reg.cmd, Reg.cfgLen, Reg.inLen] ∧
      (0x030 ≤ 0x030 ∧ 0x030 ≤ 0x0FFFFC ∧ 0x030 % 4 = 0) ∧ (0x030 ≤ 0x0FFFFC ∧ 0x0FFFFC % 4 = 0) := by decide

theorem witness_IdentificationRegisters : Reg.caps ∈ [Reg.id, Reg.version, Reg.caps] := by decide

/-- A read while idle, and a window read while busy. -/
theorem witness_ReadsHaveNoSideEffect : (∃ t, hostAccess idle (.read 0x400010 .w32) = .next t) ∧
    ∃ t, hostAccess (block .bitrev 1 0 [] []) (.read 0x500000 .w32) = .next t ∧ t.accessErr = true := by
  obtain ⟨t, ht, -⟩ := exists_next (o := hostAccess idle (.read 0x400010 .w32)) (q := fun _ => true) (by decide +kernel)
  obtain ⟨u, hu, he⟩ := exists_next (o := hostAccess (block .bitrev 1 0 [] []) (.read 0x500000 .w32)) (q := State.accessErr)
    (by decide +kernel)
  exact ⟨⟨t, ht⟩, ⟨u, hu, he⟩⟩

theorem witness_LdinStoresTheEntry :
    let s := { idle with pending := expand idle.cfg 0 (.ldin 3 0xFFFFFFFF 0) }
    s.cfg.wf = true ∧ (ScriptOp.ldin 3 0xFFFFFFFF 0).wf s.cfg = true ∧ s.busy = false ∧
      s.pending = expand s.cfg 0 (.ldin 3 0xFFFFFFFF 0) := ⟨by decide, by decide, rfl, rfl⟩

theorem witness_ResetSatisfiesTheInvariant : Config.wf { fmt := .f64, log2Nmax := 16, base := 0x400000 } = true := by decide

theorem witness_RegisterReadsShowTheState : (block .bitrev 1 0 [] []).Inv ∧ (configuring 2).Inv := by
  constructor <;> constructor <;> decide +kernel

/-- The invariant holds in a configured busy block, which steps. -/
theorem witness_EveryStepKeepsTheInvariant :
    (block .bitrev 1 0 [] []).Inv ∧ ∃ t, step (block .bitrev 1 0 [] []) = .next t := by
  obtain ⟨t, ht, -⟩ := exists_next (o := step (block .bitrev 1 0 [] [])) (q := fun _ => true) (by decide +kernel)
  refine ⟨?_, ⟨t, ht⟩⟩
  constructor <;> decide +kernel

/-- A CONFIGURE, a host write to each of IN and WORK (its last word), and SCALE_INV, each changing what it owns. -/
theorem witness_MemoriesChangeOnlyByTheirOwners :
    (∃ t, step (configuring 2) = .next t ∧ ¬ KeepsConfiguration (configuring 2) t) ∧
    (∃ t, step { idle with pending := [.host (.write 0x500000 .w32 7)] } = .next t ∧ t.inMem ≠ idle.inMem) ∧
    (∃ t, step { idle with pending := [.host (.write 0x60001C .w32 7)] } = .next t ∧ t.workMem ≠ idle.workMem) ∧
    ∃ t, step (block .scaleInv 1 0 [] [(2, 2), (4, 4)]) = .next t ∧
      t.workMem ≠ (block .scaleInv 1 0 [] [(2, 2), (4, 4)]).workMem := by
  obtain ⟨t, ht, he⟩ := exists_next (o := step (configuring 2)) (q := fun t => decide (t.n = 2)) (by decide +kernel)
  obtain ⟨u, hu, hn⟩ := exists_next (o := step { idle with pending := [.host (.write 0x500000 .w32 7)] })
    (q := fun u => decide (u.inMem ≠ idle.inMem)) (by decide +kernel)
  obtain ⟨v, hv, hw⟩ := exists_next (o := step { idle with pending := [.host (.write 0x60001C .w32 7)] })
    (q := fun v => decide (v.workMem ≠ idle.workMem)) (by decide +kernel)
  obtain ⟨x, hx, hy⟩ := exists_next (o := step (block .scaleInv 1 0 [] [(2, 2), (4, 4)]))
    (q := fun x => decide (x.workMem ≠ (block .scaleInv 1 0 [] [(2, 2), (4, 4)]).workMem)) (by decide +kernel)
  refine ⟨⟨t, ht, fun h => ?_⟩, ⟨u, hu, of_decide_eq_true hn⟩, ⟨v, hv, of_decide_eq_true hw⟩, x, hx, of_decide_eq_true hy⟩
  exact absurd (h.n.symm.trans (of_decide_eq_true he)) (by decide)

theorem witness_StickyBitsStayUntilCleared :
    let s := { idle with err := true, pending := [.host (.write 0x400010 .w32 0x4)] }
    (∀ rest, s.pending ≠ .rst :: rest) ∧ s.configured = true ∧ s.err = true ∧ ∃ t, step s = .next t ∧ t.err = false := by
  obtain ⟨t, ht, he⟩ := exists_next
    (o := step { idle with err := true, pending := [.host (.write 0x400010 .w32 0x4)] }) (q := fun t => !t.err) (by decide +kernel)
  exact ⟨fun rest h => by simp at h, rfl, rfl, t, ht, by simpa using he⟩

end Sys2Proof.Tests
end

section
/-! PROOF. The index primitives (00_scope.md R13). -/

namespace Sys2Proof.Machine

/-! ### Index primitives -/

theorem testBit_rev {m i b : Nat} (h : b < m) : (rev m i).testBit b = i.testBit (m - 1 - b) := by
  induction m generalizing i with
  | zero => omega
  | succ m ih =>
    rw [rev_succ, Nat.testBit_two_pow_mul_add _ (rev_lt m _)]
    split
    · rename_i hb
      rw [ih hb, Nat.testBit_div_two]
      congr 1
      omega
    · rename_i hb
      obtain rfl : b = m := by omega
      simp [Nat.testBit_zero]

/-- `ceilLog2 l` is the least exponent whose power of two reaches `l`. -/
theorem ceilLog2_le_iff {l e : Nat} : ceilLog2 l ≤ e ↔ l ≤ 2 ^ e := by
  have hpos := Nat.one_le_two_pow (n := e)
  unfold ceilLog2
  split
  · omega
  · rename_i h
    rw [Nat.add_one_le_iff, Nat.log2_lt (by omega)]
    omega

theorem le_nextPow2 (l : Nat) : l ≤ nextPow2 l := ceilLog2_le_iff.mp le_rfl

theorem ceilLog2_two_pow (e : Nat) : ceilLog2 (2 ^ e) = e :=
  le_antisymm (ceilLog2_le_iff.mpr le_rfl) ((Nat.pow_le_pow_iff_right Nat.one_lt_two).mp (le_nextPow2 (2 ^ e)))

/-- Settles O23: the reversal by induction on its width, the rest from `ceilLog2_le_iff`. -/
theorem indexPrimitives : Obligations.IndexPrimitives :=
  ⟨fun _ _ _ h => testBit_rev h, rev_lt, rfl,
    fun l _ => ⟨le_nextPow2 l, ⟨ceilLog2 l, rfl⟩, fun _ h => Nat.pow_le_pow_right two_pos (ceilLog2_le_iff.mpr h)⟩,
    ceilLog2_two_pow⟩

end Sys2Proof.Machine
end

section
/-! PROOF. What the arithmetic rounds to (00_scope.md R20, R21): magnitude patterns are ordered as their values, `roundMag`
takes the nearest one to the exact magnitude, and each primitive hands it the exact result. -/

namespace Sys2Proof.Machine

/-! ### Magnitude patterns in order -/

theorem bitLength_le_iff {q k : Nat} : bitLength q ≤ k ↔ q < 2 ^ k := by
  unfold bitLength
  split
  · rename_i hq
    simp [hq]
  · rename_i hq
    exact Nat.log2_lt hq

theorem magUnits_fields {f : SampleFmt} (e : Nat) {r : Nat} (hr : r < 2 ^ f.fracBits) :
    magUnits f (e * 2 ^ f.fracBits + r) = if e = 0 then r else (2 ^ f.fracBits + r) * 2 ^ (e - 1) := by
  have he : (e * 2 ^ f.fracBits + r) / 2 ^ f.fracBits = e := by
    rw [Nat.mul_comm, Nat.mul_add_div (Nat.two_pow_pos _), Nat.div_eq_of_lt hr, Nat.add_zero]
  have hm : (e * 2 ^ f.fracBits + r) % 2 ^ f.fracBits = r := by
    rw [Nat.mul_comm, Nat.mul_add_mod, Nat.mod_eq_of_lt hr]
  rw [magUnits, he, hm]

/-- `m` granules of `2^sh` units are the pattern `sh * 2^fracBits + m`, with the full precision where `sh > 0`. -/
theorem magUnits_granules {f : SampleFmt} {sh m : Nat} (h : sh = 0 ∨ 2 ^ f.fracBits ≤ m)
    (hm : m ≤ 2 ^ (f.fracBits + 1)) : magUnits f (sh * 2 ^ f.fracBits + m) = m * 2 ^ sh := by
  rw [pow_succ] at hm
  rcases Nat.lt_or_ge m (2 ^ f.fracBits) with hlt | hge
  · obtain rfl : sh = 0 := by omega
    rw [magUnits_fields 0 hlt]
    simp
  · obtain ⟨r, rfl⟩ := Nat.exists_eq_add_of_le hge
    rcases Nat.lt_or_ge r (2 ^ f.fracBits) with hr | hr
    · rw [show sh * 2 ^ f.fracBits + (2 ^ f.fracBits + r) = (sh + 1) * 2 ^ f.fracBits + r by ring,
        magUnits_fields (sh + 1) hr]
      simp
    · obtain rfl : r = 2 ^ f.fracBits := by omega
      rw [show sh * 2 ^ f.fracBits + (2 ^ f.fracBits + 2 ^ f.fracBits) = (sh + 2) * 2 ^ f.fracBits + 0 by ring,
        magUnits_fields (sh + 2) (Nat.two_pow_pos _)]
      simp [pow_succ]
      ring

/-- Every magnitude pattern is a number of granules. -/
theorem exists_granules (f : SampleFmt) (k : Nat) : ∃ sh m, k = sh * 2 ^ f.fracBits + m ∧
    (sh = 0 ∨ 2 ^ f.fracBits ≤ m) ∧ m < 2 ^ (f.fracBits + 1) := by
  have hd := Nat.div_add_mod' k (2 ^ f.fracBits)
  have hr := Nat.mod_lt k (Nat.two_pow_pos f.fracBits)
  rw [pow_succ]
  cases he : k / 2 ^ f.fracBits with
  | zero => exact ⟨0, k % 2 ^ f.fracBits, by rw [he] at hd; exact hd.symm, .inl rfl, by omega⟩
  | succ e =>
    rw [he, Nat.succ_mul] at hd
    exact ⟨e, 2 ^ f.fracBits + k % 2 ^ f.fracBits, by omega, .inr (by omega), by omega⟩

/-- Patterns are ordered as their values. -/
theorem magUnits_strictMono (f : SampleFmt) : StrictMono (magUnits f) := by
  refine strictMono_nat_of_lt_succ (fun k => ?_)
  obtain ⟨sh, m, rfl, h, hm⟩ := exists_granules f k
  rw [Nat.add_assoc, magUnits_granules h hm.le, magUnits_granules (by omega) hm]
  exact Nat.mul_lt_mul_of_pos_right (Nat.lt_succ_self m) (Nat.two_pow_pos sh)

theorem magUnits_mono_real {f : SampleFmt} {j k : Nat} (h : j ≤ k) : (magUnits f j : ℝ) ≤ magUnits f k :=
  Nat.cast_le.mpr ((magUnits_strictMono f).monotone h)

@[simp] theorem magUnits_zero (f : SampleFmt) : magUnits f 0 = 0 := by simp [magUnits]

/-! ### The nearest magnitude pattern -/

/-- No magnitude pattern, however large, is nearer to `v` units than `k`, and where another is as near `k` is even. -/
structure NearestMag (f : SampleFmt) (v : ℝ) (k : Nat) : Prop where
  nearest : ∀ j, |v - magUnits f k| ≤ |v - magUnits f j|
  even : ∀ j, j ≠ k → |v - magUnits f k| = |v - magUnits f j| → k % 2 = 0

/-- A number not past the middle between the patterns `a` and `a + 1` has `a` nearest. -/
theorem nearestMag_lower {f : SampleFmt} {v : ℝ} {a : Nat} (h : (magUnits f a : ℝ) ≤ v)
    (hmid : 2 * v < magUnits f a + magUnits f (a + 1) ∨
      2 * v = magUnits f a + magUnits f (a + 1) ∧ a % 2 = 0) : NearestMag f v a := by
  have ha : |v - magUnits f a| = v - magUnits f a := abs_of_nonneg (by linarith)
  have hle : 2 * v ≤ magUnits f a + magUnits f (a + 1) := hmid.elim le_of_lt (fun h => h.1.le)
  have far : ∀ j, a + 1 ≤ j → (magUnits f (a + 1) : ℝ) - v ≤ |v - magUnits f j| := by
    intro j hj
    linarith [neg_le_abs (v - magUnits f j), magUnits_mono_real (f := f) hj]
  constructor
  · intro j
    rw [ha]
    rcases Nat.lt_or_ge a j with hj | hj
    · linarith [far j hj]
    · linarith [le_abs_self (v - magUnits f j), magUnits_mono_real (f := f) hj]
  · intro j hne he
    rw [ha] at he
    rcases Nat.lt_or_ge a j with hj | hj
    · exact hmid.elim (fun hlt => absurd (far j hj) (by linarith)) And.right
    · have : (magUnits f j : ℝ) < magUnits f a := Nat.cast_lt.mpr (magUnits_strictMono f (by omega))
      linarith [le_abs_self (v - magUnits f j)]

/-- A number not before the middle between the patterns `a` and `a + 1` has `a + 1` nearest. -/
theorem nearestMag_upper {f : SampleFmt} {v : ℝ} {a : Nat} (h : v ≤ (magUnits f (a + 1) : ℝ))
    (hmid : (magUnits f a : ℝ) + magUnits f (a + 1) < 2 * v ∨
      2 * v = magUnits f a + magUnits f (a + 1) ∧ a % 2 = 1) : NearestMag f v (a + 1) := by
  have ha : |v - magUnits f (a + 1)| = magUnits f (a + 1) - v := by
    rw [abs_of_nonpos (by linarith)]; ring
  have hle : (magUnits f a : ℝ) + magUnits f (a + 1) ≤ 2 * v := hmid.elim le_of_lt (fun h => h.1.ge)
  have far : ∀ j, j ≤ a → v - (magUnits f a : ℝ) ≤ |v - magUnits f j| := by
    intro j hj
    linarith [le_abs_self (v - magUnits f j), magUnits_mono_real (f := f) hj]
  constructor
  · intro j
    rw [ha]
    rcases Nat.lt_or_ge a j with hj | hj
    · linarith [neg_le_abs (v - magUnits f j), magUnits_mono_real (f := f) (show a + 1 ≤ j from hj)]
    · linarith [far j hj]
  · intro j hne he
    rw [ha] at he
    rcases Nat.lt_or_ge a j with hj | hj
    · have : (magUnits f (a + 1) : ℝ) < magUnits f j := Nat.cast_lt.mpr (magUnits_strictMono f (by omega))
      linarith [neg_le_abs (v - magUnits f j)]
    · exact hmid.elim (fun hlt => absurd (far j hj) (by linarith)) (fun h => by omega)

/-- A pattern is nearest to its own value. -/
theorem nearestMag_self (f : SampleFmt) (k : Nat) : NearestMag f (magUnits f k) k := by
  have h : (magUnits f k : ℝ) < magUnits f (k + 1) := Nat.cast_lt.mpr (magUnits_strictMono f k.lt_succ_self)
  exact nearestMag_lower le_rfl (.inl (by linarith))

/-! ### What `roundMag` rounds to -/

/-- `roundMag` keeps granules of `2^roundShift` units (R21). -/
def roundShift (f : SampleFmt) (num den : Nat) : Nat := bitLength (num / den) - (f.fracBits + 1)

/-- The number of granules `roundMag` rounds to, ties to the even number. -/
def roundGranules (f : SampleFmt) (num den : Nat) : Nat :=
  let g := den * 2 ^ roundShift f num den
  let up := decide (g < 2 * (num % g)) || (decide (2 * (num % g) = g) && decide (num / g % 2 = 1))
  if up then num / g + 1 else num / g

/-- The pattern `roundMag` gives before overflow makes it an infinity. -/
def roundPattern (f : SampleFmt) (num den : Nat) : Nat :=
  roundShift f num den * 2 ^ f.fracBits + roundGranules f num den

theorem roundMag_eq_min (f : SampleFmt) (num den : Nat) :
    roundMag f num den = min (roundPattern f num den) (infMag f) := rfl

/-- `v` lies on the same side of every multiple of half a granule as `num / den`. -/
def SameSide (f : SampleFmt) (num den : Nat) (v : ℝ) : Prop :=
  ∀ t : Nat, ((t * 2 ^ roundShift f num den : Nat) ≤ 2 * v ↔ t * (den * 2 ^ roundShift f num den) ≤ 2 * num) ∧
    (2 * v ≤ (t * 2 ^ roundShift f num den : Nat) ↔ 2 * num ≤ t * (den * 2 ^ roundShift f num den))

theorem sameSide_div (f : SampleFmt) (num : Nat) {den : Nat} (hd : 0 < den) : SameSide f num den (num / den) := by
  have hd' : (0 : ℝ) < den := Nat.cast_pos.mpr hd
  intro t
  rw [← mul_div_assoc, le_div_iff₀ hd', div_le_iff₀ hd']
  constructor <;> rw [← @Nat.cast_le ℝ] <;> push_cast <;> ring_nf

/-- The number of whole granules fits the precision, and fills it unless the granule is one unit. -/
theorem granule_count_bounds (f : SampleFmt) (num den : Nat) :
    num / (den * 2 ^ roundShift f num den) < 2 ^ (f.fracBits + 1) ∧
      (roundShift f num den = 0 ∨ 2 ^ f.fracBits ≤ num / (den * 2 ^ roundShift f num den)) := by
  rw [← Nat.div_div_eq_div_mul]
  constructor
  · rw [Nat.div_lt_iff_lt_mul (Nat.two_pow_pos _), ← pow_add, ← bitLength_le_iff, roundShift]
    omega
  · rcases Nat.eq_zero_or_pos (roundShift f num den) with h | h
    · exact .inl h
    · refine .inr ?_
      rw [Nat.le_div_iff_mul_le (Nat.two_pow_pos _), ← pow_add, ← not_lt, ← bitLength_le_iff]
      rw [roundShift] at h ⊢
      omega

theorem even_two_pow_fracBits (f : SampleFmt) (sh : Nat) : sh * 2 ^ f.fracBits % 2 = 0 := by
  cases f <;> simp only [SampleFmt.fracBits] <;> omega

/-- The pattern `roundMag` gives is the nearest one to `num / den`, and to every number on the same side of each tie. -/
theorem nearestMag_roundPattern {f : SampleFmt} {num den : Nat} {v : ℝ} (hd : 0 < den) (h : SameSide f num den v) :
    NearestMag f v (roundPattern f num den) := by
  obtain ⟨hlt, hfull⟩ := granule_count_bounds f num den
  have heven := even_two_pow_fracBits f (roundShift f num den)
  have hr := Nat.mod_lt num (Nat.mul_pos hd (Nat.two_pow_pos (roundShift f num den)))
  have hnum := Nat.div_add_mod' num (den * 2 ^ roundShift f num den)
  -- `v` against the whole granules `m` and `m + 1` and against the tie between them
  have hlow := (h (2 * (num / (den * 2 ^ roundShift f num den)))).1
  have hhigh := (h (2 * (num / (den * 2 ^ roundShift f num den)) + 2)).2
  obtain ⟨hmid₁, hmid₂⟩ := h (2 * (num / (den * 2 ^ roundShift f num den)) + 1)
  rw [roundPattern, roundGranules]
  generalize roundShift f num den = sh at *
  generalize den * 2 ^ sh = g at *
  generalize num / g = m at *
  generalize num % g = r at *
  subst hnum
  have hlo : (magUnits f (sh * 2 ^ f.fracBits + m) : ℝ) = m * 2 ^ sh := by
    rw [magUnits_granules hfull hlt.le]; push_cast; rfl
  have hhi : (magUnits f (sh * 2 ^ f.fracBits + m + 1) : ℝ) = (m + 1) * 2 ^ sh := by
    rw [Nat.add_assoc, magUnits_granules (by omega) hlt]; push_cast; rfl
  push_cast at hlow hhigh hmid₁ hmid₂
  have hv₁ := hlow.mpr (by linarith)
  have hv₂ := hhigh.mpr (by linarith)
  rcases Nat.lt_trichotomy (2 * r) g with hdown | htie | hup
  · have hlt : 2 * v < (2 * m + 1) * 2 ^ sh := not_le.mp (fun hc => by linarith [hmid₁.mp hc])
    rw [if_neg (by simp; omega)]
    exact nearestMag_lower (by rw [hlo]; linarith) (.inl (by rw [hlo, hhi]; linarith))
  · have heq : 2 * v = (2 * m + 1) * 2 ^ sh := le_antisymm (hmid₂.mpr (by linarith)) (hmid₁.mpr (by linarith))
    rcases Nat.mod_two_eq_zero_or_one m with hm | hm
    · rw [if_neg (by simp [hm]; omega)]
      exact nearestMag_lower (by rw [hlo]; linarith) (.inr ⟨by rw [hlo, hhi]; linarith, by omega⟩)
    · rw [if_pos (by simp [hm]; omega), ← Nat.add_assoc]
      exact nearestMag_upper (by rw [hhi]; linarith) (.inr ⟨by rw [hlo, hhi]; linarith, by omega⟩)
  · have hgt : (2 * m + 1) * 2 ^ sh < 2 * v := not_le.mp (fun hc => by linarith [hmid₂.mp hc])
    rw [if_pos (by simp; omega), ← Nat.add_assoc]
    exact nearestMag_upper (by rw [hhi]; linarith) (.inl (by rw [hlo, hhi]; linarith))

/-- A number with a pattern of its own value rounds to it. -/
theorem NearestMag.eq_of_exact {f : SampleFmt} {v : ℝ} {j k : Nat} (h : NearestMag f v k) (hv : v = magUnits f j) :
    k = j := by
  have h0 := h.nearest j
  rw [hv, sub_self, abs_zero, abs_nonpos_iff, sub_eq_zero, Nat.cast_inj] at h0
  exact ((magUnits_strictMono f).injective h0).symm

/-! ### The overflow threshold -/

theorem infMag_even (f : SampleFmt) : infMag f % 2 = 0 := by cases f <;> decide

/-- The overflow threshold in units: the middle between the largest finite pattern and the one after it (R21). -/
theorem overflowAt_units (f : SampleFmt) :
    2 * (overflowAt f * 2 ^ unitExp f) = magUnits f (infMag f - 1) + magUnits f (infMag f) := by
  have hinf : infMag f = (2 ^ f.expBits - 3 + 1) * 2 ^ f.fracBits + 2 ^ f.fracBits := by cases f <;> rfl
  have hmax : infMag f - 1 = (2 ^ f.expBits - 3) * 2 ^ f.fracBits + (2 ^ (f.fracBits + 1) - 1) := by cases f <;> rfl
  have hexp : f.bias + unitExp f = 2 ^ f.expBits - 3 + f.fracBits := by cases f <;> rfl
  have hle : 2 ^ f.fracBits ≤ 2 ^ (f.fracBits + 1) - 1 := by cases f <;> decide
  rw [hmax, hinf, magUnits_granules (.inr hle) (Nat.sub_le _ _),
    magUnits_granules (.inr le_rfl) (Nat.pow_le_pow_right (by norm_num) (by omega)), overflowAt, mul_assoc,
    ← pow_add, hexp]
  generalize 2 ^ f.expBits - 3 = e
  rw [Nat.cast_mul, Nat.cast_sub (Nat.one_le_two_pow)]
  push_cast
  rw [pow_add, pow_succ, pow_succ]
  field_simp
  ring

/-- Rounding reaches infinity exactly from the overflow threshold on. -/
theorem NearestMag.infMag_le_iff {f : SampleFmt} {v : ℝ} {k : Nat} (h : NearestMag f v k) :
    infMag f ≤ k ↔ overflowAt f * 2 ^ unitExp f ≤ v := by
  have hthr := overflowAt_units f
  have hpos := infMag_pos f
  have hlt : (magUnits f (infMag f - 1) : ℝ) < magUnits f (infMag f) :=
    Nat.cast_lt.mpr (magUnits_strictMono f (by omega))
  constructor
  · intro hk
    by_contra hv
    have h1 := h.nearest (infMag f - 1)
    have h2 := magUnits_mono_real (f := f) hk
    rw [abs_sub_comm, abs_of_nonneg (by linarith), le_abs] at h1
    rcases h1 with h1 | h1 <;> linarith
  · intro hv
    by_contra hk
    have h2 := magUnits_mono_real (f := f) (show k ≤ infMag f - 1 by omega)
    have h1 := h.nearest (infMag f)
    have hodd := h.even (infMag f) (by omega)
    have hev := infMag_even f
    have hge : (magUnits f (infMag f - 1) : ℝ) ≤ magUnits f k := by
      rw [abs_of_nonneg (show 0 ≤ v - magUnits f k by linarith), le_abs] at h1
      rcases h1 with h1 | h1 <;> linarith
    have hk1 : k = infMag f - 1 := by
      have := (magUnits_strictMono f).le_iff_le.mp (Nat.cast_le.mp hge)
      omega
    have hfar : |v - magUnits f k| = |v - magUnits f (infMag f)| := by
      refine le_antisymm h1 ?_
      rw [abs_of_nonneg (show 0 ≤ v - magUnits f k by linarith), abs_le]
      constructor <;> linarith
    have := hodd hfar
    omega

/-! ### Signs, and rounding to a component -/

/-- The number of a sign and a magnitude. -/
def signed (neg : Bool) (v : ℝ) : ℝ := if neg then -v else v

theorem abs_signed (neg : Bool) (v : ℝ) : |signed neg v| = |v| := by cases neg <;> simp [signed]

theorem toUnits_eq_signed {f : SampleFmt} (x : Comp f) :
    (toUnits x : ℝ) = signed (signOf x) (magUnits f (magOf x)) := by
  unfold toUnits signed
  split <;> simp

theorem natAbs_toUnits {f : SampleFmt} (x : Comp f) : (toUnits x).natAbs = magUnits f (magOf x) := by
  unfold toUnits
  split <;> simp

theorem compVal_packComp {f : SampleFmt} (neg : Bool) {k : Nat} (h : k < 2 ^ (f.width - 1)) :
    compVal (packComp f neg k) = signed neg (magUnits f k) / 2 ^ unitExp f := by
  rw [compVal, toUnits_eq_signed, signOf_packComp neg h, magOf_packComp neg h]

theorem isFinite_packComp {f : SampleFmt} (neg : Bool) {k : Nat} (h : k < infMag f) :
    isFinite (packComp f neg k) = true := by
  simp [isFinite, magOf_packComp neg (h.trans (infMag_lt f)), h]

theorem abs_signed_sub_signed (neg : Bool) (v w : ℝ) : |signed neg v - signed neg w| = |v - w| := by
  cases neg
  · rfl
  · rw [signed, signed, if_pos rfl, if_pos rfl, neg_sub_neg, abs_sub_comm]

theorem abs_sub_le_abs_signed_sub {v w : ℝ} (a b : Bool) (hv : 0 ≤ v) (hw : 0 ≤ w) :
    |v - w| ≤ |signed a v - signed b w| := by
  have h := abs_abs_sub_abs_le (signed a v) (signed b w)
  rwa [abs_signed, abs_signed, abs_of_nonneg hv, abs_of_nonneg hw] at h

/-- The nearest magnitude with the number's sign is nearest among all signed ones. -/
theorem NearestMag.nearest_signed {f : SampleFmt} {v : ℝ} {k : Nat} (h : NearestMag f v k) (hv : 0 ≤ v) (a b : Bool)
    (j : Nat) : |v - magUnits f k| ≤ |signed a v - signed b (magUnits f j)| :=
  (h.nearest j).trans (abs_sub_le_abs_signed_sub a b hv (Nat.cast_nonneg _))

/-- It is even where another signed value is as near. -/
theorem NearestMag.even_signed {f : SampleFmt} {v : ℝ} {k : Nat} (h : NearestMag f v k) (hv : 0 ≤ v) {a b : Bool}
    {j : Nat} (hne : signed b (magUnits f j) ≠ signed a (magUnits f k))
    (he : |v - magUnits f k| = |signed a v - signed b (magUnits f j)|) : k % 2 = 0 := by
  by_cases hj : j = k
  · subst hj
    have hab : b = !a := Bool.eq_not.mpr (fun hc => hne (hc ▸ rfl))
    have hsum : |signed a v - signed b (magUnits f j)| = v + magUnits f j := by
      subst hab
      rw [← abs_of_nonneg (show 0 ≤ v + magUnits f j by positivity)]
      cases a
      · simp [signed]
      · rw [← abs_neg]; simp [signed, add_comm]
    have h0 := h.nearest 0
    rw [he, hsum, magUnits_zero, Nat.cast_zero, sub_zero, abs_of_nonneg hv] at h0
    have hz : magUnits f j = 0 := by
      have : (magUnits f j : ℝ) ≤ 0 := by linarith
      exact Nat.le_zero.mp (by exact_mod_cast this)
    rw [(magUnits_strictMono f).injective (hz.trans (magUnits_zero f).symm)]
  · exact h.even j hj (le_antisymm (h.nearest j) (he ▸ abs_sub_le_abs_signed_sub a b hv (Nat.cast_nonneg _)))

theorem two_pow_bias_le_overflowAt (f : SampleFmt) : 2 ^ f.bias ≤ overflowAt f := by
  have h : (1 : ℝ) / 2 ^ (f.fracBits + 1) ≤ 1 := by
    rw [div_le_one (by positivity)]
    exact one_le_pow₀ one_le_two
  exact le_mul_of_one_le_left (by positivity) (by linarith)

theorem overflowAt_pos (f : SampleFmt) : 0 < overflowAt f :=
  lt_of_lt_of_le (by positivity) (two_pow_bias_le_overflowAt f)

theorem decide_signed_neg (neg : Bool) {v : ℝ} (hv : 0 < v) : decide (signed neg v < 0) = neg := by
  cases neg <;> simp [signed, hv, hv.le]

theorem signed_div (neg : Bool) (v w : ℝ) : signed neg v / w = signed neg (v / w) := by
  cases neg <;> simp [signed, neg_div]

theorem signed_mul (neg : Bool) (v w : ℝ) : signed neg v * w = signed neg (v * w) := by
  cases neg <;> simp [signed]

theorem compVal_eq {f : SampleFmt} (x : Comp f) :
    compVal x = signed (signOf x) (magUnits f (magOf x)) / 2 ^ unitExp f := by
  rw [compVal, toUnits_eq_signed]

/-- The nearest magnitude with a sign is the signed number rounded once. -/
theorem NearestMag.isRounded {f : SampleFmt} {v : ℝ} {k : Nat} (h : NearestMag f v k) (neg : Bool) (hv : 0 ≤ v) :
    IsRounded f (signed neg v / 2 ^ unitExp f) (packComp f neg (min k (infMag f))) := by
  have hu : (0 : ℝ) < 2 ^ unitExp f := by positivity
  have hover : overflowAt f ≤ |signed neg v / 2 ^ unitExp f| ↔ infMag f ≤ k := by
    rw [abs_div, abs_signed, abs_of_nonneg hv, abs_of_pos hu, le_div_iff₀ hu, h.infMag_le_iff]
  have dist : ∀ x y : ℝ, |x / 2 ^ unitExp f - y / 2 ^ unitExp f| = |x - y| / 2 ^ unitExp f := by
    intro x y
    rw [← sub_div, abs_div, abs_of_pos hu]
  unfold IsRounded
  split
  · rename_i ho
    have hvpos : 0 < v :=
      lt_of_lt_of_le (mul_pos (overflowAt_pos f) hu) (h.infMag_le_iff.mp (hover.mp ho))
    rw [Nat.min_eq_right (hover.mp ho), signed_div, decide_signed_neg neg (div_pos hvpos hu)]
  · rename_i ho
    have hk : k < infMag f := not_le.mp (fun hc => ho (hover.mpr hc))
    rw [Nat.min_eq_left hk.le]
    refine ⟨isFinite_packComp neg hk, fun z _ => ?_, fun z _ hne he => ?_⟩
    · rw [compVal_packComp neg (hk.trans (infMag_lt f)), compVal_eq, dist, dist, abs_signed_sub_signed,
        div_le_div_iff_of_pos_right hu]
      exact h.nearest_signed hv _ _ _
    · rw [compVal_packComp neg (hk.trans (infMag_lt f)), compVal_eq] at hne he
      rw [dist, dist, abs_signed_sub_signed, div_left_inj' hu.ne'] at he
      rw [magOf_packComp neg (hk.trans (infMag_lt f))]
      exact h.even_signed hv (fun hc => hne (by rw [hc])) he

/-- `roundComp` is the signed number `num / den` units rounded once. -/
theorem isRounded_roundComp {f : SampleFmt} (neg : Bool) {num den : Nat} {v : ℝ} (hd : 0 < den)
    (h : SameSide f num den v) (hv : 0 ≤ v) : IsRounded f (signed neg v / 2 ^ unitExp f) (roundComp f neg num den) :=
  (nearestMag_roundPattern hd h).isRounded neg hv

theorem isRounded_packComp_zero (f : SampleFmt) (neg : Bool) : IsRounded f 0 (packComp f neg 0) := by
  have h := (nearestMag_self f 0).isRounded neg (Nat.cast_nonneg _)
  simpa [signed] using h

/-! ### The primitives on finite operands -/

theorem not_isNaN_of_finite {f : SampleFmt} {x : Comp f} (h : isFinite x = true) : isNaN x = false := by
  simp only [isFinite, isNaN, decide_eq_true_eq, decide_eq_false_iff_not] at *
  omega

theorem not_isInf_of_finite {f : SampleFmt} {x : Comp f} (h : isFinite x = true) : isInf x = false := by
  simp only [isFinite, isInf, decide_eq_true_eq, decide_eq_false_iff_not] at *
  omega

theorem isFinite_fneg {f : SampleFmt} (x : Comp f) : isFinite (fneg x) = isFinite x := by
  simp [isFinite, magOf_fneg]

theorem compVal_fneg {f : SampleFmt} (x : Comp f) : compVal (fneg x) = -compVal x := by
  simp [compVal, toUnits_fneg, neg_div]

/-- Twice the integer root of `q`, plus one where the root is not exact: what `fsqrt` rounds, over 2. -/
def twiceRoot (q : Nat) : Nat := 2 * Nat.sqrt q + (if Nat.sqrt q * Nat.sqrt q = q then 0 else 1)

theorem twiceRoot_div_two (q : Nat) : twiceRoot q / 2 = Nat.sqrt q := by
  unfold twiceRoot
  split <;> omega

theorem real_sqrt_le_natCast_iff {q s : Nat} : Real.sqrt q ≤ s ↔ q ≤ s * s := by
  rw [Real.sqrt_le_left (Nat.cast_nonneg s), ← Nat.cast_pow, Nat.cast_le, sq]

theorem natCast_le_real_sqrt_iff {q s : Nat} : (s : ℝ) ≤ Real.sqrt q ↔ s ≤ Nat.sqrt q := by
  rw [← Nat.le_floor_iff (Real.sqrt_nonneg _), Real.nat_floor_real_sqrt_eq_nat_sqrt]

/-- Where the granule is more than one unit, every multiple of half a granule is whole, so the integer root and
whether it is exact place the real root. -/
theorem sameSide_sqrt {f : SampleFmt} {q : Nat} (h : 0 < roundShift f (twiceRoot q) 2) :
    SameSide f (twiceRoot q) 2 (Real.sqrt q) := by
  by_cases hq : Nat.sqrt q * Nat.sqrt q = q
  · have hv : Real.sqrt q = (twiceRoot q : ℝ) / (2 : Nat) := by
      have hr : (q : ℝ) = (Nat.sqrt q : ℝ) ^ 2 := by rw [sq]; exact_mod_cast hq.symm
      rw [twiceRoot, if_pos hq, hr, Real.sqrt_sq (Nat.cast_nonneg _)]
      push_cast
      ring
    rw [hv]
    exact sameSide_div f _ two_pos
  · intro t
    obtain ⟨e, he⟩ := Nat.exists_eq_add_of_lt h
    have hs : t * 2 ^ roundShift f (twiceRoot q) 2 = 2 * (t * 2 ^ e) := by
      rw [he, Nat.zero_add, pow_succ]; ring
    have hs' : t * (2 * 2 ^ roundShift f (twiceRoot q) 2) = 4 * (t * 2 ^ e) := by
      rw [Nat.mul_left_comm, hs]; ring
    have hlt := Nat.lt_succ_sqrt q
    have hle := Nat.sqrt_le q
    rw [hs, hs', twiceRoot, if_neg hq]
    generalize t * 2 ^ e = s
    push_cast
    rw [mul_le_mul_iff_right₀ two_pos, mul_le_mul_iff_right₀ two_pos, natCast_le_real_sqrt_iff,
      real_sqrt_le_natCast_iff]
    refine ⟨by omega, fun hc => ?_, fun hc => ?_⟩
    · by_contra hn
      have : s ≤ Nat.sqrt q := by omega
      have := Nat.mul_le_mul this this
      omega
    · have : Nat.sqrt q + 1 ≤ s := by omega
      have := Nat.mul_le_mul this this
      exact (hlt.trans_le this).le

section Finite

variable {f : SampleFmt} {x y : Comp f}

theorem fadd_of_finite (hx : isFinite x = true) (hy : isFinite y = true) :
    fadd x y = if toUnits x + toUnits y = 0 then packComp f (signOf x && signOf y) 0
      else roundComp f (decide (toUnits x + toUnits y < 0)) (toUnits x + toUnits y).natAbs 1 := by
  simp [fadd, not_isNaN_of_finite, not_isInf_of_finite, hx, hy]

theorem fmul_of_finite (hx : isFinite x = true) (hy : isFinite y = true) :
    fmul x y = roundComp f (signOf x != signOf y) (magUnits f (magOf x) * magUnits f (magOf y)) (2 ^ unitExp f) := by
  simp [fmul, not_isNaN_of_finite, not_isInf_of_finite, hx, hy, natAbs_toUnits]

theorem fdiv_of_finite (hx : isFinite x = true) (hy : isFinite y = true) (hz : isZero y = false) :
    fdiv x y = roundComp f (signOf x != signOf y) (magUnits f (magOf x) * 2 ^ unitExp f) (magUnits f (magOf y)) := by
  simp [fdiv, not_isNaN_of_finite, not_isInf_of_finite, hx, hy, hz, natAbs_toUnits]

theorem fsqrt_of_finite (hx : isFinite x = true) (hz : isZero x = false) (hs : signOf x = false) :
    fsqrt x = roundComp f false (twiceRoot (magUnits f (magOf x) * 2 ^ unitExp f)) 2 := by
  simp [fsqrt, not_isNaN_of_finite, not_isInf_of_finite, hx, hz, hs, isqrt_eq_sqrt, twiceRoot]

theorem magUnits_pos_of_not_zero (h : isZero x = false) : 0 < magUnits f (magOf x) := by
  have : 0 < magOf x := by simpa [isZero, Nat.pos_iff_ne_zero] using h
  simpa using magUnits_strictMono f this

/-- The sum of finite components is rounded once. -/
theorem isRounded_fadd (hx : isFinite x = true) (hy : isFinite y = true) :
    IsRounded f (compVal x + compVal y) (fadd x y) := by
  have hval : compVal x + compVal y = ((toUnits x + toUnits y : ℤ) : ℝ) / 2 ^ unitExp f := by
    simp [compVal, add_div]
  rw [hval, fadd_of_finite hx hy]
  generalize toUnits x + toUnits y = s
  split
  · rename_i h0
    simpa [h0] using isRounded_packComp_zero f (signOf x && signOf y)
  · have hs : (s : ℝ) = signed (decide (s < 0)) ((s.natAbs : ℝ) / (1 : Nat)) := by
      rw [Nat.cast_one, div_one, Nat.cast_natAbs, signed]
      split
      · rename_i h
        rw [abs_of_neg (of_decide_eq_true h)]; simp
      · rename_i h
        rw [abs_of_nonneg (by simpa using h)]
    rw [hs]
    exact isRounded_roundComp _ one_pos (sameSide_div f _ one_pos) (by positivity)

theorem isRounded_fsub (hx : isFinite x = true) (hy : isFinite y = true) :
    IsRounded f (compVal x - compVal y) (fsub x y) := by
  have h := isRounded_fadd hx (show isFinite (fneg y) = true by rw [isFinite_fneg, hy])
  rwa [compVal_fneg, ← sub_eq_add_neg] at h

theorem signed_mul_signed (a b : Bool) (v w : ℝ) : signed a v * signed b w = signed (a != b) (v * w) := by
  cases a <;> cases b <;> simp [signed]

theorem signed_div_signed (a b : Bool) (v w : ℝ) : signed a v / signed b w = signed (a != b) (v / w) := by
  cases a <;> cases b <;> simp [signed, neg_div, div_neg]

/-- The product of finite components is rounded once. -/
theorem isRounded_fmul (hx : isFinite x = true) (hy : isFinite y = true) :
    IsRounded f (compVal x * compVal y) (fmul x y) := by
  have hd : 0 < 2 ^ unitExp f := Nat.two_pow_pos _
  have hval : compVal x * compVal y = signed (signOf x != signOf y)
      ((magUnits f (magOf x) * magUnits f (magOf y) : Nat) / (2 ^ unitExp f : Nat)) / 2 ^ unitExp f := by
    rw [compVal_eq, compVal_eq, div_mul_div_comm, signed_mul_signed, ← signed_div, div_div]
    push_cast
    rfl
  rw [hval, fmul_of_finite hx hy]
  exact isRounded_roundComp _ hd (sameSide_div f _ hd) (by positivity)

/-- The quotient of a finite component by a nonzero one is rounded once. -/
theorem isRounded_fdiv (hx : isFinite x = true) (hy : isFinite y = true) (hz : isZero y = false) :
    IsRounded f (compVal x / compVal y) (fdiv x y) := by
  have hd := magUnits_pos_of_not_zero hz
  have hval : compVal x / compVal y = signed (signOf x != signOf y)
      ((magUnits f (magOf x) * 2 ^ unitExp f : Nat) / (magUnits f (magOf y) : Nat)) / 2 ^ unitExp f := by
    rw [compVal_eq, compVal_eq, div_div_div_cancel_right₀ (by positivity), signed_div_signed, signed_div]
    congr 1
    push_cast
    field_simp
  rw [hval, fdiv_of_finite hx hy hz]
  exact isRounded_roundComp _ hd (sameSide_div f _ hd) (by positivity)

theorem compVal_of_zero (h : isZero x = true) : compVal x = 0 := by
  have : magOf x = 0 := by simpa [isZero] using h
  simp [compVal_eq, this, signed]

/-- The root of a finite component that is not negative is rounded once. -/
theorem isRounded_fsqrt (hx : isFinite x = true) (hpos : 0 ≤ compVal x) :
    IsRounded f (Real.sqrt (compVal x)) (fsqrt x) := by
  cases hz : isZero x with
  | true =>
    have hmag : magOf x = 0 := by simpa [isZero] using hz
    have hroot : fsqrt x = packComp f (signOf x) 0 := by
      rw [← hmag, packComp_signOf_magOf]
      simp [fsqrt, not_isNaN_of_finite hx, hz]
    rw [hroot, compVal_of_zero hz, Real.sqrt_zero]
    exact isRounded_packComp_zero f _
  | false =>
    have hu := magUnits_pos_of_not_zero hz
    have hs : signOf x = false := by
      by_contra hc
      rw [Bool.not_eq_false] at hc
      rw [compVal_eq, hc, signed, if_pos rfl, neg_div] at hpos
      have : (0 : ℝ) < magUnits f (magOf x) / 2 ^ unitExp f := by positivity
      linarith
    have hval : Real.sqrt (compVal x)
        = signed false (Real.sqrt (magUnits f (magOf x) * 2 ^ unitExp f : Nat)) / 2 ^ unitExp f := by
      have hsq : (magUnits f (magOf x) : ℝ) / 2 ^ unitExp f
          = (magUnits f (magOf x) * 2 ^ unitExp f : Nat) / (2 ^ unitExp f) ^ 2 := by
        push_cast
        field_simp
      rw [compVal_eq, hs, signed, signed, if_neg (by decide), if_neg (by decide), hsq,
        Real.sqrt_div (Nat.cast_nonneg _), Real.sqrt_sq (by positivity)]
    have hsh : 0 < roundShift f (twiceRoot (magUnits f (magOf x) * 2 ^ unitExp f)) 2 := by
      have hexp : f.fracBits + 1 + (f.fracBits + 1) ≤ unitExp f := by cases f <;> decide
      rw [roundShift, twiceRoot_div_two, Nat.sub_pos_iff_lt, ← not_le, bitLength_le_iff, not_lt, Nat.le_sqrt, ← pow_add]
      exact (Nat.pow_le_pow_right two_pos hexp).trans (Nat.le_mul_of_pos_left _ hu)
    rw [hval, fsqrt_of_finite hx hz hs]
    exact isRounded_roundComp _ two_pos (sameSide_sqrt hsh) (Real.sqrt_nonneg _)

end Finite

/-- Settles O18: the exact result of each primitive lies between two neighbouring patterns, of which `roundMag` takes the
nearer. -/
theorem arithmeticRoundsTheExactResultOnce : Obligations.ArithmeticRoundsTheExactResultOnce := by
  intro f x y hx hy
  exact ⟨isRounded_fadd hx hy, isRounded_fsub hx hy, isRounded_fmul hx hy, isRounded_fdiv hx hy, isRounded_fsqrt hx⟩

end Sys2Proof.Machine
end

section
/-! PROOF. Numbers that need no rounding, and scaling by powers of two (00_scope.md R28). -/

namespace Sys2Proof.Machine

/-! ### Exact results (R28): scaling by a power of two -/

theorem exists_magUnits_double (f : SampleFmt) (k : Nat) : ∃ j, magUnits f j = 2 * magUnits f k := by
  obtain ⟨sh, m, rfl, hfull, hm⟩ := exists_granules f k
  rw [magUnits_granules hfull hm.le]
  rw [pow_succ] at hm
  rcases Nat.lt_or_ge m (2 ^ f.fracBits) with h | h
  · obtain rfl : sh = 0 := by omega
    exact ⟨0 * 2 ^ f.fracBits + 2 * m, by rw [magUnits_granules (.inl rfl) (by rw [pow_succ]; omega)]; ring⟩
  · exact ⟨(sh + 1) * 2 ^ f.fracBits + m, by rw [magUnits_granules (.inr h) (by rw [pow_succ]; omega)]; ring⟩

/-- A whole number that fits the precision, times a power of two, has a magnitude pattern. -/
theorem exists_magUnits_eq {f : SampleFmt} {m : Nat} (hm : m < 2 ^ (f.fracBits + 1)) (e : Nat) :
    ∃ k, magUnits f k = m * 2 ^ e := by
  induction e with
  | zero => exact ⟨0 * 2 ^ f.fracBits + m, magUnits_granules (.inl rfl) hm.le⟩
  | succ e ih =>
    obtain ⟨k, hk⟩ := ih
    obtain ⟨j, hj⟩ := exists_magUnits_double f k
    exact ⟨j, by rw [hj, hk]; ring⟩

/-- The exact result of a scaling by `2^a / 2^b` has a pattern where it is at least the least normal number. -/
theorem exists_magUnits_scaled {f : SampleFmt} (k a b : Nat)
    (h : (2 : ℝ) ^ f.fracBits ≤ magUnits f k * 2 ^ a / 2 ^ b) :
    ∃ j, (magUnits f j : ℝ) = magUnits f k * 2 ^ a / 2 ^ b := by
  obtain ⟨sh, m, rfl, hfull, hm⟩ := exists_granules f k
  rw [magUnits_granules hfull hm.le] at *
  rcases Nat.lt_or_ge (sh + a) b with hb | hb
  · exfalso
    have hm' : (m : ℝ) < 2 ^ f.fracBits * 2 := by rw [← pow_succ]; exact_mod_cast hm
    have hpow : (2 : ℝ) ^ sh * 2 ^ a * 2 ≤ 2 ^ b := by
      rw [← pow_add, ← pow_succ]
      exact pow_le_pow_right₀ one_le_two hb
    rw [le_div_iff₀ (by positivity)] at h
    push_cast at h
    have hF : (0 : ℝ) < 2 ^ f.fracBits := by positivity
    have hs : (0 : ℝ) < 2 ^ sh * 2 ^ a := by positivity
    nlinarith
  · obtain ⟨e, he⟩ := Nat.exists_eq_add_of_le hb
    obtain ⟨j, hj⟩ := exists_magUnits_eq hm e
    refine ⟨j, ?_⟩
    rw [hj, eq_div_iff (by positivity)]
    push_cast
    rw [mul_assoc, mul_assoc, ← pow_add, ← pow_add, he, add_comm b]

theorem lt_infMag_iff {f : SampleFmt} {k : Nat} :
    k < infMag f ↔ (magUnits f k : ℝ) / 2 ^ unitExp f < overflowAt f := by
  rw [div_lt_iff₀ (by positivity), ← not_le, ← not_le, (nearestMag_self f k).infMag_le_iff]

theorem abs_compVal {f : SampleFmt} (x : Comp f) : |compVal x| = magUnits f (magOf x) / 2 ^ unitExp f := by
  rw [compVal_eq, abs_div, abs_signed, abs_of_nonneg (Nat.cast_nonneg _), abs_of_pos (by positivity)]

theorem abs_compVal_lt_overflowAt {f : SampleFmt} {x : Comp f} (h : isFinite x = true) :
    |compVal x| < overflowAt f := by
  rw [abs_compVal]
  exact lt_infMag_iff.mp (of_decide_eq_true h)

/-- A rounded number that a finite component stands for is that number. -/
theorem IsRounded.compVal_eq_of_exact {f : SampleFmt} {b z : Comp f} (h : IsRounded f (compVal z) b)
    (hz : isFinite z = true) : compVal b = compVal z := by
  rw [IsRounded, if_neg (not_le.mpr (abs_compVal_lt_overflowAt hz))] at h
  obtain ⟨-, hnear, -⟩ := h
  have := hnear z hz
  rw [sub_self, abs_zero, abs_nonpos_iff, sub_eq_zero] at this
  exact this.symm

/-- The least normal number is `2^fracBits` units. -/
theorem leastNormal_units (f : SampleFmt) : (1 : ℝ) / 2 ^ (f.bias - 1) * 2 ^ unitExp f = 2 ^ f.fracBits := by
  rw [unitExp, pow_add]
  field_simp

/-- A scaled component has a component of its exact value where that is normal and below the overflow threshold. -/
theorem exists_compVal_scaled {f : SampleFmt} (x : Comp f) (a b : Nat)
    (hmin : 1 / 2 ^ (f.bias - 1) ≤ |compVal x * 2 ^ a / 2 ^ b|) (hmax : |compVal x * 2 ^ a / 2 ^ b| < overflowAt f) :
    ∃ z : Comp f, isFinite z = true ∧ compVal z = compVal x * 2 ^ a / 2 ^ b := by
  have habs : |compVal x * 2 ^ a / 2 ^ b| = magUnits f (magOf x) * 2 ^ a / 2 ^ b / 2 ^ unitExp f := by
    rw [abs_div, abs_mul, abs_compVal, abs_of_pos (show (0 : ℝ) < 2 ^ a by positivity),
      abs_of_pos (show (0 : ℝ) < 2 ^ b by positivity)]
    ring
  rw [habs, le_div_iff₀ (by positivity), leastNormal_units] at hmin
  obtain ⟨j, hj⟩ := exists_magUnits_scaled _ a b hmin
  rw [habs, ← hj, ← lt_infMag_iff] at hmax
  refine ⟨packComp f (signOf x) j, isFinite_packComp _ hmax, ?_⟩
  rw [compVal_packComp _ (hmax.trans (infMag_lt f)), compVal_eq, hj, signed_div, signed_div, signed_mul, signed_div]
  congr 1
  ring

/-- A magnitude with a finite pattern rounds to it. -/
theorem roundComp_of_exact {f : SampleFmt} (neg : Bool) {num den j : Nat} (hd : 0 < den)
    (hj : magUnits f j * den = num) (hfin : j < infMag f) : roundComp f neg num den = packComp f neg j := by
  have hv : (num : ℝ) / den = magUnits f j := by
    rw [← hj, Nat.cast_mul, mul_div_cancel_right₀ _ (Nat.cast_ne_zero.mpr hd.ne')]
  rw [roundComp, roundMag_eq_min, (nearestMag_roundPattern hd (sameSide_div f num hd)).eq_of_exact hv,
    Nat.min_eq_left hfin.le]

theorem two_pow_sixteen_lt_overflowAt (f : SampleFmt) : (2 : ℝ) ^ 16 < overflowAt f :=
  lt_of_lt_of_le (pow_lt_pow_right₀ one_lt_two (by cases f <;> decide)) (two_pow_bias_le_overflowAt f)

/-- The constants of R28 are exact. -/
theorem ofRatio_two_pow (f : SampleFmt) {a b : Nat} (ha : a ≤ 16) (hb : b ≤ 16) :
    isFinite (ofRatio f (2 ^ a) (2 ^ b)) = true ∧ compVal (ofRatio f (2 ^ a) (2 ^ b)) = 2 ^ a / 2 ^ b := by
  have hU : 16 ≤ unitExp f := by cases f <;> decide
  obtain ⟨j, hj⟩ := exists_magUnits_eq (f := f) (m := 1) (Nat.one_lt_two_pow (by omega)) (a + (unitExp f - b))
  have hnum : magUnits f j * 2 ^ b = 2 ^ a * 2 ^ unitExp f := by
    rw [hj, one_mul, ← pow_add, ← pow_add]
    congr 1
    omega
  have hval : (magUnits f j : ℝ) / 2 ^ unitExp f = 2 ^ a / 2 ^ b := by
    rw [div_eq_div_iff (by positivity) (by positivity)]
    exact_mod_cast hnum
  have hfin : j < infMag f := by
    rw [lt_infMag_iff, hval]
    calc (2 : ℝ) ^ a / 2 ^ b ≤ 2 ^ a := div_le_self (by positivity) (one_le_pow₀ one_le_two)
      _ ≤ 2 ^ 16 := pow_le_pow_right₀ one_le_two ha
      _ < overflowAt f := two_pow_sixteen_lt_overflowAt f
  rw [ofRatio, roundComp_of_exact false (Nat.two_pow_pos b) hnum hfin]
  refine ⟨isFinite_packComp _ hfin, ?_⟩
  rw [compVal_packComp _ (hfin.trans (infMag_lt f)), signed, if_neg (by decide), hval]

/-- Settles O22: the exact result has a component of its own, and rounding keeps such a number. -/
theorem powerOfTwoScalingIsExact : Obligations.PowerOfTwoScalingIsExact := by
  intro f x m hm hx
  obtain ⟨hfin, hval⟩ := ofRatio_two_pow f hm (Nat.zero_le 16)
  obtain ⟨hfin', hval'⟩ := ofRatio_two_pow f (show 1 ≤ 16 by norm_num) hm
  simp only [pow_zero, pow_one, div_one] at hfin hval hfin' hval'
  refine ⟨hval, hval', fun hmin => ?_, fun hmin hmax => ?_⟩
  · have hz : isZero (ofRatio f (2 ^ m) 1) = false := by
      rw [← Bool.not_eq_true]
      exact fun h => (by positivity : (2 : ℝ) ^ m ≠ 0) (hval.symm.trans (compVal_of_zero h))
    have hmax : |compVal x / 2 ^ m| < overflowAt f := by
      refine lt_of_le_of_lt ?_ (abs_compVal_lt_overflowAt hx)
      rw [abs_div, abs_of_pos (show (0 : ℝ) < 2 ^ m by positivity)]
      exact div_le_self (abs_nonneg _) (one_le_pow₀ one_le_two)
    obtain ⟨z, hzf, hzv⟩ := exists_compVal_scaled x 0 m (by simpa using hmin) (by simpa using hmax)
    have h := isRounded_fdiv hx hfin hz
    rw [pow_zero, mul_one] at hzv
    rw [hval, ← hzv] at h
    rw [h.compVal_eq_of_exact hzf, hzv]
  · rw [← mul_div_assoc] at hmin hmax
    obtain ⟨z, hzf, hzv⟩ := exists_compVal_scaled x 1 m (by simpa using hmin) (by simpa using hmax)
    have h := isRounded_fmul hx hfin'
    rw [pow_one, mul_div_assoc] at hzv
    rw [hval', ← hzv] at h
    rw [h.compVal_eq_of_exact hzf, hzv]

end Sys2Proof.Machine
end

section
/-! PROOF. The corners of the arithmetic: NaNs, signed zeros and infinities, operand order (00_scope.md R23, R24,
R26). -/

namespace Sys2Proof.Machine

/-! ### NaNs, zeros, infinities and operand order (R23, R24, R26) -/

section Classes

variable {f : SampleFmt} {x y : Comp f}

theorem not_isNaN_of_isInf (h : isInf x = true) : isNaN x = false := by
  simp only [isInf, isNaN, decide_eq_true_eq, decide_eq_false_iff_not] at *
  omega

theorem isFinite_of_isZero (h : isZero x = true) : isFinite x = true := by
  have := infMag_pos f
  simp only [isZero, isFinite, decide_eq_true_eq] at *
  omega

theorem not_isZero_of_isInf (h : isInf x = true) : isZero x = false := by
  have := infMag_pos f
  simp only [isInf, isZero, decide_eq_true_eq, decide_eq_false_iff_not] at *
  omega

theorem isNaN_fneg (x : Comp f) : isNaN (fneg x) = isNaN x := by simp [isNaN, magOf_fneg]

theorem isInf_fneg (x : Comp f) : isInf (fneg x) = isInf x := by simp [isInf, magOf_fneg]

theorem isNaN_packComp_infMag (f : SampleFmt) (neg : Bool) : isNaN (packComp f neg (infMag f)) = false := by
  simp [isNaN, magOf_packComp neg (infMag_lt f)]

theorem isNaN_packComp_zero (f : SampleFmt) (neg : Bool) : isNaN (packComp f neg 0) = false := by
  simp [isNaN, magOf_packComp neg (Nat.two_pow_pos _)]

/-! Operand order -/

/-- Components that are both infinite, of equal signs, are the same. -/
theorem eq_of_isInf (hx : isInf x = true) (hy : isInf y = true) (hs : signOf x = signOf y) : x = y := by
  simp only [isInf, decide_eq_true_eq] at hx hy
  exact comp_ext hs (hx.trans hy.symm)

theorem fadd_comm (x y : Comp f) : fadd x y = fadd y x := by
  unfold fadd
  rw [Bool.or_comm, Bool.and_comm (signOf x), Int.add_comm (toUnits x)]
  cases hx : isInf x <;> cases hy : isInf y
  · rfl
  · simp
  · simp
  · by_cases hs : signOf x = signOf y
    · rw [eq_of_isInf hx hy hs]
    · simp [hs, Ne.symm hs]

theorem fmul_comm (x y : Comp f) : fmul x y = fmul y x := by
  unfold fmul
  rw [Bool.or_comm (isNaN x), Bool.or_comm (isInf x), Bool.or_comm (isZero x), Nat.mul_comm (toUnits x).natAbs,
    bne_comm]

/-! NaN results -/

/-- A component that is the canonical NaN if it is a NaN at all (R23). -/
def NaNIsCanonical (r : Comp f) : Prop := isNaN r = true → r = canonNaN f

theorem nanIsCanonical_canonNaN (f : SampleFmt) : NaNIsCanonical (canonNaN f) := fun _ => rfl

theorem nanIsCanonical_of_not_isNaN {r : Comp f} (h : isNaN r = false) : NaNIsCanonical r :=
  fun hr => absurd hr (by simp [h])

theorem nanIsCanonical_ite {c : Prop} [Decidable c] {a b : Comp f} (ha : c → NaNIsCanonical a)
    (hb : ¬c → NaNIsCanonical b) : NaNIsCanonical (if c then a else b) := by
  split
  · exact ha ‹_›
  · exact hb ‹_›

theorem nanIsCanonical_fadd (x y : Comp f) : NaNIsCanonical (fadd x y) := by
  refine nanIsCanonical_ite (fun _ => nanIsCanonical_canonNaN f) (fun hn => ?_)
  obtain ⟨hx, hy⟩ : isNaN x = false ∧ isNaN y = false := by simpa using hn
  exact nanIsCanonical_ite
    (fun _ => nanIsCanonical_ite (fun _ => nanIsCanonical_canonNaN f) (fun _ => nanIsCanonical_of_not_isNaN hx))
    (fun _ => nanIsCanonical_ite (fun _ => nanIsCanonical_of_not_isNaN hy)
      (fun _ => nanIsCanonical_ite (fun _ => nanIsCanonical_of_not_isNaN (isNaN_packComp_zero f _))
        (fun _ => nanIsCanonical_of_not_isNaN (isNaN_roundComp f _ _ _))))

theorem nanIsCanonical_fmul (x y : Comp f) : NaNIsCanonical (fmul x y) :=
  nanIsCanonical_ite (fun _ => nanIsCanonical_canonNaN f)
    (fun _ => nanIsCanonical_ite
      (fun _ => nanIsCanonical_ite (fun _ => nanIsCanonical_canonNaN f)
        (fun _ => nanIsCanonical_of_not_isNaN (isNaN_packComp_infMag f _)))
      (fun _ => nanIsCanonical_of_not_isNaN (isNaN_roundComp f _ _ _)))

theorem nanIsCanonical_fdiv (x y : Comp f) : NaNIsCanonical (fdiv x y) := by
  have hinf : ∀ neg, NaNIsCanonical (packComp f neg (infMag f)) :=
    fun neg => nanIsCanonical_of_not_isNaN (isNaN_packComp_infMag f neg)
  exact nanIsCanonical_ite (fun _ => nanIsCanonical_canonNaN f)
    (fun _ => nanIsCanonical_ite
      (fun _ => nanIsCanonical_ite (fun _ => nanIsCanonical_canonNaN f) (fun _ => hinf _))
      (fun _ => nanIsCanonical_ite (fun _ => nanIsCanonical_of_not_isNaN (isNaN_packComp_zero f _))
        (fun _ => nanIsCanonical_ite
          (fun _ => nanIsCanonical_ite (fun _ => nanIsCanonical_canonNaN f) (fun _ => hinf _))
          (fun _ => nanIsCanonical_of_not_isNaN (isNaN_roundComp f _ _ _)))))

theorem nanIsCanonical_fsqrt (x : Comp f) : NaNIsCanonical (fsqrt x) := by
  refine nanIsCanonical_ite (fun _ => nanIsCanonical_canonNaN f) (fun hn => ?_)
  have hx : NaNIsCanonical x := nanIsCanonical_of_not_isNaN (by simpa using hn)
  exact nanIsCanonical_ite (fun _ => hx)
    (fun _ => nanIsCanonical_ite (fun _ => nanIsCanonical_canonNaN f)
      (fun _ => nanIsCanonical_ite (fun _ => hx) (fun _ => nanIsCanonical_of_not_isNaN (isNaN_roundComp f _ _ _))))

/-! Invalid operations -/

theorem fadd_of_isNaN (h : isNaN x = true ∨ isNaN y = true) : fadd x y = canonNaN f := by
  rw [fadd, if_pos (by simpa using h)]

theorem fsub_of_isNaN (h : isNaN x = true ∨ isNaN y = true) : fsub x y = canonNaN f :=
  fadd_of_isNaN (by rwa [isNaN_fneg])

theorem fmul_of_isNaN (h : isNaN x = true ∨ isNaN y = true) : fmul x y = canonNaN f := by
  rw [fmul, if_pos (by simpa using h)]

theorem fdiv_of_isNaN (h : isNaN x = true ∨ isNaN y = true) : fdiv x y = canonNaN f := by
  rw [fdiv, if_pos (by simpa using h)]

theorem fsqrt_of_isNaN (h : isNaN x = true) : fsqrt x = canonNaN f := by rw [fsqrt, if_pos h]

theorem fadd_of_opposite_isInf (hx : isInf x = true) (hy : isInf y = true) (hs : signOf x ≠ signOf y) :
    fadd x y = canonNaN f := by
  simp [fadd, not_isNaN_of_isInf, hx, hy, hs]

theorem fsub_of_equal_isInf (hx : isInf x = true) (hy : isInf y = true) (hs : signOf x = signOf y) :
    fsub x y = canonNaN f :=
  fadd_of_opposite_isInf hx (by rwa [isInf_fneg]) (by simp [signOf_fneg, hs])

theorem fdiv_of_isInf_of_isInf (hx : isInf x = true) (hy : isInf y = true) : fdiv x y = canonNaN f := by
  simp [fdiv, hx, hy]

theorem fmul_of_isZero_of_isInf (hx : isZero x = true) (hy : isInf y = true) : fmul x y = canonNaN f := by
  simp [fmul, hx, hy]

theorem fdiv_of_isZero_of_isZero (hx : isZero x = true) (hy : isZero y = true) : fdiv x y = canonNaN f := by
  simp [fdiv, not_isInf_of_finite, isFinite_of_isZero, hx, hy]

theorem fsqrt_of_negative (hs : signOf x = true) (hz : isZero x = false) : fsqrt x = canonNaN f := by
  simp [fsqrt, hs, hz]

/-! Zeros and infinities -/

@[simp] theorem isZero_packComp_zero (f : SampleFmt) (neg : Bool) : isZero (packComp f neg 0) = true := by
  simp [isZero, magOf_packComp neg (Nat.two_pow_pos _)]

@[simp] theorem isInf_packComp_infMag (f : SampleFmt) (neg : Bool) : isInf (packComp f neg (infMag f)) = true := by
  simp [isInf, magOf_packComp neg (infMag_lt f)]

@[simp] theorem signOf_packComp_zero (f : SampleFmt) (neg : Bool) : signOf (packComp f neg 0) = neg :=
  signOf_packComp neg (Nat.two_pow_pos _)

theorem posZero_eq_packComp (f : SampleFmt) : posZero f = packComp f false 0 := by simp [posZero, packComp]

theorem toUnits_of_isZero (h : isZero x = true) : toUnits x = 0 := by
  have hm : magOf x = 0 := of_decide_eq_true h
  simp [toUnits, hm]

theorem roundComp_zero (f : SampleFmt) (neg : Bool) {den : Nat} (hd : 0 < den) :
    roundComp f neg 0 den = packComp f neg 0 :=
  roundComp_of_exact neg hd (by simp) (infMag_pos f)

/-- A finite sum that is exactly zero is `+0` unless both operands are negative. -/
theorem fadd_of_exact_zero (hx : isFinite x = true) (hy : isFinite y = true) (h : toUnits x + toUnits y = 0) :
    fadd x y = packComp f (signOf x && signOf y) 0 := by
  rw [fadd_of_finite hx hy, if_pos h]

theorem fadd_of_isZero_of_isZero (hx : isZero x = true) (hy : isZero y = true) :
    fadd x y = packComp f (signOf x && signOf y) 0 :=
  fadd_of_exact_zero (isFinite_of_isZero hx) (isFinite_of_isZero hy)
    (by rw [toUnits_of_isZero hx, toUnits_of_isZero hy]; rfl)

theorem fadd_fneg_self (hx : isFinite x = true) : fadd x (fneg x) = posZero f := by
  rw [fadd_of_exact_zero hx (by rwa [isFinite_fneg]) (by rw [toUnits_fneg]; omega), posZero_eq_packComp, signOf_fneg,
    Bool.and_not_self]

theorem fadd_of_isInf_of_finite (hx : isInf x = true) (hy : isFinite y = true) : fadd x y = x := by
  simp [fadd, not_isNaN_of_isInf, not_isNaN_of_finite, not_isInf_of_finite, hx, hy]

theorem fmul_of_isZero_of_finite (hx : isZero x = true) (hy : isFinite y = true) :
    fmul x y = packComp f (signOf x != signOf y) 0 := by
  have hm : magOf x = 0 := of_decide_eq_true hx
  rw [fmul_of_finite (isFinite_of_isZero hx) hy, hm, magUnits_zero, Nat.zero_mul,
    roundComp_zero f _ (Nat.two_pow_pos _)]

theorem fdiv_of_isZero_of_finite (hx : isZero x = true) (hy : isFinite y = true) (hz : isZero y = false) :
    fdiv x y = packComp f (signOf x != signOf y) 0 := by
  have hm : magOf x = 0 := of_decide_eq_true hx
  rw [fdiv_of_finite (isFinite_of_isZero hx) hy hz, hm, magUnits_zero, Nat.zero_mul,
    roundComp_zero f _ (magUnits_pos_of_not_zero hz)]

theorem fsqrt_of_isZero (hx : isZero x = true) : fsqrt x = x := by
  simp [fsqrt, not_isNaN_of_finite, isFinite_of_isZero, hx]

theorem fsqrt_of_posInf (f : SampleFmt) : fsqrt (packComp f false (infMag f)) = packComp f false (infMag f) := by
  have hi := isInf_packComp_infMag f false
  simp [fsqrt, not_isNaN_of_isInf hi, not_isZero_of_isInf hi, hi, signOf_packComp false (infMag_lt f)]

end Classes

/-- Settles O21: every test and every exact result of the two primitives is symmetric. -/
theorem operandOrderDoesNotMatter : Obligations.OperandOrderDoesNotMatter := fun _ x y => ⟨fadd_comm x y, fmul_comm x y⟩

/-- Settles O19: the invalid operations one by one, and the branches of each primitive for the other NaNs. -/
theorem nanResultsAreCanonical : Obligations.NaNResultsAreCanonical := by
  refine ⟨by decide, by decide, fun f x y => ⟨fun h => ?_, fsqrt_of_isNaN, fun hx hy => ?_, fun hx hy => ?_,
    fdiv_of_isZero_of_isZero, fsqrt_of_negative, fun r hr => ?_⟩⟩
  · exact ⟨fadd_of_isNaN h, fsub_of_isNaN h, fmul_of_isNaN h, fdiv_of_isNaN h⟩
  · exact ⟨fadd_of_opposite_isInf hx hy, fsub_of_equal_isInf hx hy, fdiv_of_isInf_of_isInf hx hy⟩
  · have h := fmul_of_isZero_of_isInf hx hy
    exact ⟨h, fmul_comm x y ▸ h⟩
  · simp only [List.mem_cons, List.not_mem_nil, or_false] at hr
    rcases hr with rfl | rfl | rfl | rfl | rfl
    · exact nanIsCanonical_fadd x y
    · exact nanIsCanonical_fadd x (fneg y)
    · exact nanIsCanonical_fmul x y
    · exact nanIsCanonical_fdiv x y
    · exact nanIsCanonical_fsqrt x

/-- Settles O20: one lemma per line of R24. -/
theorem signedZerosAndInfinities : Obligations.SignedZerosAndInfinities := by
  intro f x y
  have zero : ∀ a b, fadd (packComp f a 0) (packComp f b 0) = packComp f (a && b) 0 := fun a b => by
    simp [fadd_of_isZero_of_isZero]
  refine ⟨fun hx _ => fadd_fneg_self hx, ?_, zero true true, ?_, rfl, fun hx hy => ?_, fun hx hy => ?_,
    fdiv_of_isZero_of_finite, ?_, fsqrt_of_isZero (isZero_packComp_zero f true), fsqrt_of_posInf f, fun hs hz => ?_, ?_,
    fun hx hy => ?_⟩
  · rw [posZero_eq_packComp]; exact zero false true
  · rw [posZero_eq_packComp]; exact zero false false
  · have h := fmul_of_isZero_of_finite hx hy
    exact ⟨h, fmul_comm x y ▸ h⟩
  · rw [fmul_of_isZero_of_isInf hx hy, isNaN_canonNaN]
  · rw [posZero_eq_packComp]; exact fsqrt_of_isZero (isZero_packComp_zero f false)
  · rw [fsqrt_of_negative hs hz, isNaN_canonNaN]
  · rw [fadd_of_opposite_isInf (isInf_packComp_infMag f false) (isInf_packComp_infMag f true)
      (by simp [signOf_packComp _ (infMag_lt f)]), isNaN_canonNaN]
  · have h := fadd_of_isInf_of_finite hx hy
    exact ⟨h, fadd_comm x y ▸ h⟩

end Sys2Proof.Machine
end

section
/-! PROOF. The invariant of the machine, kept by each event (10_state.md R62, R287). -/

namespace Sys2Proof.Machine

/-! ### Two runs of a loop -/

/-- Two loops that answer keep a relation each pair of bodies keeps. -/
theorem forUpTo_rel {α : Type} {n : Nat} {body body' : Nat → α → Except Fault α} {x x' z z' : α}
    (R : Nat → α → α → Prop) (h : forUpTo n body x = .ok z) (h' : forUpTo n body' x' = .ok z') (h0 : R 0 x x')
    (hs : ∀ i y y' u u', i < n → R i y y' → body i y = .ok u → body' i y' = .ok u' → R (i + 1) u u') : R n z z' := by
  induction n generalizing z z' with
  | zero =>
    simp only [forUpTo_zero, Except.ok.injEq] at h h'
    exact h ▸ h' ▸ h0
  | succ n ih =>
    rw [forUpTo_succ] at h h'
    obtain ⟨y, hy, hz⟩ := bind_eq_ok.mp h
    obtain ⟨y', hy', hz'⟩ := bind_eq_ok.mp h'
    exact hs n y y' z z' (by omega) (ih hy hy' (fun i y y' u u' hi => hs i y y' u u' (by omega))) hz hz'

/-! ### Memories that agree on an entry -/

theorem readComp_eq_some {f : SampleFmt} {m : Memory} {a : Nat} {x : Comp f} :
    m.readComp f a = some x ↔ m.readLE a f.compBytes = some x.toNat := by
  rw [Memory.readComp, Option.map_eq_some_iff]
  constructor
  · rintro ⟨v, hv, rfl⟩
    have hlt := readLE_lt hv
    rw [pow_compBytes] at hlt
    rw [hv, BitVec.toNat_ofNat, Nat.mod_eq_of_lt hlt]
  · exact fun h => ⟨x.toNat, h, by rw [BitVec.ofNat_toNat, BitVec.setWidth_eq]⟩

/-- Two memories agree on every byte of entry `e`. -/
def AgreeOn (f : SampleFmt) (e : Nat) (m m' : Memory) : Prop :=
  ∀ a, entryOffset f e ≤ a → a < entryOffset f (e + 1) → m.readByte a = m'.readByte a

theorem agreeOn_of_readEntry {f : SampleFmt} {e : Nat} {m m' : Memory} {v : Entry f}
    (h : m.readEntry f e = some v) (h' : m'.readEntry f e = some v) : AgreeOn f e m m' := by
  obtain ⟨hre, him⟩ := readEntry_eq_some.mp h
  obtain ⟨hre', him'⟩ := readEntry_eq_some.mp h'
  rw [Memory.readRe, readComp_eq_some] at hre hre'
  rw [Memory.readIm, readComp_eq_some] at him him'
  intro a h1 h2
  rw [entryOffset_succ] at h2
  rcases Nat.lt_or_ge a (imOffset f e) with ha | ha
  · exact readByte_of_readLE hre' hre a h1 ha
  · exact readByte_of_readLE him' him a ha (by rw [imOffset_eq]; omega)

theorem agreeOn_writeEntry_self {f : SampleFmt} (m m' : Memory) (e : Nat) (v : Entry f) :
    AgreeOn f e (m.writeEntry f e v) (m'.writeEntry f e v) :=
  agreeOn_of_readEntry (readEntry_writeEntry_self f m e v) (readEntry_writeEntry_self f m' e v)

theorem AgreeOn.writeEntry {f : SampleFmt} {m m' : Memory} {e : Nat} (h : AgreeOn f e m m') (k : Nat) (v : Entry f) :
    AgreeOn f e (m.writeEntry f k v) (m'.writeEntry f k v) := by
  by_cases hk : k = e
  · exact hk ▸ agreeOn_writeEntry_self m m' k v
  · intro a h1 h2
    have ho : a < entryOffset f k ∨ entryOffset f (k + 1) ≤ a := by
      rcases Nat.lt_or_gt_of_ne hk with hlt | hgt
      · exact .inr ((entryOffset_mono hlt).trans h1)
      · exact .inl (h2.trans_le (entryOffset_mono hgt))
    rw [readByte_writeEntry_of_outside m v ho, readByte_writeEntry_of_outside m' v ho, h a h1 h2]

/-- The generator writes every entry, so what two tables held before does not matter (R142). -/
theorem generateTwiddles_agreeOn {f : SampleFmt} {nmax m : Nat} {tw tw' z z' : Memory}
    (h : generateTwiddles f nmax m tw = .ok z) (h' : generateTwiddles f nmax m tw' = .ok z') {e : Nat} (he : e < nmax) :
    AgreeOn f e z z' := by
  obtain ⟨y, hy, hz⟩ := bind_eq_ok.mp h
  obtain ⟨y', hy', hz'⟩ := bind_eq_ok.mp h'
  have halves : e < 2 * (2 ^ m / 2) → AgreeOn f e y y' := by
    intro hlt
    refine forUpTo_rel (fun i u u' => (e < i ∨ 2 ^ m / 2 ≤ e ∧ e < 2 ^ m / 2 + i) → AgreeOn f e u u')
      hy hy' (by omega) (fun i u u' w w' hi hR hw hw' hc => ?_) (by omega)
    simp only [Except.ok.injEq] at hw hw'
    subst hw hw'
    by_cases h1 : e = 2 ^ m / 2 + i
    · exact h1 ▸ agreeOn_writeEntry_self _ _ _ _
    · refine AgreeOn.writeEntry ?_ _ _
      by_cases h2 : e = i
      · exact h2 ▸ agreeOn_writeEntry_self _ _ _ _
      · exact (hR (by omega)).writeEntry _ _
  refine forUpTo_rel (fun i u u' => e < 2 * (2 ^ m / 2) + i → AgreeOn f e u u')
    hz hz' halves (fun i u u' w w' hi hR hw hw' hc => ?_) (by omega)
  simp only [Except.ok.injEq] at hw hw'
  subst hw hw'
  by_cases h1 : e = 2 * (2 ^ m / 2) + i
  · exact h1 ▸ agreeOn_writeEntry_self _ _ _ _
  · exact (hR (by omega)).writeEntry _ _

/-- Canonical tables inside the memory are overwritten whole: the generator's result does not depend on them. -/
theorem generateTwiddles_forgets {f : SampleFmt} {nmax m : Nat} {tw tw' z z' : Memory} (hm : 2 ^ m ≤ nmax)
    (h : generateTwiddles f nmax m tw = .ok z) (h' : generateTwiddles f nmax m tw' = .ok z')
    (hwf : tw.wf) (hwf' : tw'.wf) (hb : tw.below (entryOffset f nmax)) (hb' : tw'.below (entryOffset f nmax)) :
    z = z' := by
  have hw := generateTwiddles_writes hm h
  have hw' := generateTwiddles_writes hm h'
  refine memory_ext (hw.wf hwf) (hw'.wf hwf') (fun a => ?_)
  rcases Nat.lt_or_ge a (entryOffset f nmax) with ha | ha
  · have he : a / f.entryBytes < nmax := (Nat.div_lt_iff_lt_mul (entryBytes_pos f)).mpr ha
    exact generateTwiddles_agreeOn h h' he a (Nat.div_mul_le_self _ _)
      ((Nat.div_lt_iff_lt_mul (entryBytes_pos f)).mp (Nat.lt_succ_self _))
  · rw [readByte_eq_none_of_below (hw.below nmax le_rfl hb) ha,
      readByte_eq_none_of_below (hw'.below nmax le_rfl hb') ha]

/-! ### OUT_LEN after an effect (R53) -/

/-- Every command but CONFIGURE ends with the stage that sets OUT_LEN, over the N it leaves. -/
theorem effectOf_outLen {i : Instr} (hi : i ≠ .configure) {s t : State} (h : effectOf i s = .ok t) :
    t.outLen = if i = .realSpectrum then t.n / 2 + 1 else t.n := by
  have byPasses : ∀ {off : Nat} {u : State}, passes off u = .ok t → t.outLen = t.n := fun h => by
    obtain ⟨w, _, rfl⟩ := passes_ok.mp h; rfl
  have byScale : ∀ {u : State}, scale u = .ok t → t.outLen = t.n := fun h => by
    obtain ⟨w, _, rfl⟩ := scale_ok.mp h; rfl
  cases i with
  | configure => exact absurd rfl hi
  | forward =>
    obtain ⟨u, _, hu⟩ := bind_eq_ok.mp h
    exact byPasses hu
  | inverse =>
    obtain ⟨u, _, hu⟩ := bind_eq_ok.mp h
    exact byScale hu
  | realForward =>
    obtain ⟨u, _, hu⟩ := bind_eq_ok.mp h
    exact byPasses hu
  | realSpectrum =>
    obtain ⟨u, _, hu⟩ := bind_eq_ok.mp h
    obtain ⟨w, _, rfl⟩ := spectrum_ok.mp hu
    rfl
  | inverseReal =>
    obtain ⟨u, _, hu⟩ := bind_eq_ok.mp h
    obtain ⟨w, _, rfl⟩ := dropImag_ok.mp hu
    rfl
  | loadComplex =>
    obtain ⟨w, _, rfl⟩ := loadC_ok.mp h
    rfl
  | loadReal =>
    obtain ⟨w, _, rfl⟩ := loadR_ok.mp h
    rfl
  | bitrev =>
    obtain ⟨w, _, rfl⟩ := bitRev_ok.mp h
    rfl
  | butterflyFwd => exact byPasses h
  | butterflyInv => exact byPasses h
  | scaleInv => exact byScale h

/-! ### Validation that passes (R234) -/

theorem checkConfigured_ok {s : State} : s.checkConfigured = .ok ↔ s.configured = true := by
  unfold State.checkConfigured
  split <;> simp_all

theorem configured_of_checkLoading {s : State} (h : s.checkLoading = .ok) : s.configured = true := by
  unfold State.checkLoading at h
  split at h
  · assumption
  · cases h

/-- Every command but CONFIGURE passes its checks only while configured. -/
theorem configured_of_validate {i : Instr} (hi : i ≠ .configure) {s : State} (h : s.validate i = .ok) :
    s.configured = true := by
  cases i with
  | configure => exact absurd rfl hi
  | bitrev | butterflyFwd | butterflyInv | scaleInv => exact checkConfigured_ok.mp h
  | forward | inverse | realForward | realSpectrum | inverseReal | loadComplex | loadReal =>
    exact configured_of_checkLoading h

/-- CONFIGURE passes its checks exactly for a positive length of at most NMAX (R141). -/
theorem checkConfigure_ok {s : State} : s.checkConfigure = .ok ↔ 0 < s.reqLen ∧ s.reqLen ≤ s.cfg.nmax := by
  unfold State.checkConfigure
  split
  · simp; omega
  · split
    · simp; omega
    · simp; omega

/-! ### The invariant (R8, R46, R53, R57 to R60, R62, R142, R287) -/

theorem inv_afterReset {c : Config} (evs : List Event) (hc : c.wf = true) : (State.afterReset c evs).Inv where
  cfg_legal := hc
  in_wf := List.Pairwise.nil
  work_wf := List.Pairwise.nil
  tw_wf := List.Pairwise.nil
  in_below := fun _ h => nomatch h
  work_below := fun _ h => nomatch h
  tw_below := fun _ h => nomatch h
  configured_iff := by simp [State.afterReset]
  length_power := fun h => nomatch h
  unconfigured := fun _ => ⟨rfl, rfl⟩
  table := fun h => nomatch h
  outLen_le := le_rfl
  busy_done := fun h => nomatch h
  busy_word := fun h => nomatch h

section Inv

variable {s t : State}

theorem State.Inv.withPending (h : s.Inv) (evs : List Event) : ({ s with pending := evs } : State).Inv := { h with }

theorem State.Inv.answer (h : s.Inv) (r : BusResp) : (s.answer r).Inv := { h with }

theorem State.Inv.flagAccessErr (h : s.Inv) : s.flagAccessErr.Inv := { h with }

theorem State.Inv.finish (h : s.Inv) (e : ErrCode) : (s.finish e).Inv :=
  { h with
    busy_done := fun hb => nomatch hb
    busy_word := fun hb => nomatch hb }

theorem State.Inv.raiseCmdError (h : s.Inv) (e : ErrCode) : (s.raiseCmdError e).Inv :=
  { h with
    busy_done := fun hb => nomatch hb
    busy_word := fun hb => nomatch hb }

theorem State.Inv.w1c (h : s.Inv) (v : Word) : (s.w1c v).Inv :=
  { h with busy_done := fun hb => by simp [h.busy_done hb] }

theorem State.Inv.acceptCmd (h : s.Inv) (v : Word) : (s.acceptCmd v).Inv :=
  { h with busy_done := fun _ => rfl, busy_word := fun _ => rfl }

/-- A word at an aligned offset whose entry the memory has lies inside the memory. -/
theorem word_inside {f : SampleFmt} {o n : Nat} (ho : o / f.entryBytes < n) (h4 : o % 4 = 0) :
    o + 4 ≤ n * f.entryBytes := by
  rw [Nat.div_lt_iff_lt_mul (entryBytes_pos f)] at ho
  cases f <;> simp only [SampleFmt.entryBytes, SampleFmt.compBytes] at * <;> omega

theorem State.Inv.writeEffect (h : s.Inv) {v : Word} (hw : WriteEffect s v t) : t.Inv := by
  cases hw with
  | nothing => exact h
  | ctrl | overrun | cfgLen | inLen | accessErr => exact { h with }
  | status => exact h.w1c v
  | accepted => exact h.acceptCmd v
  | inMem o _ ho h4 =>
    exact { h with
      in_wf := writeWord_wf o v h.in_wf
      in_below := writeWord_below v h.in_below (word_inside ho h4) }
  | workMem o _ ho h4 =>
    exact { h with
      work_wf := writeWord_wf o v h.work_wf
      work_below := writeWord_below v h.work_below (word_inside ho h4) }

theorem State.Inv.hostAccess (h : s.Inv) {x : Access} (ht : hostAccess s x = .next t) : t.Inv := by
  rcases hostAccess_next_cases ht with ⟨r, rfl⟩ | ⟨-, r, rfl⟩ | ⟨v, u, hu, rfl⟩
  · exact h.answer r
  · exact h.flagAccessErr.answer r
  · exact (h.writeEffect hu).answer .ack

/-- The stages of a transform write WORK below N and set OUT_LEN within N. -/
theorem State.Inv.stageStep (h : s.Inv) (hc : s.configured = true) (ht : StageStep s t) (ho : t.outLen ≤ t.n) :
    t.Inv := by
  obtain ⟨hw, hrest⟩ := ht
  obtain ⟨hn, hm⟩ := h.length_power hc
  have hle : s.n ≤ s.cfg.nmax := hn ▸ Nat.pow_le_pow_right two_pos hm
  rw [hrest] at ho ⊢
  exact { h with
    work_wf := hw.wf h.work_wf
    work_below := hw.below s.cfg.nmax hle h.work_below
    outLen_le := ho }

/-- A CONFIGURE that passed its checks makes the table anew, whatever TW held. -/
theorem State.Inv.configureEffect (h : s.Inv) (hv : s.checkConfigure = .ok) (ht : configureEffect s = .ok t) :
    t.Inv := by
  obtain ⟨hpos, hmax⟩ := checkConfigure_ok.mp hv
  obtain ⟨tw, htw, rfl⟩ := configureEffect_ok.mp ht
  have hm : ceilLog2 s.reqLen.toNat ≤ s.cfg.log2Nmax := ceilLog2_le_iff.mpr (by rw [Config.nmax] at hmax; omega)
  have hle : 2 ^ ceilLog2 s.reqLen.toNat ≤ s.cfg.nmax := Nat.pow_le_pow_right two_pos hm
  have hw := generateTwiddles_writes hle htw
  obtain ⟨tw', htw'⟩ := generateTwiddles_total s.cfg.fmt s.cfg.nmax (ceilLog2 s.reqLen.toNat) []
  have hsame : tw' = tw :=
    generateTwiddles_forgets hle htw' htw List.Pairwise.nil h.tw_wf (fun _ hc => nomatch hc) h.tw_below
  exact { h with
    tw_wf := hw.wf h.tw_wf
    tw_below := hw.below s.cfg.nmax le_rfl h.tw_below
    configured_iff := by simp
    length_power := fun _ => ⟨rfl, hm⟩
    unconfigured := fun hc => nomatch hc
    table := fun _ => hsame ▸ htw'
    outLen_le := Nat.zero_le _ }

theorem State.Inv.effectOf (h : s.Inv) {i : Instr} (hv : s.validate i = .ok) (ht : effectOf i s = .ok t) : t.Inv := by
  by_cases hi : i = .configure
  · subst hi
    exact h.configureEffect hv ht
  · have hc := configured_of_validate hi hv
    have hstep := effectOf_step hi (h.length_power hc).1 ht
    refine h.stageStep hc hstep ?_
    have hn : t.n ≠ 0 := by rw [hstep.rest]; exact h.configured_iff.mp hc
    rw [effectOf_outLen hi ht]
    split <;> omega

theorem State.Inv.exec (h : s.Inv) {i : Instr} (ht : exec i s = .next t) : t.Inv := by
  rcases exec_next_cases ht with ⟨hv, u, hu, rfl⟩ | ⟨-, rfl⟩
  · exact (h.effectOf hv hu).finish .ok
  · exact h.raiseCmdError _

theorem State.Inv.controllerTurn (h : s.Inv) (ht : controllerTurn s = .next t) : t.Inv := by
  rcases controllerTurn_next_cases ht with ⟨-, hcomp⟩ | ⟨-, rfl⟩
  · rcases completionStep_next_cases hcomp with ⟨i, -, hi⟩ | ⟨-, rfl⟩
    · exact h.exec hi
    · exact h.raiseCmdError _
  · exact h

theorem State.Inv.takeEvent (h : s.Inv) {e : Event} (ht : takeEvent s e = .next t) : t.Inv := by
  cases e with
  | host x => exact h.hostAccess ht
  | controller => exact h.controllerTurn ht
  | rst =>
    cases ht
    exact inv_afterReset s.pending h.cfg_legal

end Inv

/-- A step is the controller's turn with no event to come, or takes the first event. -/
theorem step_cases (s : State) :
    (s.pending = [] ∧ step s = controllerTurn s) ∨
      ∃ e rest, s.pending = e :: rest ∧ step s = takeEvent { s with pending := rest } e := by
  unfold step nextStep
  cases s.pending with
  | nil => exact .inl ⟨rfl, rfl⟩
  | cons e rest => exact .inr ⟨e, rest, rfl, rfl⟩

/-- Settles O58: each event keeps the invariant, the controller's by the cases of a completion. -/
theorem everyStepKeepsTheInvariant : Obligations.EveryStepKeepsTheInvariant := by
  intro s t h ht
  rcases step_cases s with ⟨-, he⟩ | ⟨e, rest, -, he⟩
  · exact h.controllerTurn (he ▸ ht)
  · exact (h.withPending rest).takeEvent (he ▸ ht)

end Sys2Proof.Machine
end

section
/-! PROOF. The host's register accesses (10_state.md R42 to R55, 20_memory.md R80, R84): the register page as a map, what a read
and a write of each register answer, and the STATUS, CTRL and CAPS words bit by bit. -/

namespace Sys2Proof.Machine

/-! ### Performed accesses -/

/-- A performed read at a window offset (R80, R84). -/
theorem hostAccess_read {s : State} {a : Nat} (ha : a < windowBytes) (h4 : a % 4 = 0) :
    hostAccess s (.read (s.cfg.base + a) .w32) = hostRead s a := by
  simp [hostAccess, Access.addr, Access.width, Nat.not_le.mpr ha, h4]

/-- A performed write at a window offset (R80, R84). -/
theorem hostAccess_write {s : State} {a : Nat} (v : Word) (ha : a < windowBytes) (h4 : a % 4 = 0) :
    hostAccess s (.write (s.cfg.base + a) .w32 v) = .next (hostWrite s a v) := by
  simp [hostAccess, Access.addr, Access.width, Nat.not_le.mpr ha, h4]

/-! ### The register page -/

theorem regionOf_of_lt {a : Nat} (h : a < regionBytes) : regionOf a = .regs a := by
  simp [regionOf, Nat.div_eq_of_lt h, Nat.mod_eq_of_lt h]

/-- Only an offset of the first window lies in the register page. -/
theorem regionOf_regs_eq {a o : Nat} (ha : a < windowBytes) (h : regionOf a = .regs o) : a = o := by
  simp only [regionOf] at h
  split at h
  case h_1 hwindow =>
    cases h
    simp only [windowBytes, regionBytes] at *
    omega
  all_goals cases h

theorem regOffset_lt (r : Reg) : regOffset r < 0x030 := by cases r <;> decide

theorem regOffset_aligned (r : Reg) : regOffset r % 4 = 0 := by cases r <;> rfl

theorem regAt_regOffset (r : Reg) : regAt (regOffset r) = some r := by cases r <;> rfl

theorem regAt_some {o : Nat} {r : Reg} (h : regAt o = some r) : regOffset r = o := by
  simpa using List.find?_some h

theorem regAt_reserved {o : Nat} (h : 0x030 ≤ o) : regAt o = none :=
  List.find?_eq_none.mpr fun r _ => by
    have := regOffset_lt r
    simp only [beq_iff_eq]
    omega

theorem hostAccess_readReg (s : State) (r : Reg) :
    hostAccess s (.read (s.cfg.base + regOffset r) .w32) = .next (s.answer (.data (s.readReg r))) := by
  have := regOffset_lt r
  rw [hostAccess_read (by rw [windowBytes]; omega) (regOffset_aligned r), hostRead,
    regionOf_of_lt (by rw [regionBytes]; omega)]
  simp only [regAt_regOffset]

theorem hostAccess_writeReg (s : State) (r : Reg) (v : Word) :
    hostAccess s (.write (s.cfg.base + regOffset r) .w32 v) = .next ((s.writeReg r v).answer .ack) := by
  have := regOffset_lt r
  rw [hostAccess_write v (by rw [windowBytes]; omega) (regOffset_aligned r), hostWrite,
    regionOf_of_lt (by rw [regionBytes]; omega)]
  simp only [regAt_regOffset]

theorem hostAccess_reserved (s : State) (v : Word) {a : Nat} (hlo : 0x030 ≤ a) (hhi : a ≤ 0x0FFFFC) (h4 : a % 4 = 0) :
    hostAccess s (.write (s.cfg.base + a) .w32 v) = .next (s.answer .ack) ∧
      hostAccess s (.read (s.cfg.base + a) .w32) = .next (s.answer (.data 0)) := by
  rw [hostAccess_write v (by rw [windowBytes]; omega) h4, hostAccess_read (by rw [windowBytes]; omega) h4, hostWrite,
    hostRead, regionOf_of_lt (by rw [regionBytes]; omega)]
  simp only [regAt_reserved hlo, and_self]

/-- A register no host write changes (R43, R44, R51 to R54). -/
theorem writeReg_of_readOnly {r : Reg} (h : r ∉ [Reg.ctrl, Reg.status, Reg.cmd, Reg.cfgLen, Reg.inLen]) (s : State)
    (v : Word) : s.writeReg r v = s := by
  cases r with
  | id | version | caps | n | log2n | outLen | errCode => rfl
  | ctrl | status | cmd | cfgLen | inLen => exact absurd (by decide) h

/-- No register write sets ACCESS_ERR (R55). -/
theorem writeReg_accessErr {s : State} {r : Reg} {v : Word} (h : (s.writeReg r v).accessErr = true) :
    s.accessErr = true := by
  rcases writeReg_cases s r v with e | ⟨-, e⟩ | ⟨-, e⟩ | ⟨-, -, e⟩ | ⟨-, -, e⟩ | ⟨-, e⟩ | ⟨-, e⟩ <;> rw [e] at h
  case inr.inr.inl =>
    rw [w1c_accessErr, Bool.and_eq_true] at h
    exact h.1
  all_goals exact h

/-! ### The words of STATUS, CTRL and CAPS -/

theorem getLsbD_bitAt (b : Bool) {i : Nat} (hi : i < 32) (j : Nat) : (bitAt b i).getLsbD j = (b && decide (j = i)) := by
  cases b with
  | false => simp [bitAt]
  | true =>
    simp only [bitAt, if_true, BitVec.getLsbD_ofNat, Nat.testBit_two_pow, Bool.true_and]
    by_cases h : j = i
    · subst h; simp [hi]
    · simp [h, Ne.symm h]

/-- STATUS bit by bit (R46). -/
theorem getLsbD_statusWord (s : State) (j : Nat) : s.statusWord.getLsbD j =
    (s.busy && decide (j = 0) || s.done && decide (j = 1) || s.err && decide (j = 2) || s.sizeWarn && decide (j = 3)
      || s.overrun && decide (j = 4) || s.accessErr && decide (j = 5) || s.configured && decide (j = 6)) := by
  simp [State.statusWord, getLsbD_bitAt]

theorem getLsbD_statusWord_reserved (s : State) {j : Nat} (h : 7 ≤ j) : s.statusWord.getLsbD j = false := by
  have hne : ∀ i < 7, decide (j = i) = false := fun i hi => decide_eq_false (by omega)
  simp [getLsbD_statusWord, hne]

/-- A write of STATUS masks out the W1C bits written as 1 (R47). -/
theorem statusWord_w1c (s : State) (v : Word) : (s.w1c v).statusWord = s.statusWord &&& ~~~(v &&& 0x3E) := by
  refine BitVec.eq_of_getLsbD_eq fun j hj => ?_
  rw [BitVec.getLsbD_and, BitVec.getLsbD_not, BitVec.getLsbD_and]
  by_cases h : 7 ≤ j
  · rw [getLsbD_statusWord_reserved _ h, getLsbD_statusWord_reserved _ h, Bool.false_and]
  · simp only [getLsbD_statusWord]
    interval_cases j <;> simp

/-- A write of CTRL reads back its three bits (R45). -/
theorem ctrlWord_setCtrl (s : State) (v : Word) : (s.setCtrl v).ctrlWord = v &&& 7 := by
  refine BitVec.eq_of_getLsbD_eq fun j hj => ?_
  rw [BitVec.getLsbD_and]
  simp only [State.ctrlWord, BitVec.getLsbD_or, getLsbD_bitAt, setCtrl_ieDone, setCtrl_ieErr, setCtrl_oversizeReject,
    Nat.reduceLT]
  interval_cases j <;> simp

/-- The fields of CAPS (R44). -/
theorem capsWord_fields (c : Config) :
    (capsWord c).extractLsb' 0 5 = BitVec.ofNat 5 c.log2Nmax ∧ (capsWord c).extractLsb' 5 3 = 0 ∧
      (capsWord c).getLsbD 8 = decide (c.fmt = .f64) ∧ (capsWord c).extractLsb' 9 23 = 0 := by
  unfold capsWord
  generalize BitVec.ofNat 5 c.log2Nmax = x
  cases c.fmt <;> revert x <;> decide

/-! ### The statements -/

/-- Settles O51: the three constants, the fields of CAPS, and that no host write changes a read-only register. -/
theorem identificationRegisters : Obligations.IdentificationRegisters := by
  refine ⟨fun s r v hr => ?_, fun s => ⟨rfl, rfl, capsWord_fields s.cfg⟩⟩
  have hro : r ∉ [Reg.ctrl, Reg.status, Reg.cmd, Reg.cfgLen, Reg.inLen] := by
    revert r
    decide
  rw [hostAccess_writeReg, writeReg_of_readOnly hro]
  rfl

/-- Settles O50: each register by its write rule, the reserved offsets by `regAt_reserved`. -/
theorem registerWritesFollowTheMap : Obligations.RegisterWritesFollowTheMap := by
  intro s v
  refine ⟨hostAccess_writeReg s .ctrl v, ctrlWord_setCtrl s v, hostAccess_writeReg s .cfgLen v,
    hostAccess_writeReg s .inLen v, rfl, rfl, fun r hr => ?_, fun a hlo hhi h4 => hostAccess_reserved s v hlo hhi h4,
    fun r => ⟨hostAccess_readReg s r, _, hostAccess_writeReg s r v, writeReg_accessErr⟩⟩
  rw [hostAccess_writeReg, writeReg_of_readOnly hr]
  rfl

theorem code_eq_zero_iff (e : ErrCode) : e.code = 0 ↔ e = .ok := by cases e <;> decide

theorem code_le (e : ErrCode) : e.code.toNat ≤ 5 := by cases e <;> decide

theorem State.Inv.log2n_le {s : State} (h : s.Inv) : s.log2n ≤ 16 := by
  have hmax : s.cfg.log2Nmax ≤ 16 := by
    have := h.cfg_legal
    simp only [Config.wf, Bool.and_eq_true, decide_eq_true_eq] at this
    exact this.1
  cases hc : s.configured with
  | true => exact (h.length_power hc).2.trans hmax
  | false => rw [(h.unconfigured hc).1]; exact Nat.zero_le _

theorem State.Inv.n_eq_zero_iff {s : State} (h : s.Inv) : s.n = 0 ↔ s.configured = false := by
  rw [← Bool.not_eq_true, h.configured_iff, not_not]

theorem State.Inv.n_le {s : State} (h : s.Inv) : s.n ≤ 2 ^ 16 := by
  cases hc : s.configured with
  | true => exact (h.length_power hc).1 ▸ Nat.pow_le_pow_right two_pos h.log2n_le
  | false => exact h.n_eq_zero_iff.mpr hc ▸ Nat.zero_le _

/-- A field wide enough for a number reads it whole. -/
theorem toNat_zeroExtend_ofNat {w k : Nat} (hw : w ≤ 32) (hk : k < 2 ^ w) :
    ((BitVec.ofNat w k).zeroExtend 32).toNat = k := by
  rw [BitVec.zeroExtend, BitVec.toNat_setWidth_of_le hw, BitVec.toNat_ofNat, Nat.mod_eq_of_lt hk]

/-- Settles O52: the reads of the register page, and the bounds of the invariant that make three fields wide enough. -/
theorem registerReadsShowTheState : Obligations.RegisterReadsShowTheState := by
  intro s
  refine ⟨hostAccess_readReg s .cmd, hostAccess_readReg s .status, hostAccess_readReg s .errCode, code_le _,
    code_eq_zero_iff _, fun h => ⟨_, _, _, hostAccess_readReg s .n, hostAccess_readReg s .log2n,
      hostAccess_readReg s .outLen, ?_⟩⟩
  have hn := h.n_le
  have hl := h.log2n_le
  have ho := h.outLen_le
  have hread : (s.readReg .n).toNat = s.n := toNat_zeroExtend_ofNat (by decide) (by omega)
  refine ⟨hread, toNat_zeroExtend_ofNat (by decide) (by omega), toNat_zeroExtend_ofNat (by decide) (by omega), ?_⟩
  rw [← BitVec.toNat_inj, hread]
  exact h.n_eq_zero_iff

end Sys2Proof.Machine
end

section
/-! PROOF. What a command's completion leaves, in every state (60_exceptions.md R236, 10_state.md R46 to R60): the frame of each
effect, the outcome it records, and OUT_LEN. -/

namespace Sys2Proof.Machine

/-! ### The frame of each effect -/

/-- A stage changes WORK and OUT_LEN, and SIZE_WARN as a load that truncates (`b`) or does not. -/
def StageFrame (b : Bool) (s t : State) : Prop := t = ((s.withWork t.workMem).warnIf b).withOutLen t.outLen

section Frame

variable {s t u : State} {b : Bool}

theorem warnIf_false (s : State) : s.warnIf false = s := by simp [State.warnIf]

/-- A stage that loads nothing keeps SIZE_WARN. -/
theorem stageFrame_work (w : Memory) (k : Nat) : StageFrame false s ((s.withWork w).withOutLen k) :=
  congrArg (State.withOutLen · k) (warnIf_false (s.withWork w)).symm

theorem StageFrame.trans (h : StageFrame b s t) (h' : StageFrame false t u) : StageFrame b s u := by
  rw [StageFrame, warnIf_false, h] at h'
  exact h'

theorem StageFrame.configuration (h : StageFrame b s t) : KeepsConfiguration s t := by
  rw [h]
  constructor <;> rfl

theorem StageFrame.hostSide (h : StageFrame b s t) : KeepsHostSide s t := by
  rw [h]
  constructor <;> rfl

theorem StageFrame.err (h : StageFrame b s t) : t.err = s.err := by rw [h]; rfl

theorem StageFrame.sizeWarn (h : StageFrame b s t) : t.sizeWarn = (s.sizeWarn || b) := by rw [h]; rfl

theorem loadC_frame (h : loadC s = .ok t) : StageFrame (decide (s.n < s.lin)) s t := by
  obtain ⟨w, -, rfl⟩ := loadC_ok.mp h
  rfl

theorem loadR_frame (h : loadR s = .ok t) : StageFrame (decide (s.n < s.lin)) s t := by
  obtain ⟨w, -, rfl⟩ := loadR_ok.mp h
  rfl

theorem bitRev_frame (h : bitRev s = .ok t) : StageFrame false s t := by
  obtain ⟨w, -, rfl⟩ := bitRev_ok.mp h
  exact stageFrame_work w _

theorem passes_frame {off : Nat} (h : passes off s = .ok t) : StageFrame false s t := by
  obtain ⟨w, -, rfl⟩ := passes_ok.mp h
  exact stageFrame_work w _

theorem scale_frame (h : scale s = .ok t) : StageFrame false s t := by
  obtain ⟨w, -, rfl⟩ := scale_ok.mp h
  exact stageFrame_work w _

theorem spectrum_frame (h : spectrum s = .ok t) : StageFrame false s t := by
  obtain ⟨w, -, rfl⟩ := spectrum_ok.mp h
  exact stageFrame_work w _

theorem dropImag_frame (h : dropImag s = .ok t) : StageFrame false s t := by
  obtain ⟨w, -, rfl⟩ := dropImag_ok.mp h
  exact stageFrame_work w _

theorem inverseEffect_frame (h : inverseEffect s = .ok t) : StageFrame (decide (s.n < s.lin)) s t := by
  obtain ⟨_, h, hscale⟩ := bind_eq_ok.mp h
  obtain ⟨_, h, hpasses⟩ := bind_eq_ok.mp h
  obtain ⟨_, hload, hrev⟩ := bind_eq_ok.mp h
  exact (((loadC_frame hload).trans (bitRev_frame hrev)).trans (passes_frame hpasses)).trans (scale_frame hscale)

theorem realForwardEffect_frame (h : realForwardEffect s = .ok t) : StageFrame (decide (s.n < s.lin)) s t := by
  obtain ⟨_, h, hpasses⟩ := bind_eq_ok.mp h
  obtain ⟨_, hload, hrev⟩ := bind_eq_ok.mp h
  exact ((loadR_frame hload).trans (bitRev_frame hrev)).trans (passes_frame hpasses)

/-- Every command but CONFIGURE has the frame of a stage; only one that loads may set SIZE_WARN (R46, R160). -/
theorem effectOf_frame {i : Instr} (hi : i ≠ .configure) (h : effectOf i s = .ok t) :
    StageFrame (isLoading i && decide (s.n < s.lin)) s t := by
  cases i with
  | configure => exact absurd rfl hi
  | forward =>
    obtain ⟨_, h, hpasses⟩ := bind_eq_ok.mp h
    obtain ⟨_, hload, hrev⟩ := bind_eq_ok.mp h
    exact ((loadC_frame hload).trans (bitRev_frame hrev)).trans (passes_frame hpasses)
  | inverse => exact inverseEffect_frame h
  | realForward => exact realForwardEffect_frame h
  | realSpectrum =>
    obtain ⟨_, hforward, hspectrum⟩ := bind_eq_ok.mp h
    exact (realForwardEffect_frame hforward).trans (spectrum_frame hspectrum)
  | inverseReal =>
    obtain ⟨_, hinverse, hdrop⟩ := bind_eq_ok.mp h
    exact (inverseEffect_frame hinverse).trans (dropImag_frame hdrop)
  | loadComplex => exact loadC_frame h
  | loadReal => exact loadR_frame h
  | bitrev => exact bitRev_frame h
  | butterflyFwd | butterflyInv => exact passes_frame h
  | scaleInv => exact scale_frame h

/-! ### What a command leaves unchanged -/

variable {i : Instr}

theorem effectOf_hostSide (h : effectOf i s = .ok t) : KeepsHostSide s t := by
  by_cases hi : i = .configure
  · subst hi
    obtain ⟨tw, -, rfl⟩ := configureEffect_ok.mp h
    constructor <;> rfl
  · exact (effectOf_frame hi h).hostSide

theorem effectOf_err (h : effectOf i s = .ok t) : t.err = s.err := by
  by_cases hi : i = .configure
  · subst hi
    obtain ⟨tw, -, rfl⟩ := configureEffect_ok.mp h
    rfl
  · exact (effectOf_frame hi h).err

theorem effectOf_sizeWarn (h : effectOf i s = .ok t) :
    t.sizeWarn = (s.sizeWarn || (isLoading i && decide (s.n < s.lin))) := by
  by_cases hi : i = .configure
  · subst hi
    obtain ⟨tw, -, rfl⟩ := configureEffect_ok.mp h
    exact (Bool.or_false _).symm
  · exact (effectOf_frame hi h).sizeWarn

theorem KeepsHostSide.finish (h : KeepsHostSide s t) (e : ErrCode) : KeepsHostSide s (t.finish e) := { h with }

theorem keepsHostSide_raiseCmdError (s : State) (e : ErrCode) : KeepsHostSide s (s.raiseCmdError e) := by
  constructor <;> rfl

theorem keepsConfiguration_raiseCmdError (s : State) (e : ErrCode) : KeepsConfiguration s (s.raiseCmdError e) := by
  constructor <;> rfl

theorem KeepsConfiguration.finish (h : KeepsConfiguration s t) (e : ErrCode) : KeepsConfiguration s (t.finish e) :=
  { h with }

/-- The three ways a controller's turn ends in a next state: an effect that answers, an error, or idle. -/
theorem controllerTurn_outcome (h : controllerTurn s = .next t) :
    (s.busy = true ∧ ∃ i u, decodeWord s.latch.word = .ok i ∧ s.validate i = .ok ∧ effectOf i s = .ok u ∧
        t = u.finish .ok) ∨
      (s.busy = true ∧ ∃ e, t = s.raiseCmdError e) ∨ (s.busy = false ∧ t = s) := by
  rcases controllerTurn_next_cases h with ⟨hb, h⟩ | ⟨hidle, rfl⟩
  · rcases completionStep_next_cases h with ⟨i, hd, h⟩ | ⟨-, rfl⟩
    · rcases exec_next_cases h with ⟨hv, u, hu, rfl⟩ | ⟨-, rfl⟩
      · exact .inl ⟨hb, i, u, hd, hv, hu, rfl⟩
      · exact .inr (.inl ⟨hb, _, rfl⟩)
    · exact .inr (.inl ⟨hb, _, rfl⟩)
  · exact .inr (.inr ⟨hidle, rfl⟩)

/-- A command other than CONFIGURE keeps N, LOG2N, CONFIGURED and TW, whether it succeeds or fails (R51, R52, R59). -/
theorem exec_configuration (hi : i ≠ .configure) (h : exec i s = .next t) : KeepsConfiguration s t := by
  rcases exec_next_cases h with ⟨-, u, hu, rfl⟩ | ⟨-, rfl⟩
  · exact (effectOf_frame hi hu).configuration.finish .ok
  · exact keepsConfiguration_raiseCmdError s _

end Frame

/-! ### The statements -/

/-- Settles O41: by the frame of the effect, or as the error state. -/
theorem noCommandTouchesTheHostSide : Obligations.NoCommandTouchesTheHostSide := by
  intro i s t h
  rcases exec_next_cases h with ⟨-, u, hu, rfl⟩ | ⟨-, rfl⟩
  · exact (effectOf_hostSide hu).finish .ok
  · exact keepsHostSide_raiseCmdError s _

/-- Settles O42: WORK from entry N on by the writes of the stages, the rest by the frame of the effect. -/
theorem onlyConfigureChangesTheConfiguration : Obligations.OnlyConfigureChangesTheConfiguration := by
  intro i s t h
  refine ⟨fun hi => exec_configuration hi h, ?_⟩
  rcases exec_next_cases h with ⟨-, u, hu, rfl⟩ | ⟨-, rfl⟩
  · refine ⟨fun hi hn => (effectOf_step hi hn hu).writes.outside, fun hl => ?_, fun hi => ?_⟩
    · rw [finish_sizeWarn, effectOf_sizeWarn hu, hl, Bool.false_and, Bool.or_false]
    · subst hi
      obtain ⟨tw, -, rfl⟩ := configureEffect_ok.mp hu
      rfl
  · exact ⟨fun _ _ _ _ => rfl, fun _ => rfl, fun _ => rfl⟩

/-- Settles O9: the bookkeeping of `finish` and of `raiseCmdError`; no effect touches ERR. -/
theorem everyCompletionRecordsItsOutcome : Obligations.EveryCompletionRecordsItsOutcome := by
  intro i s t h
  rcases exec_next_cases h with ⟨hv, u, hu, rfl⟩ | ⟨hv, rfl⟩
  · simp [hv, effectOf_err hu]
  · simp [hv]

/-- Settles O11: the read of the field, and OUT_LEN as the last stage of the effect leaves it. -/
theorem outLenNamesTheResultLength : Obligations.OutLenNamesTheResultLength := by
  refine ⟨fun s => ⟨?_, hostAccess_writeReg s .outLen⟩, fun _ _ => rfl, fun s t hb h he => ?_, fun i s t h => ?_⟩
  · rw [State.readReg, BitVec.zeroExtend, BitVec.toNat_setWidth_of_le (by decide), BitVec.toNat_ofNat]
  · rcases controllerTurn_outcome h with ⟨-, i, u, -, -, -, rfl⟩ | ⟨-, e, rfl⟩ | ⟨hidle, -⟩
    · exact absurd rfl he
    · rfl
    · simp [hb] at hidle
  · rcases exec_next_cases h with ⟨hv, u, hu, rfl⟩ | ⟨hv, rfl⟩
    · refine ⟨fun hne => absurd hv hne, fun _ => ?_⟩
      by_cases hi : i = .configure
      · subst hi
        obtain ⟨tw, -, rfl⟩ := configureEffect_ok.mp hu
        rfl
      · rw [if_neg hi, finish_outLen, effectOf_outLen hi hu, (effectOf_frame hi hu).configuration.n]
    · exact ⟨fun _ => rfl, fun hok => absurd hok hv⟩

end Sys2Proof.Machine
end

section
/-! PROOF. Which step changes what (00_scope.md R4, 10_state.md R46, R47, R51, R57 to R59, R242): the inversion of a step, the
owners of the memories, of the configuration and of the sticky bits, and a STATUS write before or after a completion. -/

namespace Sys2Proof.Machine

/-! ### Steps -/

theorem step_of_pending {s : State} {e : Event} {rest : List Event} (h : s.pending = e :: rest) :
    step s = takeEvent { s with pending := rest } e := by
  unfold step nextStep
  rw [h]

/-- The three kinds of step: RST, the controller's turn, a host access. -/
theorem step_next_cases {s t : State} (h : step s = .next t) :
    (∃ rest, s.pending = .rst :: rest) ∨
      (ControllerNext s ∧ ∃ evs, controllerTurn { s with pending := evs } = .next t) ∨
      ∃ x rest, s.pending = .host x :: rest ∧ hostAccess { s with pending := rest } x = .next t := by
  rcases step_cases s with ⟨hp, he⟩ | ⟨e, rest, hp, he⟩
  · exact .inr (.inl ⟨.inl hp, s.pending, he ▸ h⟩)
  · rw [he] at h
    cases e with
    | host x => exact .inr (.inr ⟨x, rest, hp, h⟩)
    | controller => exact .inr (.inl ⟨.inr ⟨rest, hp⟩, rest, h⟩)
    | rst => exact .inl ⟨rest, hp⟩

/-! ### What the controller changes -/

theorem decodeOpcode_ok {op : BitVec 8} {i : Instr} (h : decodeOpcode op = .ok i) : op = opcodeOf i := by
  unfold decodeOpcode at h
  split at h
  case h_14 => split at h <;> cases h
  all_goals cases h
  all_goals exact BitVec.eq_of_toNat_eq (by assumption)

/-- A command is decoded from its own word only (R113). -/
theorem decodeWord_ok {w : Word} {i : Instr} (h : decodeWord w = .ok i) : w = encode i := by
  unfold decodeWord at h
  split at h
  case isFalse => cases h
  case isTrue hr =>
    rw [encode, ← hr, ← decodeOpcode_ok h, rsvdField, opcodeField]
    rw [BitVec.extractLsb'_append_extractLsb'_eq_extractLsb' (by rfl)]
    exact BitVec.extractLsb'_eq_self.symm

section Controller

variable {s t : State}

theorem controllerTurn_hostSide (h : controllerTurn s = .next t) : KeepsHostSide s t := by
  rcases controllerTurn_outcome h with ⟨-, i, u, -, -, hu, rfl⟩ | ⟨-, e, rfl⟩ | ⟨-, rfl⟩
  · exact (effectOf_hostSide hu).finish .ok
  · exact keepsHostSide_raiseCmdError s e
  · constructor <;> rfl

/-- The controller changes N, LOG2N, CONFIGURED or TW only by a CONFIGURE that passes its checks (R51, R52, R59). -/
theorem controllerTurn_configuration (h : controllerTurn s = .next t) (hne : ¬ KeepsConfiguration s t) :
    s.busy = true ∧ s.latch.word = 0x00000001 ∧ 0 < s.reqLen ∧ s.reqLen ≤ s.cfg.nmax := by
  rcases controllerTurn_outcome h with ⟨hb, i, u, hd, hv, hu, rfl⟩ | ⟨-, e, rfl⟩ | ⟨-, rfl⟩
  · by_cases hi : i = .configure
    · subst hi
      exact ⟨hb, decodeWord_ok hd, checkConfigure_ok.mp hv⟩
    · exact absurd ((effectOf_frame hi hu).configuration.finish .ok) hne
  · exact absurd (keepsConfiguration_raiseCmdError s e) hne
  · exact absurd ⟨rfl, rfl, rfl, rfl⟩ hne

/-- The controller changes WORK only by a command other than CONFIGURE that passes its checks (R58). -/
theorem controllerTurn_work (h : controllerTurn s = .next t) (hne : t.workMem ≠ s.workMem) :
    s.busy = true ∧ ∃ i, decodeWord s.latch.word = .ok i ∧ i ≠ .configure ∧ s.validate i = .ok := by
  rcases controllerTurn_outcome h with ⟨hb, i, u, hd, hv, hu, rfl⟩ | ⟨-, e, rfl⟩ | ⟨-, rfl⟩
  · refine ⟨hb, i, hd, ?_, hv⟩
    rintro rfl
    obtain ⟨tw, -, rfl⟩ := configureEffect_ok.mp hu
    exact hne rfl
  · exact absurd rfl hne
  · exact absurd rfl hne

end Controller

/-! ### What a host access changes -/

/-- No host access changes N, LOG2N, CONFIGURED or TW (R51, R52, R88). -/
theorem hostAccess_configuration {s t : State} {x : Access} (h : hostAccess s x = .next t) : KeepsConfiguration s t := by
  rcases hostAccess_next_cases h with ⟨r, rfl⟩ | ⟨-, r, rfl⟩ | ⟨v, u, hu, rfl⟩
  · constructor <;> rfl
  · constructor <;> rfl
  · cases hu <;> constructor <;> rfl

/-- An access that does more than answer is performed: 32 bits wide, aligned, inside the window (R80, R84). -/
theorem hostAccess_performed {s t : State} {x : Access} (h : hostAccess s x = .next t) :
    (∃ r, t = s.answer r) ∨ ∃ a, a < windowBytes ∧
      ((x = .read (s.cfg.base + a) .w32 ∧ hostRead s a = .next t) ∨
        ∃ v, x = .write (s.cfg.base + a) .w32 v ∧ t = hostWrite s a v) := by
  unfold hostAccess at h
  split at h
  · cases h
    exact .inl ⟨_, rfl⟩
  split at h
  · cases h
    exact .inl ⟨_, rfl⟩
  rename_i hin hal
  simp only [not_or, not_lt, not_le, ne_eq, not_not] at hin hal
  have haddr : s.cfg.base + (x.addr - s.cfg.base) = x.addr := Nat.add_sub_cancel' hin.1
  refine .inr ⟨x.addr - s.cfg.base, by omega, ?_⟩
  rw [haddr, ← hal.1]
  cases x with
  | read addr w => exact .inl ⟨rfl, h⟩
  | write addr w v =>
    cases h
    exact .inr ⟨v, rfl, rfl⟩

/-! ### The sticky bits -/

/-- ERR, SIZE_WARN, OVERRUN and ACCESS_ERR stay set where they are set. -/
structure KeepsSticky (s t : State) : Prop where
  err : s.err = true → t.err = true
  sizeWarn : s.sizeWarn = true → t.sizeWarn = true
  overrun : s.overrun = true → t.overrun = true
  accessErr : s.accessErr = true → t.accessErr = true

/-- The sticky bits and where they stand in STATUS (R46). -/
def stickyFlags : List (Nat × (State → Bool)) :=
  [(2, State.err), (3, State.sizeWarn), (4, State.overrun), (5, State.accessErr)]

section Sticky

variable {s t : State} {b : Nat} {flag : State → Bool}

theorem mem_stickyFlags : (b, flag) ∈ stickyFlags ↔
    b = 2 ∧ flag = State.err ∨ b = 3 ∧ flag = State.sizeWarn ∨ b = 4 ∧ flag = State.overrun ∨
      b = 5 ∧ flag = State.accessErr := by
  simp [stickyFlags]

theorem flag_withPending (hm : (b, flag) ∈ stickyFlags) (evs : List Event) :
    flag { s with pending := evs } = flag s := by
  rcases mem_stickyFlags.mp hm with ⟨-, rfl⟩ | ⟨-, rfl⟩ | ⟨-, rfl⟩ | ⟨-, rfl⟩ <;> rfl

theorem KeepsSticky.of_mem (h : KeepsSticky s t) (hm : (b, flag) ∈ stickyFlags) (hs : flag s = true) :
    flag t = true := by
  rcases mem_stickyFlags.mp hm with ⟨-, rfl⟩ | ⟨-, rfl⟩ | ⟨-, rfl⟩ | ⟨-, rfl⟩
  · exact h.err hs
  · exact h.sizeWarn hs
  · exact h.overrun hs
  · exact h.accessErr hs

/-- A write of STATUS clears a sticky bit only where its bit of the word is 1 (R47). -/
theorem getLsbD_of_w1c {v : Word} {r : BusResp} (hm : (b, flag) ∈ stickyFlags) (hs : flag s = true)
    (ht : flag ((s.w1c v).answer r) = false) : v.getLsbD b = true := by
  rcases mem_stickyFlags.mp hm with ⟨rfl, rfl⟩ | ⟨rfl, rfl⟩ | ⟨rfl, rfl⟩ | ⟨rfl, rfl⟩ <;> simpa [hs] using ht

theorem controllerTurn_sticky (h : controllerTurn s = .next t) : KeepsSticky s t := by
  rcases controllerTurn_outcome h with ⟨-, i, u, -, -, hu, rfl⟩ | ⟨-, e, rfl⟩ | ⟨-, rfl⟩
  · have hhost := effectOf_hostSide hu
    exact ⟨(effectOf_err hu).trans, fun hw => by rw [finish_sizeWarn, effectOf_sizeWarn hu, hw, Bool.true_or],
      hhost.overrun.trans, hhost.accessErr.trans⟩
  · exact ⟨fun _ => rfl, id, id, id⟩
  · exact ⟨id, id, id, id⟩

/-- CONFIGURED is never cleared by the controller (R46). -/
theorem controllerTurn_configured (h : controllerTurn s = .next t) (hc : s.configured = true) : t.configured = true := by
  rcases controllerTurn_outcome h with ⟨-, i, u, -, -, hu, rfl⟩ | ⟨-, e, rfl⟩ | ⟨-, rfl⟩
  · by_cases hi : i = .configure
    · subst hi
      obtain ⟨tw, -, rfl⟩ := configureEffect_ok.mp hu
      rfl
    · exact (effectOf_frame hi hu).configuration.configured.trans hc
  · exact hc
  · exact hc

theorem writeReg_sticky {r : Reg} (hr : r ≠ .status) (v : Word) : KeepsSticky s (s.writeReg r v) := by
  rcases writeReg_cases s r v with e | ⟨-, e⟩ | ⟨h, -⟩ | ⟨-, -, e⟩ | ⟨-, -, e⟩ | ⟨-, e⟩ | ⟨-, e⟩
  case inr.inr.inl => exact absurd h hr
  all_goals rw [e]
  case inr.inr.inr.inr.inl => exact ⟨id, id, fun _ => rfl, id⟩
  all_goals exact ⟨id, id, id, id⟩

/-- A host write anywhere but to STATUS clears no sticky bit. -/
theorem hostWrite_sticky {a : Nat} (ha : a < windowBytes) (hne : a ≠ regOffset .status) (v : Word) :
    KeepsSticky s (hostWrite s a v) := by
  unfold hostWrite
  cases hr : regionOf a with
  | regs o =>
    simp only
    cases ho : regAt o with
    | none => exact ⟨id, id, id, id⟩
    | some r =>
      have hstatus : r ≠ .status := by
        rintro rfl
        exact hne ((regionOf_regs_eq ha hr).trans (regAt_some ho).symm)
      exact { writeReg_sticky hstatus v with }
  | mem k o =>
    simp only
    split
    · exact ⟨id, id, id, fun _ => rfl⟩
    · split
      · exact ⟨id, id, id, id⟩
      · rcases writeMemWord_cases s k o v with ⟨-, e⟩ | ⟨-, e⟩ | ⟨-, e⟩ <;> rw [e] <;> exact ⟨id, id, id, id⟩

/-- A host access clears no sticky bit, unless it is a performed write of STATUS. -/
theorem hostAccess_sticky {x : Access} (h : hostAccess s x = .next t) :
    KeepsSticky s t ∨ ∃ v, x = .write (s.cfg.base + 0x010) .w32 v ∧ t = (s.w1c v).answer .ack := by
  rcases hostAccess_performed h with ⟨r, rfl⟩ | ⟨a, ha, ⟨-, hread⟩ | ⟨v, rfl, rfl⟩⟩
  · exact .inl ⟨id, id, id, id⟩
  · rcases hostRead_next_cases hread with ⟨r, rfl⟩ | ⟨-, r, rfl⟩
    · exact .inl ⟨id, id, id, id⟩
    · exact .inl ⟨id, id, id, fun _ => rfl⟩
  · by_cases hs : a = regOffset .status
    · subst hs
      rw [hostAccess_writeReg] at h
      exact .inr ⟨v, rfl, (Host.Outcome.next.inj h).symm⟩
    · exact .inl (hostWrite_sticky ha hs v)

end Sticky

/-! ### Completions do not read DONE, the events to come or the bus answer -/

/-- Other values of DONE, of the events to come and of the bus answer. -/
def State.withBookkeeping (s : State) (d : Bool) (evs : List Event) (r : BusResp) : State :=
  { s with done := d, pending := evs, resp := r }

/-- An effect neither reads nor changes DONE, the events to come and the bus answer. -/
def IgnoresBookkeeping (f : State → Except Fault State) : Prop :=
  ∀ (s : State) (d : Bool) (evs : List Event) (r : BusResp),
    f (s.withBookkeeping d evs r) = (f s).map (·.withBookkeeping d evs r)

/-- A stage that computes a memory from other fields and stores it. -/
theorem ignoresBookkeeping_map {loop : State → Except Fault Memory} {store : State → Memory → State}
    (hl : ∀ (s : State) (d : Bool) (evs : List Event) (r : BusResp), loop (s.withBookkeeping d evs r) = loop s)
    (hs : ∀ (s : State) (w : Memory) (d : Bool) (evs : List Event) (r : BusResp),
      store (s.withBookkeeping d evs r) w = (store s w).withBookkeeping d evs r) :
    IgnoresBookkeeping fun s => (loop s).map (store s) := by
  intro s d evs r
  simp only [hl s d evs r]
  cases loop s with
  | error e => rfl
  | ok w => exact congrArg Except.ok (hs s w d evs r)

theorem IgnoresBookkeeping.bind {f g : State → Except Fault State} (hf : IgnoresBookkeeping f)
    (hg : IgnoresBookkeeping g) : IgnoresBookkeeping fun s => (f s).bind g := by
  intro s d evs r
  simp only [hf s d evs r]
  cases f s with
  | error e => rfl
  | ok t => exact hg t d evs r

theorem loadC_ignoresBookkeeping : IgnoresBookkeeping loadC :=
  ignoresBookkeeping_map (fun _ _ _ _ => rfl) fun _ _ _ _ _ => rfl
theorem loadR_ignoresBookkeeping : IgnoresBookkeeping loadR :=
  ignoresBookkeeping_map (fun _ _ _ _ => rfl) fun _ _ _ _ _ => rfl
theorem bitRev_ignoresBookkeeping : IgnoresBookkeeping bitRev :=
  ignoresBookkeeping_map (fun _ _ _ _ => rfl) fun _ _ _ _ _ => rfl
theorem passesFwd_ignoresBookkeeping : IgnoresBookkeeping passesFwd :=
  ignoresBookkeeping_map (fun _ _ _ _ => rfl) fun _ _ _ _ _ => rfl
theorem passesInv_ignoresBookkeeping : IgnoresBookkeeping passesInv :=
  ignoresBookkeeping_map (fun _ _ _ _ => rfl) fun _ _ _ _ _ => rfl
theorem scale_ignoresBookkeeping : IgnoresBookkeeping scale :=
  ignoresBookkeeping_map (fun _ _ _ _ => rfl) fun _ _ _ _ _ => rfl
theorem spectrum_ignoresBookkeeping : IgnoresBookkeeping spectrum :=
  ignoresBookkeeping_map (fun _ _ _ _ => rfl) fun _ _ _ _ _ => rfl
theorem dropImag_ignoresBookkeeping : IgnoresBookkeeping dropImag :=
  ignoresBookkeeping_map (fun _ _ _ _ => rfl) fun _ _ _ _ _ => rfl
theorem configureEffect_ignoresBookkeeping : IgnoresBookkeeping configureEffect :=
  ignoresBookkeeping_map (fun _ _ _ _ => rfl) fun _ _ _ _ _ => rfl

theorem effectOf_ignoresBookkeeping (i : Instr) : IgnoresBookkeeping (effectOf i) := by
  have hinverse := ((loadC_ignoresBookkeeping.bind bitRev_ignoresBookkeeping).bind passesInv_ignoresBookkeeping).bind
    scale_ignoresBookkeeping
  have hrealForward := (loadR_ignoresBookkeeping.bind bitRev_ignoresBookkeeping).bind passesFwd_ignoresBookkeeping
  cases i with
  | configure => exact configureEffect_ignoresBookkeeping
  | forward => exact (loadC_ignoresBookkeeping.bind bitRev_ignoresBookkeeping).bind passesFwd_ignoresBookkeeping
  | inverse => exact hinverse
  | realForward => exact hrealForward
  | realSpectrum => exact hrealForward.bind spectrum_ignoresBookkeeping
  | inverseReal => exact hinverse.bind dropImag_ignoresBookkeeping
  | loadComplex => exact loadC_ignoresBookkeeping
  | loadReal => exact loadR_ignoresBookkeeping
  | bitrev => exact bitRev_ignoresBookkeeping
  | butterflyFwd => exact passesFwd_ignoresBookkeeping
  | butterflyInv => exact passesInv_ignoresBookkeeping
  | scaleInv => exact scale_ignoresBookkeeping

section Bookkeeping

variable {s t : State}

theorem validate_withBookkeeping (s : State) (i : Instr) (d : Bool) (evs : List Event) (r : BusResp) :
    (s.withBookkeeping d evs r).validate i = s.validate i := by
  cases i <;> rfl

/-- Whether a command completes does not depend on them. -/
theorem exec_withBookkeeping {i : Instr} (h : exec i s = .next t) (d : Bool) (evs : List Event) (r : BusResp) :
    ∃ t', exec i (s.withBookkeeping d evs r) = .next t' := by
  have hvalidate := validate_withBookkeeping s i d evs r
  rcases exec_next_cases h with ⟨hv, u, hu, -⟩ | ⟨hv, -⟩
  · exact ⟨_, exec_next_of_effect (hvalidate.trans hv) (by rw [effectOf_ignoresBookkeeping, hu]; rfl)⟩
  · rw [exec_eq_complete, hvalidate, complete_of_error hv]
    exact ⟨_, rfl⟩

theorem controllerTurn_withBookkeeping (h : controllerTurn s = .next t) (d : Bool) (evs : List Event) (r : BusResp) :
    ∃ t', controllerTurn (s.withBookkeeping d evs r) = .next t' := by
  unfold controllerTurn
  rcases controllerTurn_next_cases h with ⟨hb, h⟩ | ⟨hidle, -⟩
  · rw [show (s.withBookkeeping d evs r).busy = true from hb, if_pos rfl]
    unfold completionStep
    rcases completionStep_next_cases h with ⟨i, hd, h⟩ | ⟨hd, -⟩
    · rw [show decodeWord (s.withBookkeeping d evs r).latch.word = .ok i from hd]
      exact exec_withBookkeeping h d evs r
    · rw [show (s.withBookkeeping d evs r).latch = s.latch from rfl]
      cases hw : decodeWord s.latch.word with
      | ok i => exact absurd hw (hd i)
      | error e => exact ⟨_, rfl⟩
  · rw [show (s.withBookkeeping d evs r).busy = false from hidle]
    exact ⟨_, rfl⟩

/-- The controller's turn while busy sets DONE (R236). -/
theorem controllerTurn_done (h : controllerTurn s = .next t) (hb : s.busy = true) : t.done = true := by
  rcases controllerTurn_outcome h with ⟨-, i, u, -, -, -, rfl⟩ | ⟨-, e, rfl⟩ | ⟨hidle, -⟩
  · rfl
  · rfl
  · simp [hb] at hidle

end Bookkeeping

/-- A run goes on from what its first step leaves. -/
theorem run_succ {M : Host.Core} {s t : M.State} (h : M.step s = .next t) (k : Nat) :
    M.run (k + 1) s = M.run k t := by
  rw [Host.Core.run, h]

/-- A write of STATUS with only bit 1 set clears DONE and nothing else (R47). -/
theorem w1c_onlyDone (s : State) : s.w1c 0x2 = { s with done := false } := by simp [State.w1c]

/-! ### The statements -/

/-- Settles O48: STATUS bit by bit, and the two orders of a clear and a completion as runs of two steps. -/
theorem statusWritesClearOnlyTheirBits : Obligations.StatusWritesClearOnlyTheirBits := by
  intro s v
  refine ⟨⟨?_, ?_, ?_, ?_, ?_, ?_, ?_, fun b hb => getLsbD_statusWord_reserved s hb⟩,
    hostAccess_writeReg s .status v, statusWord_w1c s v, fun u hb hu => ⟨?_, ?_⟩⟩
  iterate 7 · rw [getLsbD_statusWord]; simp
  · have hclear : step { s with pending := [.host (.write (s.cfg.base + 0x010) .w32 0x2), .controller] } =
        .next ((State.w1c { s with pending := [.controller] } 0x2).answer .ack) :=
      hostAccess_writeReg { s with pending := [.controller] } .status 0x2
    obtain ⟨t, ht⟩ := controllerTurn_withBookkeeping hu false [] .ack
    have hturn : step ((State.w1c { s with pending := [.controller] } 0x2).answer .ack) = .next t := by
      rw [step_of_pending rfl, w1c_onlyDone, ← ht]
      rfl
    exact ⟨t, (run_succ hclear 1).trans (run_succ hturn 0), controllerTurn_done ht hb⟩
  · obtain ⟨t, ht⟩ := controllerTurn_withBookkeeping hu s.done [.host (.write (s.cfg.base + 0x010) .w32 0x2)] s.resp
    have hturn : step { s with pending := [.controller, .host (.write (s.cfg.base + 0x010) .w32 0x2)] } = .next t := ht
    have hhost := controllerTurn_hostSide ht
    have hclear : step t = .next ((State.w1c { t with pending := [] } 0x2).answer .ack) := by
      rw [step_of_pending hhost.pending, ← show t.cfg = s.cfg from hhost.cfg]
      exact hostAccess_writeReg { t with pending := [] } .status 0x2
    exact ⟨_, (run_succ hturn 1).trans (run_succ hclear 0), Bool.and_false _⟩

/-- Settles O59: by the kind of step, each with the frame of what it does. -/
theorem memoriesChangeOnlyByTheirOwners : Obligations.MemoriesChangeOnlyByTheirOwners := by
  intro s t h
  rcases step_next_cases h with hrst | ⟨hnext, evs, hturn⟩ | ⟨x, rest, hp, hx⟩
  · exact ⟨fun _ => .inl hrst, fun _ => .inl hrst, fun _ => .inl hrst⟩
  · have hconfig := controllerTurn_configuration hturn
    have hwork := controllerTurn_work hturn
    have hhost := controllerTurn_hostSide hturn
    exact ⟨fun hne => .inr ⟨hnext, hconfig fun hk => hne { hk with }⟩, fun hne => absurd hhost.inMem hne,
      fun hne => .inr (.inr ⟨hnext, hwork hne⟩)⟩
  · have hconfig := hostAccess_configuration hx
    refine ⟨fun hne => absurd { hconfig with } hne, fun hne => .inr ?_, fun hne => .inr (.inl ?_)⟩
    · obtain ⟨hb, -, o, v, rfl, hword⟩ := hostAccess_memory_cases hx .inp hne
      exact ⟨hb, o, v, rest, hp, hword⟩
    · obtain ⟨hb, -, o, v, rfl, hword⟩ := hostAccess_memory_cases hx .work hne
      exact ⟨hb, o, v, rest, hp, hword⟩

/-- Settles O60: of the steps that are not RST only a performed write of STATUS does not keep the sticky bits, and that clears
the bits written as 1. -/
theorem stickyBitsStayUntilCleared : Obligations.StickyBitsStayUntilCleared := by
  intro s t h hrst
  rcases step_next_cases h with ⟨rest, hp⟩ | ⟨-, evs, hturn⟩ | ⟨x, rest, hp, hx⟩
  · exact absurd hp (hrst rest)
  · have hconfig := controllerTurn_configured hturn
    have hkeep := controllerTurn_sticky hturn
    refine ⟨hconfig, fun b flag hmem hs ht => ?_⟩
    exact absurd (hkeep.of_mem hmem ((flag_withPending hmem evs).trans hs)) (by simp [ht])
  · have hconfig := hostAccess_configuration hx
    refine ⟨hconfig.configured.trans, fun b flag hmem hs ht => ?_⟩
    have hs' := (flag_withPending hmem rest).trans hs
    rcases hostAccess_sticky hx with hkeep | ⟨v, rfl, rfl⟩
    · exact absurd (hkeep.of_mem hmem hs') (by simp [ht])
    · exact ⟨v, rest, hp, getLsbD_of_w1c hmem hs' ht⟩

end Sys2Proof.Machine
end

section
/-! PROOF. Where a command stops (10_state.md R64, 70_reset_and_hazards.md R286): the faults of each read and of each stage, and
the loops that cannot pass an entry nobody wrote. -/

namespace Sys2Proof.Machine

/-! ### Errors of a computation -/

theorem map_eq_error {α β : Type} {e : Except Fault α} {g : α → β} {r : Fault} :
    e.map g = .error r ↔ e = .error r := by
  cases e <;> simp [Except.map]

theorem bind_eq_error {α β : Type} {e : Except Fault α} {g : α → Except Fault β} {r : Fault} :
    e.bind g = .error r ↔ e = .error r ∨ ∃ x, e = .ok x ∧ g x = .error r := by
  cases e <;> simp [Except.bind]

theorem useEntry_eq_error {f : SampleFmt} {k : MemName} {m : Memory} {e : Nat} {r : Fault} :
    useEntry f k m e = .error r ↔ m.readEntry f e = none ∧ r = .unwritten k (entryOffset f e) := by
  simp only [useEntry]
  cases m.readEntry f e <;> simp [eq_comm]

theorem useRe_eq_error {f : SampleFmt} {k : MemName} {m : Memory} {e : Nat} {r : Fault} :
    useRe f k m e = .error r ↔ m.readRe f e = none ∧ r = .unwritten k (entryOffset f e) := by
  simp only [useRe]
  cases m.readRe f e <;> simp [eq_comm]

/-- The computation stops at an entry of memory `k` below `n`. -/
def StopsIn (f : SampleFmt) (k : MemName) (n : Nat) {α : Type} (e : Except Fault α) : Prop :=
  ∃ j, j < n ∧ e = .error (.unwritten k (entryOffset f j))

/-- A loop no run of which can end stops, and with a fault of one of its bodies: `P` holds as long as it runs. -/
theorem forUpTo_stopsIn {f : SampleFmt} {k : MemName} {n count : Nat} {α : Type} {body : Nat → α → Except Fault α}
    {x : α} (P : Nat → α → Prop) (h0 : P 0 x) (hend : ∀ y, ¬ P n y)
    (hok : ∀ i y y', i < n → P i y → body i y = .ok y' → P (i + 1) y')
    (herr : ∀ i y r, i < n → P i y → body i y = .error r → StopsIn f k count (body i y)) :
    StopsIn f k count (forUpTo n body x) := by
  cases hloop : forUpTo n body x with
  | ok z => exact absurd (forUpTo_inv P hloop h0 hok) (hend z)
  | error r =>
    clear hend
    induction n with
    | zero => cases hloop
    | succ n ih =>
      rw [forUpTo_succ, bind_eq_error] at hloop
      rcases hloop with hloop | ⟨y, hy, hbody⟩
      · exact ih (fun i y y' hi => hok i y y' (by omega)) (fun i y r hi => herr i y r (by omega)) hloop
      · have hy' := forUpTo_inv P hy h0 fun i y y' hi => hok i y y' (by omega)
        exact hbody ▸ herr n y r (by omega) hy' hbody

theorem StopsIn.bind {f : SampleFmt} {k : MemName} {n : Nat} {α β : Type} {e : Except Fault α}
    (h : StopsIn f k n e) (g : α → Except Fault β) : StopsIn f k n (e.bind g) := by
  obtain ⟨j, hj, rfl⟩ := h
  exact ⟨j, hj, rfl⟩

theorem StopsIn.map {f : SampleFmt} {k : MemName} {n : Nat} {α β : Type} {e : Except Fault α}
    (h : StopsIn f k n e) (g : α → β) : StopsIn f k n (e.map g) := by
  obtain ⟨j, hj, rfl⟩ := h
  exact ⟨j, hj, rfl⟩

theorem forUpTo_one {α : Type} (body : Nat → α → Except Fault α) (x : α) : forUpTo 1 body x = body 0 x := rfl

/-! ### Loads -/

section Loops

variable {f : SampleFmt} {n : Nat} {w : Memory} {k : Nat}

/-- A load that reads entry `i` of the input in body `i` cannot pass an entry whose read fails. -/
theorem loadLoop_stops {β : Type} {count : Nat} {read : Nat → Except Fault β} {store : Nat → Memory → β → Memory}
    {pad : Nat → Memory → Memory} (hn : count ≤ n) (hk : k < count) (hnone : ∀ v, read k ≠ .ok v)
    (hread : ∀ i r, read i = .error r → r = .unwritten .inp (entryOffset f i)) :
    StopsIn f .inp count
      (forUpTo n (fun i y => if i < count then (read i).map (store i y) else .ok (pad i y)) w) := by
  refine forUpTo_stopsIn (fun i _ => i ≤ k) (Nat.zero_le k) (fun _ h => by omega) (fun i y y' _ hi hok => ?_)
    (fun i y r _ hi herr => ?_)
  · rw [if_pos (by omega)] at hok
    obtain ⟨v, hv, -⟩ := map_eq_ok.mp hok
    have hne : i ≠ k := by
      rintro rfl
      exact hnone v hv
    omega
  · rw [if_pos (by omega)] at herr ⊢
    obtain rfl := hread i r (map_eq_error.mp herr)
    exact ⟨i, by omega, herr⟩

theorem loadComplexLoop_stops {count : Nat} {inp : Memory} (hn : count ≤ n) (hk : k < count)
    (hnone : inp.readEntry f k = none) : StopsIn f .inp count (loadComplexLoop f n count inp w) :=
  loadLoop_stops hn hk (fun v hv => by simp [useEntry_eq_ok.mp hv] at hnone) fun _ _ h => (useEntry_eq_error.mp h).2

theorem loadRealLoop_stops {count : Nat} {inp : Memory} (hn : count ≤ n) (hk : k < count)
    (hnone : inp.readRe f k = none) : StopsIn f .inp count (loadRealLoop f n count inp w) :=
  loadLoop_stops hn hk (fun v hv => by simp [useRe_eq_ok.mp hv] at hnone) fun _ _ h => (useRe_eq_error.mp h).2

/-! ### Scaling, bit reversal and the passes -/

/-- An entry without a value is none that reads as one. -/
theorem ne_of_readEntry {e : Nat} {v : Entry f} (h : w.readEntry f e = some v) (hnone : w.readEntry f k = none) :
    k ≠ e := by
  rintro rfl
  simp [h] at hnone

theorem scaleLoop_stops (hk : k < n) (hnone : w.readEntry f k = none) : StopsIn f .work n (scaleLoop f n w) := by
  refine forUpTo_stopsIn (fun i y => i ≤ k ∧ y.readEntry f k = none) ⟨Nat.zero_le k, hnone⟩ (fun _ h => by omega)
    (fun i y y' _ ⟨hi, hy⟩ hok => ?_) (fun i y r hn _ herr => ?_)
  · obtain ⟨v, hv, rfl⟩ := map_eq_ok.mp hok
    have hne := ne_of_readEntry (useEntry_eq_ok.mp hv) hy
    exact ⟨by omega, by rw [readEntry_writeEntry_ne _ _ hne, hy]⟩
  · obtain ⟨-, rfl⟩ := useEntry_eq_error.mp (map_eq_error.mp herr)
    exact ⟨i, hn, herr⟩

/-- A bit reversal is its own inverse (R13). -/
theorem rev_rev {m i : Nat} (h : i < 2 ^ m) : rev m (rev m i) = i := by
  refine Nat.eq_of_testBit_eq fun b => ?_
  by_cases hb : b < m
  · rw [testBit_rev hb, testBit_rev (by omega)]
    congr 1
    omega
  · have hle : 2 ^ m ≤ 2 ^ b := Nat.pow_le_pow_right two_pos (by omega)
    rw [Nat.testBit_lt_two_pow ((rev_lt m _).trans_le hle), Nat.testBit_lt_two_pow (h.trans_le hle)]

/-- An entry the bit reversal moves belongs to one swap `p < rev p`. -/
theorem exists_swap {m : Nat} (hk : k < 2 ^ m) (hne : rev m k ≠ k) :
    ∃ p, p < 2 ^ m ∧ p < rev m p ∧ (k = p ∨ k = rev m p) := by
  rcases Nat.lt_or_gt_of_ne hne with hlt | hgt
  · exact ⟨rev m k, rev_lt m k, by rwa [rev_rev hk], .inr (rev_rev hk).symm⟩
  · exact ⟨k, hk, hgt, .inl rfl⟩

theorem swapEntries_stops {i r : Nat} {e : Fault} (hi : i < n) (hr : r < n) (h : swapEntries f w i r = .error e) :
    StopsIn f .work n (swapEntries f w i r) := by
  rw [h]
  rcases bind_eq_error.mp h with h | ⟨a, -, h⟩
  · obtain ⟨-, rfl⟩ := useEntry_eq_error.mp h
    exact ⟨i, hi, rfl⟩
  · obtain ⟨-, rfl⟩ := useEntry_eq_error.mp (map_eq_error.mp h)
    exact ⟨r, hr, rfl⟩

theorem bitRevLoop_stops {m : Nat} (hn : n = 2 ^ m) (hk : k < n) (hne : rev m k ≠ k)
    (hnone : w.readEntry f k = none) : StopsIn f .work n (bitRevLoop f n m w) := by
  subst hn
  obtain ⟨p, hp, hswap, hkp⟩ := exists_swap hk hne
  refine forUpTo_stopsIn (fun i y => i ≤ p ∧ y.readEntry f k = none) ⟨Nat.zero_le p, hnone⟩ (fun _ h => by omega)
    (fun i y y' hn ⟨hi, hy⟩ hok => ?_) (fun i y r hn _ herr => ?_)
  · by_cases hir : i < rev m i
    · rw [if_pos hir] at hok
      obtain ⟨a, b, ha, hb, rfl⟩ := swapEntries_ok.mp hok
      have hki := ne_of_readEntry ha hy
      have hkr := ne_of_readEntry hb hy
      have hip : i ≠ p := by
        rintro rfl
        exact hkp.elim hki hkr
      exact ⟨by omega, by rw [readEntry_writeEntry_ne _ _ hkr, readEntry_writeEntry_ne _ _ hki, hy]⟩
    · rw [if_neg hir] at hok
      cases hok
      have hip : i ≠ p := by
        rintro rfl
        exact hir hswap
      exact ⟨by omega, hy⟩
  · by_cases hir : i < rev m i
    · rw [if_pos hir] at herr ⊢
      exact swapEntries_stops hn (rev_lt m i) herr
    · rw [if_neg hir] at herr
      cases herr

theorem butterfly_stops {tw : Memory} {p q t : Nat} {e : Fault} (hp : p < n) (hq : q < n)
    (ht : (tw.readEntry f t).isSome = true) (h : butterfly f tw w p q t = .error e) :
    StopsIn f .work n (butterfly f tw w p q t) := by
  rw [h]
  rcases bind_eq_error.mp h with h | ⟨a, -, h⟩
  · obtain ⟨-, rfl⟩ := useEntry_eq_error.mp h
    exact ⟨p, hp, rfl⟩
  · rcases bind_eq_error.mp h with h | ⟨b, -, h⟩
    · obtain ⟨-, rfl⟩ := useEntry_eq_error.mp h
      exact ⟨q, hq, rfl⟩
    · obtain ⟨hnone, -⟩ := useEntry_eq_error.mp (map_eq_error.mp h)
      simp [hnone] at ht

/-- The first pass is one butterfly per pair of neighbours, all with the same twiddle (R181 at `s = 0`). -/
theorem passLoop_first (tw : Memory) (off : Nat) : passLoop f tw n off 0 w =
    forUpTo (n / 2) (fun blk y => butterfly f tw y (blk * 2) (blk * 2 + 1) off) w := by
  simp [passLoop, forUpTo_one]

/-- The first pass reads every entry. -/
theorem passLoop_stops {tw : Memory} {off : Nat} (hk : k < 2 * (n / 2)) (hnone : w.readEntry f k = none)
    (ht : (tw.readEntry f off).isSome = true) : StopsIn f .work n (passLoop f tw n off 0 w) := by
  rw [passLoop_first]
  refine forUpTo_stopsIn (fun blk y => blk ≤ k / 2 ∧ y.readEntry f k = none) ⟨Nat.zero_le _, hnone⟩
    (fun _ h => by omega) (fun blk y y' _ ⟨hi, hy⟩ hok => ?_) (fun blk y r hn _ herr => ?_)
  · obtain ⟨a, b, c, ha, hb, -, rfl⟩ := butterfly_ok.mp hok
    have hkp := ne_of_readEntry ha hy
    have hkq := ne_of_readEntry hb hy
    exact ⟨by omega, by rw [readEntry_writeEntry_ne _ _ hkq, readEntry_writeEntry_ne _ _ hkp, hy]⟩
  · exact butterfly_stops (by omega) (by omega) ht herr

theorem passesLoop_stops {tw : Memory} {off m : Nat} (hm : m ≠ 0) (hk : k < 2 * (n / 2))
    (hnone : w.readEntry f k = none) (ht : (tw.readEntry f off).isSome = true) :
    StopsIn f .work n (passesLoop f tw n m off w) := by
  have hfirst := passLoop_stops hk hnone ht
  refine forUpTo_stopsIn (fun s y => s = 0 ∧ y = w) ⟨rfl, rfl⟩ (fun _ h => hm h.1) (fun s y y' _ h hok => ?_)
    (fun s y r _ h _ => ?_)
  · obtain ⟨rfl, rfl⟩ := h
    obtain ⟨j, -, hj⟩ := hfirst
    simp [hj] at hok
  · obtain ⟨rfl, rfl⟩ := h
    exact hfirst

end Loops

/-! ### Commands -/

section Commands

variable {s : State} {i : Instr}

theorem checkLoading_of_mayLoad (h : MayLoad s) : s.checkLoading = .ok := by
  obtain ⟨hc, hfit⟩ := h
  rw [State.checkLoading, if_pos hc, if_neg]
  rcases hfit with hfit | hfit <;> simp [hfit]

/-- A command that passes its checks and whose effect stops, stops. -/
theorem exec_stops {k : MemName} {n : Nat} (hv : s.validate i = .ok) (h : StopsIn s.cfg.fmt k n (effectOf i s)) :
    ∃ j, j < n ∧ exec i s = .fault (.unwritten k (entryOffset s.cfg.fmt j)) := by
  obtain ⟨j, hj, he⟩ := h
  exact ⟨j, hj, by rw [exec_eq_complete, hv, complete_ok_eq, he]⟩

/-- The commands whose first stage is `LoadC` (R160, R201, R203, R209). -/
theorem stops_of_loadC {n : Nat} (hi : i ∈ [Instr.loadComplex, .forward, .inverse, .inverseReal])
    (h : StopsIn s.cfg.fmt .inp n (loadC s)) : StopsIn s.cfg.fmt .inp n (effectOf i s) := by
  have hinverse : StopsIn s.cfg.fmt .inp n (inverseEffect s) := ((h.bind bitRev).bind passesInv).bind scale
  simp only [List.mem_cons, List.not_mem_nil, or_false] at hi
  rcases hi with rfl | rfl | rfl | rfl
  · exact h
  · exact (h.bind bitRev).bind passesFwd
  · exact hinverse
  · exact hinverse.bind dropImag

/-- The commands whose first stage is `LoadR` (R162, R205, R207). -/
theorem stops_of_loadR {n : Nat} (hi : i ∈ [Instr.loadReal, .realForward, .realSpectrum])
    (h : StopsIn s.cfg.fmt .inp n (loadR s)) : StopsIn s.cfg.fmt .inp n (effectOf i s) := by
  have hforward : StopsIn s.cfg.fmt .inp n (realForwardEffect s) := (h.bind bitRev).bind passesFwd
  simp only [List.mem_cons, List.not_mem_nil, or_false] at hi
  rcases hi with rfl | rfl | rfl
  · exact h
  · exact hforward
  · exact hforward.bind spectrum

/-- The commands that load pass their checks where loading is allowed. -/
theorem validate_of_mayLoad (h : MayLoad s) (hi : isLoading i = true) : s.validate i = .ok := by
  cases i with
  | configure | bitrev | butterflyFwd | butterflyInv | scaleInv => cases hi
  | forward | inverse | realForward | realSpectrum | inverseReal | loadComplex | loadReal =>
    exact checkLoading_of_mayLoad h

end Commands

/-! ### The statement -/

/-- Settles O40: no loop passes an entry it reads and nobody wrote, and a loop stops only at a read of its own. -/
theorem unwrittenOperandsStopTheCommand : Obligations.UnwrittenOperandsStopTheCommand := by
  intro s
  refine ⟨fun hload => ⟨fun i hi k hk hnone => ?_, fun i hi k hk hnone => ?_⟩, fun hc hn k hk hnone => ⟨?_, ?_, ?_⟩⟩
  · have hloading : isLoading i = true := by revert i; decide
    exact exec_stops (validate_of_mayLoad hload hloading)
      (stops_of_loadC hi ((loadComplexLoop_stops (Nat.min_le_right _ _) hk hnone).map _))
  · have hloading : isLoading i = true := by revert i; decide
    exact exec_stops (validate_of_mayLoad hload hloading)
      (stops_of_loadR hi ((loadRealLoop_stops (Nat.min_le_right _ _) hk hnone).map _))
  · exact exec_stops (checkConfigured_ok.mpr hc) ((scaleLoop_stops hk hnone).map _)
  · exact fun hne => exec_stops (checkConfigured_ok.mpr hc) ((bitRevLoop_stops hn hk hne hnone).map _)
  · intro hm htw i hi
    have heven : 2 * (s.n / 2) = s.n := by
      obtain ⟨m, hm⟩ := Nat.exists_eq_succ_of_ne_zero hm
      rw [hn, hm, Nat.pow_succ]
      omega
    have hpasses : ∀ off < s.n, StopsIn s.cfg.fmt .work s.n (passes off s) := fun off hoff =>
      (passesLoop_stops hm (by omega) hnone (htw off hoff)).map _
    simp only [List.mem_cons, List.not_mem_nil, or_false] at hi
    rcases hi with rfl | rfl
    · exact exec_stops (checkConfigured_ok.mpr hc) (hpasses 0 (by omega))
    · exact exec_stops (checkConfigured_ok.mpr hc) (hpasses (s.n / 2) (by omega))

end Sys2Proof.Machine
end

section
/-! PROOF. The host's accesses to the windows of IN, WORK and TW (20_memory.md R80 to R91): where a window offset lies, what a
read and a write there answer, and the accesses the block rejects. -/

namespace Sys2Proof.Machine

/-! ### Window offsets (R80) -/

theorem memBase_aligned (k : MemName) : memBase k % 4 = 0 := by cases k <;> rfl

theorem memBase_add_lt (k : MemName) {o : Nat} (ho : o < regionBytes) : memBase k + o < windowBytes := by
  cases k <;> simp only [memBase, regionBytes, windowBytes] at * <;> omega

theorem regionOf_memBase_add (k : MemName) {o : Nat} (ho : o < regionBytes) : regionOf (memBase k + o) = .mem k o := by
  have hdiv : ∀ q, (q * regionBytes + o) / regionBytes = q := fun q => by
    rw [Nat.mul_comm, Nat.mul_add_div (by decide), Nat.div_eq_of_lt ho, Nat.add_zero]
  have hmod : ∀ q, (q * regionBytes + o) % regionBytes = o := fun q => by
    rw [Nat.mul_add_mod', Nat.mod_eq_of_lt ho]
  cases k with
  | inp => simp only [regionOf, show memBase .inp = 1 * regionBytes from rfl, hdiv, hmod]
  | work => simp only [regionOf, show memBase .work = 2 * regionBytes from rfl, hdiv, hmod]
  | tw => simp only [regionOf, show memBase .tw = 3 * regionBytes from rfl, hdiv, hmod]

/-- Past the register page every offset of the block's window lies in the window of a memory. -/
theorem exists_memBase_add {a : Nat} (hlo : regionBytes ≤ a) (hhi : a < windowBytes) :
    ∃ k o, o < regionBytes ∧ a = memBase k + o := by
  simp only [regionBytes, windowBytes] at *
  rcases Nat.lt_or_ge a 0x200000 with h2 | h2
  · exact ⟨.inp, a - 0x100000, by omega, by rw [memBase]; omega⟩
  rcases Nat.lt_or_ge a 0x300000 with h3 | h3
  · exact ⟨.work, a - 0x200000, by omega, by rw [memBase]; omega⟩
  · exact ⟨.tw, a - 0x300000, by omega, by rw [memBase]; omega⟩

/-! ### Accesses to a window -/

section Window
variable {s : State} {k : MemName} {o : Nat}

theorem hostAccess_readWindow (ho : o < regionBytes) (h4 : o % 4 = 0) :
    hostAccess s (.read (s.cfg.base + memBase k + o) .w32) = hostRead s (memBase k + o) := by
  have hk := memBase_aligned k
  rw [Nat.add_assoc, hostAccess_read (memBase_add_lt k ho) (by omega)]

theorem hostAccess_writeWindow (v : Word) (ho : o < regionBytes) (h4 : o % 4 = 0) :
    hostAccess s (.write (s.cfg.base + memBase k + o) .w32 v) = .next (hostWrite s (memBase k + o) v) := by
  have hk := memBase_aligned k
  rw [Nat.add_assoc, hostAccess_write v (memBase_add_lt k ho) (by omega)]

/-- While busy a window read gives 0 and sets ACCESS_ERR (R90). -/
theorem hostRead_busyWindow (k : MemName) (ho : o < regionBytes) (hb : s.busy = true) :
    hostRead s (memBase k + o) = .next (s.flagAccessErr.answer (.data 0)) := by
  simp [hostRead, regionOf_memBase_add k ho, hb]

/-- While busy a window write is ignored and sets ACCESS_ERR (R90). -/
theorem hostWrite_busyWindow (k : MemName) (v : Word) (ho : o < regionBytes) (hb : s.busy = true) :
    hostWrite s (memBase k + o) v = s.flagAccessErr.answer .ack := by
  simp [hostWrite, regionOf_memBase_add k ho, hb]

/-- While idle an entry at NMAX or above reads 0 (R91). -/
theorem hostRead_beyond (k : MemName) (ho : o < regionBytes) (hb : s.busy = false)
    (hn : s.cfg.nmax ≤ o / s.cfg.fmt.entryBytes) : hostRead s (memBase k + o) = .next (s.answer (.data 0)) := by
  simp [hostRead, regionOf_memBase_add k ho, hb, hn]

/-- While idle an entry at NMAX or above ignores writes (R91). -/
theorem hostWrite_beyond (k : MemName) (v : Word) (ho : o < regionBytes) (hb : s.busy = false)
    (hn : s.cfg.nmax ≤ o / s.cfg.fmt.entryBytes) : hostWrite s (memBase k + o) v = s.answer .ack := by
  simp [hostWrite, regionOf_memBase_add k ho, hb, hn]

/-- While idle a write reaches the memory where it has the entry (R87 to R89). -/
theorem hostWrite_inside (k : MemName) (v : Word) (ho : o < regionBytes) (hb : s.busy = false)
    (hn : o / s.cfg.fmt.entryBytes < s.cfg.nmax) : hostWrite s (memBase k + o) v = (s.writeMemWord k o v).answer .ack := by
  simp [hostWrite, regionOf_memBase_add k ho, hb, Nat.not_le.mpr hn]

/-- While idle a read gives the word of the memory where one was written (R64, R87 to R89). -/
theorem hostRead_written {u : Word} (ho : o < regionBytes) (hb : s.busy = false)
    (hn : o / s.cfg.fmt.entryBytes < s.cfg.nmax) (hu : (s.memory k).readWord o = some u) :
    hostRead s (memBase k + o) = .next (s.answer (.data u)) := by
  simp [hostRead, regionOf_memBase_add k ho, hb, Nat.not_le.mpr hn, hu]

/-- While idle a read of a word never written stops (R64). -/
theorem hostRead_unwritten (ho : o < regionBytes) (hb : s.busy = false) (hn : o / s.cfg.fmt.entryBytes < s.cfg.nmax)
    (hu : (s.memory k).readWord o = none) : hostRead s (memBase k + o) = .fault (.unwritten k o) := by
  simp [hostRead, regionOf_memBase_add k ho, hb, Nat.not_le.mpr hn, hu]

end Window

/-- A read of the register page, reserved offsets included, changes nothing but the bus answer (R86). -/
theorem hostRead_registerPage (s : State) {a : Nat} (ha : a < regionBytes) : ∃ r, hostRead s a = .next (s.answer r) := by
  rw [hostRead, regionOf_of_lt ha]
  simp only
  cases regAt a with
  | none => exact ⟨_, rfl⟩
  | some r => exact ⟨_, rfl⟩

/-- With legal parameters the memories fit their windows (R57, R80). -/
theorem memBytes_le_regionBytes {c : Config} (h : c.wf = true) : c.memBytes ≤ regionBytes := by
  simp only [Config.wf, Bool.and_eq_true, decide_eq_true_eq] at h
  have hn : c.nmax ≤ 2 ^ 16 := Nat.pow_le_pow_right two_pos h.1
  have hes : c.fmt.entryBytes ≤ 16 := by cases c.fmt <;> decide
  exact Nat.mul_le_mul hn hes

/-- An offset inside a memory lies in one of its entries. -/
theorem entry_lt_nmax {c : Config} {o : Nat} (h : o < c.memBytes) : o / c.fmt.entryBytes < c.nmax :=
  (Nat.div_lt_iff_lt_mul (entryBytes_pos c.fmt)).mpr h

/-- The controller has no turn while idle (R230). -/
theorem controllerTurn_of_idle {s : State} (hb : s.busy = false) : controllerTurn s = .next s := by
  simp [controllerTurn, hb]

/-! ### The statements -/

/-- Settles O43: the size and the alignment are tested before anything else but the window. -/
theorem rejectedAccessesChangeNothing : Obligations.RejectedAccessesChangeNothing := by
  intro s x hlo hhi hrej
  have hin : ¬(x.addr < s.cfg.base ∨ s.cfg.base + windowBytes ≤ x.addr) := by
    rw [windowBytes]
    omega
  unfold hostAccess
  rw [if_neg hin, if_pos hrej]
  rfl

/-- Settles O44: a window access by the busy rule, a register access by the register map, which does not test BUSY. -/
theorem busyWindowAccessesSetAccessErr : Obligations.BusyWindowAccessesSetAccessErr := by
  intro s hb
  refine ⟨fun a v hlo hhi h4 => ?_, fun r v => ⟨hostAccess_readReg s r, hostAccess_writeReg s r v⟩,
    rejectedAccessesChangeNothing s⟩
  rw [hostAccess_read hhi h4, hostAccess_write v hhi h4]
  obtain ⟨k, o, ho, rfl⟩ := exists_memBase_add hlo hhi
  rw [hostRead_busyWindow k ho hb, hostWrite_busyWindow k v ho hb]
  exact ⟨rfl, rfl⟩

/-- Settles O45: a word inside the memory has an entry there, so the access reaches it. -/
theorem idleWindowAccessesReachTheMemories : Obligations.IdleWindowAccessesReachTheMemories := by
  intro s o v hwf hb h4 hin
  have ho : o < regionBytes := hin.trans_le (memBytes_le_regionBytes hwf)
  have hn := entry_lt_nmax hin
  have hwrite : ∀ k, hostAccess s (.write (s.cfg.base + memBase k + o) .w32 v) =
      .next ((s.writeMemWord k o v).answer .ack) := fun k => by
    rw [hostAccess_writeWindow v ho h4, hostWrite_inside k v ho hb hn]
  refine ⟨hwrite .inp, hwrite .work, hwrite .tw,
    fun m => ⟨readWord_writeWord_self m o v, fun a ha => readByte_writeWord_of_outside m v ha⟩,
    fun k => ⟨fun u hu => ?_, fun hu => ?_⟩⟩
  · rw [hostAccess_readWindow ho h4, hostRead_written ho hb hn hu]
    rfl
  · rw [hostAccess_readWindow ho h4, hostRead_unwritten ho hb hn hu]

/-- Settles O46: beyond the memory by R91 while idle, by the busy rule otherwise. -/
theorem entriesBeyondTheMemoryReadZero : Obligations.EntriesBeyondTheMemoryReadZero := by
  intro s k o v h4 ho hn
  rw [hostAccess_readWindow ho h4, hostAccess_writeWindow v ho h4]
  refine ⟨fun hb => ?_, fun hb => ?_⟩
  · rw [hostRead_beyond k ho hb hn, hostWrite_beyond k v ho hb hn]
    exact ⟨rfl, rfl⟩
  · rw [hostRead_busyWindow k ho hb, hostWrite_busyWindow k v ho hb]
    exact ⟨rfl, rfl⟩

/-- Settles O53: a performed read lies in the register page or in the window of a memory, where only the busy rule sets a bit. -/
theorem readsHaveNoSideEffect : Obligations.ReadsHaveNoSideEffect := by
  intro s t addr w h
  rcases hostAccess_performed h with ⟨r, rfl⟩ | ⟨a, ha, ⟨hx, hread⟩ | ⟨v, hx, -⟩⟩
  · exact .inl rfl
  · cases hx
    rcases Nat.lt_or_ge a regionBytes with hpage | hwindow
    · obtain ⟨r, hr⟩ := hostRead_registerPage s hpage
      cases hread.symm.trans hr
      exact .inl rfl
    · rcases hostRead_next_cases hread with ⟨r, rfl⟩ | ⟨hb, -⟩
      · exact .inl rfl
      · obtain ⟨k, o, ho, rfl⟩ := exists_memBase_add hwindow ha
        cases hread.symm.trans (hostRead_busyWindow k ho hb)
        exact .inr ⟨hb, by rwa [Nat.add_sub_cancel_left], rfl⟩
  · cases hx

/-- Settles O5: the head of the list is taken; the controller has no turn while idle. -/
theorem stepTakesTheNextEvent : Obligations.StepTakesTheNextEvent := by
  intro s
  refine ⟨fun x rest hp => step_of_pending hp, fun rest hp => step_of_pending hp, fun rest hp hb => ?_, fun hp hb => ?_⟩
  · exact (step_of_pending hp).trans (controllerTurn_of_idle hb)
  · rw [step, nextStep, hp]
    exact controllerTurn_of_idle hb

end Sys2Proof.Machine
end

section
/-! PROOF. The words of a component and the script operation that stores an entry (20_memory.md R82, R83, 30_encoding.md R118). -/

namespace Sys2Proof.Machine

/-! ### Parts of a run of bytes -/

/-- The part of a run of bytes from its byte `j` on. -/
theorem readLE_drop {m : Memory} {a j k v : Nat} (h : m.readLE a (j + k) = some v) :
    m.readLE (a + j) k = some (v / 256 ^ j) := by
  induction j generalizing a v with
  | zero => simpa using h
  | succ j ih =>
    rw [Nat.succ_add] at h
    obtain ⟨b, r, -, hr, rfl⟩ := readLE_succ h
    have hb := b.isLt
    rw [Nat.add_comm j 1, ← Nat.add_assoc, ih hr, Nat.pow_add, Nat.pow_one, ← Nat.div_div_eq_div_mul,
      show (b.toNat + 256 * r) / 256 = r by omega]

/-- The first `j` bytes of a run of bytes. -/
theorem readLE_take {m : Memory} {a j k v : Nat} (h : m.readLE a (j + k) = some v) :
    m.readLE a j = some (v % 256 ^ j) := by
  induction j generalizing a v with
  | zero => simp [Memory.readLE, Nat.mod_one]
  | succ j ih =>
    rw [Nat.succ_add] at h
    obtain ⟨b, r, hb, hr, rfl⟩ := readLE_succ h
    have hlt := b.isLt
    simp only [Memory.readLE, hb, ih hr, Option.some.injEq]
    rw [Nat.pow_succ', Nat.mod_mul, show (b.toNat + 256 * r) % 256 = b.toNat by omega,
      show (b.toNat + 256 * r) / 256 = r by omega]

/-- Only the low `k` bytes of a value are written. -/
theorem writeLE_mod (m : Memory) (a k v : Nat) : m.writeLE a k (v % 256 ^ k) = m.writeLE a k v := by
  induction k generalizing m a v with
  | zero => rfl
  | succ k ih =>
    have hbyte : BitVec.ofNat 8 (v % 256 ^ (k + 1)) = BitVec.ofNat 8 v := by
      apply BitVec.eq_of_toNat_eq
      rw [BitVec.toNat_ofNat, BitVec.toNat_ofNat]
      exact Nat.mod_mod_of_dvd v (Dvd.intro_left _ rfl)
    rw [Memory.writeLE, Memory.writeLE, hbyte, Nat.pow_succ', Nat.mod_mul_right_div_self, ih]

/-- A run of bytes is written in two parts. -/
theorem writeLE_add (m : Memory) (a j k v : Nat) :
    m.writeLE a (j + k) v = (m.writeLE a j v).writeLE (a + j) k (v / 256 ^ j) := by
  induction j generalizing m a v with
  | zero => simp [Memory.writeLE]
  | succ j ih =>
    rw [Nat.succ_add, Memory.writeLE, Memory.writeLE, ih, Nat.add_assoc, Nat.add_comm 1 j, Nat.div_div_eq_div_mul,
      Nat.pow_succ']

/-! ### The words of a component (R82) -/

/-- Word `w` of a component, at byte `4 * w` of it, is its bits `[32w+31:32w]`. -/
theorem readWord_of_readComp {f : SampleFmt} {m : Memory} {a w : Nat} {x : Comp f} (hw : w < f.compBytes / 4)
    (h : m.readComp f a = some x) : m.readWord (a + 4 * w) = some (BitVec.ofNat 32 (x.toNat / 2 ^ (32 * w))) := by
  have hsplit : f.compBytes = 4 * w + (4 + (f.compBytes - 4 * w - 4)) := by omega
  rw [readComp_eq_some, hsplit] at h
  rw [Memory.readWord, readLE_take (readLE_drop h), Option.map_some, Option.some.injEq]
  apply BitVec.eq_of_toNat_eq
  rw [BitVec.toNat_ofNat, BitVec.toNat_ofNat, show (256 : Nat) = 2 ^ 8 from rfl, ← Nat.pow_mul, ← Nat.pow_mul,
    ← Nat.mul_assoc, Nat.mod_mod]

theorem readWord_of_readEntry {f : SampleFmt} {m : Memory} {e w : Nat} {v : Entry f} (hw : w < f.compBytes / 4)
    (h : m.readEntry f e = some v) :
    m.readWord (e * f.entryBytes + 4 * w) = some (BitVec.ofNat 32 (v.re.toNat / 2 ^ (32 * w))) ∧
      m.readWord (e * f.entryBytes + f.compBytes + 4 * w) = some (BitVec.ofNat 32 (v.im.toNat / 2 ^ (32 * w))) := by
  obtain ⟨hre, him⟩ := readEntry_eq_some.mp h
  exact ⟨readWord_of_readComp hw hre, readWord_of_readComp hw him⟩

/-- The offset of a word decodes to its entry, its component and its place in the component. -/
theorem wordOffset_decodes {f : SampleFmt} {c w : Nat} (e : Nat) (hc : c < 2) (hw : w < f.compBytes / 4) :
    (e * f.entryBytes + c * f.compBytes + 4 * w) / f.entryBytes = e ∧
      (e * f.entryBytes + c * f.compBytes + 4 * w) % f.entryBytes / f.compBytes = c ∧
      (e * f.entryBytes + c * f.compBytes + 4 * w) % f.compBytes / 4 = w := by
  cases f <;> simp only [SampleFmt.entryBytes, SampleFmt.compBytes] at * <;> omega

/-- Settles O47: the layout by definition, the words as parts of a component's bytes, the offsets by division. -/
theorem wordsAreTheHalvesOfComponents : Obligations.WordsAreTheHalvesOfComponents :=
  ⟨⟨rfl, rfl, fun _ => rfl⟩, fun _ _ _ => ⟨rfl, rfl⟩, fun _ _ _ _ h _ hw => readWord_of_readEntry hw h,
    fun _ _ e _ _ _ hc hw h => ⟨readWord_of_readComp hw h, wordOffset_decodes e hc hw⟩⟩

/-! ### Runs of writes to IN -/

/-- A run in two parts. -/
theorem run_add {M : Host.Core} {s t : M.State} {j : Nat} (h : M.run j s = .next t) (k : Nat) :
    M.run (j + k) s = M.run k t := by
  induction j generalizing s with
  | zero =>
    cases h
    rw [Nat.zero_add]
  | succ j ih =>
    rw [Nat.succ_add]
    cases hs : M.step s with
    | next u =>
      rw [run_succ hs] at h ⊢
      exact ih h
    | fault r => simp [Host.Core.run, hs] at h
    | refused r => simp [Host.Core.run, hs] at h

/-- What a run of host writes to IN leaves: the memory, the events to come, and the answer. -/
def State.withInput (s : State) (m : Memory) (evs : List Event) : State :=
  { s with inMem := m, pending := evs, resp := .ack }

section Script
variable {s : State} {o : Nat} {rest : List Event}

/-- One word of a script's write to IN (R117). -/
theorem step_wrAt_inp (v : Nat) (hwf : s.cfg.wf = true) (hb : s.busy = false) (h4 : o % 4 = 0) (hin : o < s.cfg.memBytes)
    (hp : s.pending = wrAt s.cfg (memBase .inp + o) (BitVec.ofNat 32 v) :: rest) :
    step s = .next (s.withInput (s.inMem.writeLE o 4 v) rest) := by
  have hword : s.inMem.writeWord o (BitVec.ofNat 32 v) = s.inMem.writeLE o 4 v := writeLE_mod s.inMem o 4 v
  obtain ⟨hwrite, -⟩ := idleWindowAccessesReachTheMemories { s with pending := rest } o (BitVec.ofNat 32 v) hwf hb h4 hin
  rw [Nat.add_assoc] at hwrite
  rw [step_of_pending hp, ← hword]
  exact hwrite

/-- A script's write of one component to IN (R118). -/
theorem run_wrComp_inp (x : Nat) (hwf : s.cfg.wf = true) (hb : s.busy = false) (h4 : o % 4 = 0)
    (hin : o + s.cfg.fmt.compBytes ≤ s.cfg.memBytes) (hp : s.pending = wrComp s.cfg (memBase .inp + o) x ++ rest) :
    Sys2Proof.core.run (wrComp s.cfg (memBase .inp + o) x).length s =
      .next (s.withInput (s.inMem.writeLE o s.cfg.fmt.compBytes x) rest) := by
  unfold wrComp at hp ⊢
  cases hf : s.cfg.fmt with
  | f32 =>
    simp only [hf] at hp hin ⊢
    have hend : o + 4 ≤ s.cfg.memBytes := hin
    exact run_succ (step_wrAt_inp x hwf hb h4 (by omega) hp) 0
  | f64 =>
    simp only [hf] at hp hin ⊢
    have hend : o + 8 ≤ s.cfg.memBytes := hin
    have hlow := step_wrAt_inp x hwf hb h4 (by omega) hp
    have hhigh := step_wrAt_inp (s := s.withInput (s.inMem.writeLE o 4 x)
      (wrAt s.cfg (memBase .inp + (o + 4)) (BitVec.ofNat 32 (x / 2 ^ 32)) :: rest)) (o := o + 4) (x / 2 ^ 32) hwf hb
      (by omega) (show o + 4 < s.cfg.memBytes by omega) rfl
    rw [show SampleFmt.f64.compBytes = 4 + 4 from rfl, writeLE_add]
    exact (run_succ hlow 1).trans (run_succ hhigh 0)

end Script

/-- The two components of an entry, written as runs of bytes. -/
theorem writeEntry_ofNat (f : SampleFmt) (m : Memory) (e re im : Nat) :
    m.writeEntry f e ⟨BitVec.ofNat _ re, BitVec.ofNat _ im⟩ =
      (m.writeLE (entryOffset f e) f.compBytes re).writeLE (imOffset f e) f.compBytes im := by
  simp only [Memory.writeEntry, Memory.writeComp, BitVec.toNat_ofNat, ← pow_compBytes, writeLE_mod]

theorem entryOffset_aligned (f : SampleFmt) (e : Nat) : entryOffset f e % 4 = 0 ∧ imOffset f e % 4 = 0 := by
  cases f <;> simp only [imOffset, entryOffset, SampleFmt.entryBytes, SampleFmt.compBytes] <;> omega

/-- `ldin` stores the entry (R87, R118): its events are the writes of the real and of the imaginary component. -/
theorem run_ldin {s : State} {i re im polls : Nat} (hwf : s.cfg.wf = true) (hi : i < s.cfg.nmax) (hb : s.busy = false)
    (hp : s.pending = expand s.cfg polls (.ldin i re im)) :
    Sys2Proof.core.run s.pending.length s =
      .next (s.withInput (s.inMem.writeEntry s.cfg.fmt i ⟨BitVec.ofNat _ re, BitVec.ofNat _ im⟩) []) := by
  obtain ⟨hre4, him4⟩ := entryOffset_aligned s.cfg.fmt i
  have hend : entryOffset s.cfg.fmt i + 2 * s.cfg.fmt.compBytes ≤ s.cfg.memBytes := entryOffset_le hi
  have him : imOffset s.cfg.fmt i + s.cfg.fmt.compBytes ≤ s.cfg.memBytes := by rw [imOffset_eq]; omega
  have hevents : s.pending = wrComp s.cfg (memBase .inp + entryOffset s.cfg.fmt i) re ++
      wrComp s.cfg (memBase .inp + imOffset s.cfg.fmt i) im := by
    rw [hp, imOffset_eq, ← Nat.add_assoc]
    rfl
  have hfirst := run_wrComp_inp re hwf hb hre4 (by omega) hevents
  have hsecond := run_wrComp_inp (s := s.withInput (s.inMem.writeLE (entryOffset s.cfg.fmt i) s.cfg.fmt.compBytes re)
    (wrComp s.cfg (memBase .inp + imOffset s.cfg.fmt i) im)) (rest := []) im hwf hb him4 him (List.append_nil _).symm
  rw [hevents, List.length_append, run_add hfirst, writeEntry_ofNat]
  exact hsecond

/-- Settles O55: `run_ldin`, and what a write of an entry leaves of the memory. -/
theorem ldinStoresTheEntry : Obligations.LdinStoresTheEntry := by
  intro s i re im polls hwf hop hb hp
  simp only [ScriptOp.wf, Bool.and_eq_true, decide_eq_true_eq] at hop
  obtain ⟨⟨hi, -⟩, -⟩ := hop
  exact ⟨_, run_ldin hwf hi hb hp, readEntry_writeEntry_self _ _ _ _,
    fun a ha => readByte_writeEntry_of_outside _ _ ha, rfl⟩

end Sys2Proof.Machine
end

section
/-! PROOF. The command word (30_encoding.md R110 to R116): encoder and decoder are inverse on words, on bytes in address order and
on the bits of a table row; which words are no command, and what the block does with one. -/

namespace Sys2Proof.Machine

/-! ### Words (R111, R113) -/

@[simp] theorem opcodeField_encode (i : Instr) : opcodeField (encode i) = opcodeOf i := by
  cases i <;> rfl

@[simp] theorem rsvdField_encode (i : Instr) : rsvdField (encode i) = 0 := by
  cases i <;> rfl

@[simp] theorem decodeOpcode_opcodeOf (i : Instr) : decodeOpcode (opcodeOf i) = .ok i := by
  cases i <;> rfl

@[simp] theorem decodeWord_encode (i : Instr) : decodeWord (encode i) = .ok i := by
  simp [decodeWord]

theorem decodeWord_eq_ok_iff {w : Word} {i : Instr} : decodeWord w = .ok i ↔ w = encode i :=
  ⟨decodeWord_ok, fun h => h ▸ decodeWord_encode i⟩

/-- Settles O1: `decodeWord_eq_ok_iff`; the twelve words by evaluation of `encode`. -/
theorem decodeAcceptsExactlyTheOpcodeMap : Obligations.DecodeAcceptsExactlyTheOpcodeMap :=
  ⟨fun _ _ => decodeWord_eq_ok_iff, rfl, rfl, rfl, rfl, rfl, rfl, rfl, rfl, rfl, rfl, rfl, rfl⟩

/-! ### Bytes and table rows (R83, R110) -/

theorem wordOfBytes_extractLsb' (w : Word) :
    wordOfBytes (w.extractLsb' 0 8) (w.extractLsb' 8 8) (w.extractLsb' 16 8) (w.extractLsb' 24 8) = w := by
  unfold wordOfBytes
  rw [BitVec.extractLsb'_append_extractLsb'_eq_extractLsb' (by rfl),
    BitVec.extractLsb'_append_extractLsb'_eq_extractLsb' (by rfl),
    BitVec.extractLsb'_append_extractLsb'_eq_extractLsb' (by rfl)]
  exact BitVec.extractLsb'_eq_self

/-- The bytes of any word, legal or not, decode as the word does. -/
theorem decodeBytes_bytesOfWord_append (w : Word) (rest : List Byte) :
    decodeBytes (bytesOfWord w ++ rest) = (decodeWord w).map (fun i => (i, rest)) := by
  simp only [bytesOfWord, List.cons_append, List.nil_append, decodeBytes, wordOfBytes_extractLsb']

theorem decodeBytes_encodeBytes_append (i : Instr) (rest : List Byte) :
    decodeBytes (encodeBytes i ++ rest) = .ok (i, rest) := by
  rw [encodeBytes, decodeBytes_bytesOfWord_append, decodeWord_encode]
  rfl

@[simp] theorem tableWord_toNat (w : Word) : tableWord 32 w.toNat = w := by
  rw [tableWord, Nat.mod_eq_of_lt w.isLt, BitVec.ofNat_toNat, BitVec.setWidth_eq]

theorem decodeTableWord_encode (i : Instr) : decodeTableWord 32 (encode i).toNat = some i := by
  have hbytes := decodeBytes_encodeBytes_append i []
  rw [List.append_nil, encodeBytes] at hbytes
  rw [decodeTableWord, tableWord_toNat, hbytes]

/-- Settles O2: bytes and table word both give back the word, which `decodeWord_encode` decodes. -/
theorem encodedBytesDecodeBack : Obligations.EncodedBytesDecodeBack :=
  fun i rest => ⟨decodeBytes_encodeBytes_append i rest, decodeTableWord_encode i⟩

/-! ### Illegal words (R115, R116) -/

theorem rsvdField_eq_zero_iff {w : Word} : rsvdField w = 0 ↔ w.toNat / 256 = 0 := by
  have hw := w.isLt
  rw [← BitVec.toNat_inj, rsvdField, BitVec.extractLsb'_toNat, Nat.shiftRight_eq_div_pow, Nat.mod_eq_of_lt (by omega)]
  rfl

theorem toNat_opcodeField (w : Word) : (opcodeField w).toNat = w.toNat % 256 := by
  rw [opcodeField, BitVec.extractLsb'_toNat, Nat.shiftRight_zero]

/-- A rejected opcode is in one of the gaps of the map: zero, the reserved facade commands, all above the primitive ones. -/
theorem decodeOpcode_error {op : BitVec 8} {e : DecodeReject} (h : decodeOpcode op = .error e) :
    op.toNat = 0 ∨ (0x07 ≤ op.toNat ∧ op.toNat ≤ 0x0F) ∨ 0x16 ≤ op.toNat := by
  unfold decodeOpcode at h
  split at h
  case h_1 hzero => exact .inl hzero
  case h_14 =>
    simp only [imp_false] at *
    omega
  all_goals cases h

theorem decodeOpcode_ne_ok_iff {op : BitVec 8} : (∀ i, decodeOpcode op ≠ .ok i) ↔
    op.toNat = 0 ∨ (0x07 ≤ op.toNat ∧ op.toNat ≤ 0x0F) ∨ 0x16 ≤ op.toNat := by
  constructor
  · intro h
    cases hd : decodeOpcode op with
    | ok i => exact absurd hd (h i)
    | error e => exact decodeOpcode_error hd
  · intro hgap i hi
    rw [decodeOpcode_ok hi] at hgap
    revert hgap
    cases i <;> decide

theorem decodeWord_ne_ok_iff {w : Word} : (∀ i, decodeWord w ≠ .ok i) ↔
    w.toNat / 256 ≠ 0 ∨ w.toNat % 256 = 0 ∨ (0x07 ≤ w.toNat % 256 ∧ w.toNat % 256 ≤ 0x0F) ∨ 0x16 ≤ w.toNat % 256 := by
  rw [← toNat_opcodeField, ne_eq, ← rsvdField_eq_zero_iff, decodeWord]
  split
  · rename_i hrsvd
    simp only [hrsvd, not_true_eq_false, false_or, decodeOpcode_ne_ok_iff]
  · rename_i hrsvd
    exact iff_of_true (fun _ hd => nomatch hd) (.inl hrsvd)

theorem offerCmd_of_idle {s : State} (w : Word) (hb : s.busy = false) : s.offerCmd w = s.acceptCmd w := by
  simp [State.offerCmd, hb]

theorem controllerTurn_of_illegal {s : State} (hb : s.busy = true) (hw : ∀ i, decodeWord s.latch.word ≠ .ok i) :
    controllerTurn s = .next (s.raiseCmdError .illegalCommand) := by
  rw [controllerTurn, if_pos hb, completionStep]
  split
  · rename_i i hi
    exact absurd hi (hw i)
  · rfl

/-- Settles O3: the gaps of the opcode map, acceptance while idle, and the completion as an error. -/
theorem illegalWordsAreAcceptedAndFail : Obligations.IllegalWordsAreAcceptedAndFail :=
  ⟨rfl, fun w => ⟨decodeWord_ne_ok_iff, fun hw => ⟨fun _ hb => offerCmd_of_idle w hb,
    fun _ hb hl => controllerTurn_of_illegal hb (hl ▸ hw)⟩⟩⟩

end Sys2Proof.Machine
end

section
/-! PROOF. CONFIGURE (40_twiddle.md R141, R142, R147, R148): what one that passes its checks leaves, entry by entry, and what one
that fails keeps. -/

namespace Sys2Proof.Machine

/-! ### The entries of the table (R142) -/

/-- The first loop of the generator: the two halves of the table. -/
theorem twiddleHalves_entries {f : SampleFmt} {h m : Nat} {tw y : Memory}
    (hy : forUpTo h (fun k t => .ok ((t.writeEntry f k (canon f m k)).writeEntry f (h + k) (anti f m k))) tw = .ok y) :
    ∀ k, k < h → y.readEntry f k = some (canon f m k) ∧ y.readEntry f (h + k) = some (anti f m k) := by
  refine forUpTo_inv (fun i (t : Memory) => ∀ k, k < i →
      t.readEntry f k = some (canon f m k) ∧ t.readEntry f (h + k) = some (anti f m k))
    hy (fun k hk => absurd hk (Nat.not_lt_zero k)) (fun i t t' hi ih ht k hk => ?_)
  cases ht
  rw [readEntry_writeEntry_ne (e' := k) _ _ (by omega)]
  rcases Nat.lt_succ_iff_lt_or_eq.mp hk with hlt | rfl
  · rw [readEntry_writeEntry_ne _ _ (by omega), readEntry_writeEntry_ne _ _ (by omega),
      readEntry_writeEntry_ne _ _ (by omega)]
    exact ih k hlt
  · exact ⟨readEntry_writeEntry_self _ _ _ _, readEntry_writeEntry_self _ _ _ _⟩

/-- The second loop of the generator: zeros from entry `b` on, and nothing below. -/
theorem zeroFill_entries {f : SampleFmt} {b n : Nat} {y z : Memory}
    (hz : forUpTo n (fun k t => .ok (t.writeEntry f (b + k) (zeroEntry f))) y = .ok z) :
    (∀ e, e < b → z.readEntry f e = y.readEntry f e) ∧
      ∀ k, k < n → z.readEntry f (b + k) = some (zeroEntry f) := by
  refine forUpTo_inv (fun i (t : Memory) => (∀ e, e < b → t.readEntry f e = y.readEntry f e) ∧
      ∀ k, k < i → t.readEntry f (b + k) = some (zeroEntry f))
    hz ⟨fun _ _ => rfl, fun k hk => absurd hk (Nat.not_lt_zero k)⟩ (fun i t t' hi ⟨hlow, hzero⟩ ht => ?_)
  cases ht
  refine ⟨fun e he => ?_, fun k hk => ?_⟩
  · rw [readEntry_writeEntry_ne _ _ (by omega), hlow e he]
  · rcases Nat.lt_succ_iff_lt_or_eq.mp hk with hlt | rfl
    · rw [readEntry_writeEntry_ne _ _ (by omega), hzero k hlt]
    · exact readEntry_writeEntry_self _ _ _ _

/-- Every entry of the generated table (R142). -/
theorem generateTwiddles_entries {f : SampleFmt} {nmax m : Nat} {tw z : Memory}
    (h : generateTwiddles f nmax m tw = .ok z) :
    (∀ k, k < 2 ^ m / 2 →
      z.readEntry f k = some (canon f m k) ∧ z.readEntry f (2 ^ m / 2 + k) = some (anti f m k)) ∧
    ∀ e, 2 * (2 ^ m / 2) ≤ e → e < nmax → z.readEntry f e = some (zeroEntry f) := by
  obtain ⟨y, hy, hz⟩ := bind_eq_ok.mp h
  obtain ⟨hlow, hzero⟩ := zeroFill_entries hz
  refine ⟨fun k hk => ?_, fun e he hlt => ?_⟩
  · rw [hlow k (by omega), hlow _ (by omega)]
    exact twiddleHalves_entries hy k hk
  · obtain ⟨k, rfl⟩ := Nat.exists_eq_add_of_le he
    exact hzero k (by omega)

/-! ### CONFIGURE with a legal and with an illegal length (R141, R147) -/

section Configure

variable {s t : State}

/-- What a CONFIGURE that passed its checks leaves, with the table it generated. -/
def State.configuredWith (s : State) (tw : Memory) : State :=
  { s with
    twMem := tw
    n := 2 ^ ceilLog2 s.reqLen.toNat
    log2n := ceilLog2 s.reqLen.toNat
    configured := true
    outLen := 0 }

theorem exec_configure_next_iff (hpos : 0 < s.reqLen) (hmax : s.reqLen ≤ s.cfg.nmax) :
    exec .configure s = .next t ↔ ∃ tw,
      generateTwiddles s.cfg.fmt s.cfg.nmax (ceilLog2 s.reqLen.toNat) s.twMem = .ok tw ∧
        t = (s.configuredWith tw).finish .ok := by
  have hv : s.validate .configure = .ok := checkConfigure_ok.mpr ⟨hpos, hmax⟩
  constructor
  · intro h
    rcases exec_next_cases h with ⟨-, u, hu, rfl⟩ | ⟨hne, -⟩
    · obtain ⟨tw, htw, rfl⟩ := configureEffect_ok.mp hu
      exact ⟨tw, htw, rfl⟩
    · exact absurd hv hne
  · rintro ⟨tw, htw, rfl⟩
    exact exec_next_of_effect hv (configureEffect_ok.mpr ⟨tw, htw, rfl⟩)

theorem ceilLog2_reqLen_le_iff {e : Nat} : ceilLog2 s.reqLen.toNat ≤ e ↔ s.reqLen ≤ 2 ^ e := by
  rw [ceilLog2_le_iff, Int.toNat_le, Nat.cast_pow, Nat.cast_ofNat]

/-- N fits the memory when the requested length does (R141). -/
theorem two_pow_ceilLog2_reqLen_le (h : s.reqLen ≤ s.cfg.nmax) : 2 ^ ceilLog2 s.reqLen.toNat ≤ s.cfg.nmax :=
  Nat.pow_le_pow_right two_pos (ceilLog2_reqLen_le_iff.mpr (by exact_mod_cast h))

theorem failsWith_of_validate {i : Instr} {e : ErrCode} (h : s.validate i = e) (he : e ≠ .ok) : FailsWith i s e := by
  rw [FailsWith, exec_eq_complete, h, complete_of_error he]
  rfl

theorem checkConfigure_of_nonpos (h : s.reqLen ≤ 0) : s.checkConfigure = .invalidLength := if_pos h

theorem checkConfigure_of_over (h : s.cfg.nmax < s.reqLen) : s.checkConfigure = .capacity := by
  rw [State.checkConfigure, if_neg (by omega), if_pos h]

theorem controllerTurn_of_legal {i : Instr} (hb : s.busy = true) (hw : decodeWord s.latch.word = .ok i) :
    controllerTurn s = exec i s := by
  rw [controllerTurn, if_pos hb, completionStep, hw]

/-- CONFIGURE in the latch, with a length its checks refuse, or a word that is no command: an error completion (R148). -/
theorem controllerTurn_fails (hb : s.busy = true)
    (h : (s.latch.word = 0x00000001 ∧ (s.reqLen ≤ 0 ∨ s.cfg.nmax < s.reqLen)) ∨
      (∀ i, decodeWord s.latch.word ≠ .ok i)) :
    ∃ e, e ≠ .ok ∧ controllerTurn s = .next (s.raiseCmdError e) := by
  rcases h with ⟨hw, hlen⟩ | hw
  · have hv : s.validate .configure ≠ .ok := fun hok => by
      have hlegal := checkConfigure_ok.mp hok
      omega
    have hdec : decodeWord s.latch.word = .ok .configure := by rw [hw]; rfl
    exact ⟨_, hv, (controllerTurn_of_legal hb hdec).trans (failsWith_of_validate rfl hv)⟩
  · exact ⟨.illegalCommand, by decide, controllerTurn_of_illegal hb hw⟩

end Configure

/-! ### The statements -/

/-- Settles O14: both tables are the generator's, which forgets what TW held. -/
theorem configuredTableForgetsThePast : Obligations.ConfiguredTableForgetsThePast := by
  intro s s' t t' hcfg hlatch hpos hmax hwf hbelow hwf' hbelow' ht ht'
  have hlen : s'.reqLen = s.reqLen := by rw [State.reqLen, State.reqLen, hlatch]
  obtain ⟨tw, htw, rfl⟩ := (exec_configure_next_iff hpos hmax).mp ht
  obtain ⟨tw', htw', rfl⟩ := (exec_configure_next_iff (by omega) (by rw [hlen, ← hcfg]; exact hmax)).mp ht'
  rw [hlen, ← hcfg] at htw'
  rw [← hcfg] at hbelow'
  have hsame : tw = tw' :=
    generateTwiddles_forgets (two_pow_ceilLog2_reqLen_le hmax) htw htw' hwf hwf' hbelow hbelow'
  simp [State.configuredWith, hsame, hlen]

/-- Settles O12: a legal length leaves `configuredWith` the generated table, whose entries the generator's two loops write;
each illegal length fails its own check. -/
theorem configureSetsLengthAndTable : Obligations.ConfigureSetsLengthAndTable := by
  intro s
  refine ⟨fun hpos hmax => ?_, fun hle => ?_, fun hover => ?_⟩
  · obtain ⟨tw, htw⟩ := generateTwiddles_total s.cfg.fmt s.cfg.nmax (ceilLog2 s.reqLen.toNat) s.twMem
    have hN := two_pow_ceilLog2_reqLen_le hmax
    obtain ⟨hhalves, hzero⟩ := generateTwiddles_entries htw
    refine ⟨_, (exec_configure_next_iff hpos hmax).mpr ⟨tw, htw, rfl⟩, rfl, ?_,
      fun e he => ceilLog2_reqLen_le_iff.mpr he, hN, rfl, rfl, rfl, rfl, ?_, ?_, hhalves, hzero, (generateTwiddles_writes hN htw).outside⟩
    · simpa [State.configuredWith] using ceilLog2_reqLen_le_iff.mp le_rfl
    · constructor <;> rfl
    · constructor <;> rfl
  · exact failsWith_of_validate (checkConfigure_of_nonpos hle) (by decide)
  · exact failsWith_of_validate (checkConfigure_of_over hover) (by decide)

/-- Settles O13: both ways to fail complete as an error, which keeps the configuration. -/
theorem failedConfigureKeepsThePreviousConfiguration : Obligations.FailedConfigureKeepsThePreviousConfiguration := by
  intro s hb h
  obtain ⟨e, he, ht⟩ := controllerTurn_fails hb h
  exact ⟨_, ht, keepsConfiguration_raiseCmdError s e, rfl, he⟩

end Sys2Proof.Machine
end

section
/-! PROOF. The fixed-point cosines (40_twiddle.md R143 to R145): each half-angle step is a floored root with the sign of the
cosine, so the symmetries of the circle and the exact quarter turns hold without error, at every length. -/

namespace Sys2Proof.Machine

/-! ### One half-angle step -/

/-- What the half-angle formula makes of a cosine `c / 2^256`, before its sign: the floor of
`2^256 * sqrt((1 + c / 2^256) / 2)`. -/
def halfRoot (c : Int) : Nat := Nat.sqrt ((2 ^ cosBits + c).toNat * 2 ^ (cosBits - 1))

/-- The angle `k/2^m` of a turn lies in the first or the last quarter, borders included. -/
abbrev InRightHalf (m k : Nat) : Prop := 4 * (k % 2 ^ m) ≤ 2 ^ m ∨ 3 * 2 ^ m ≤ 4 * (k % 2 ^ m)

theorem cosFix_zero (k : Nat) : cosFix 0 k = 2 ^ cosBits := rfl

theorem isqrt_halfAngle (c : Int) : isqrt ((2 ^ cosBits + c).toNat * 2 ^ (cosBits - 1)) = halfRoot c := isqrt_eq_sqrt _

theorem cosFix_succ (m k : Nat) :
    cosFix (m + 1) k = if InRightHalf (m + 1) k then (halfRoot (cosFix m k) : Int) else -halfRoot (cosFix m k) := by
  rw [cosFix, isqrt_halfAngle]

theorem natAbs_cosFix_succ (m k : Nat) : (cosFix (m + 1) k).natAbs = halfRoot (cosFix m k) := by
  rw [cosFix_succ]
  generalize halfRoot (cosFix m k) = r
  split
  · exact Int.natAbs_natCast r
  · rw [Int.natAbs_neg, Int.natAbs_natCast]

theorem natCast_two_pow_cosBits : ((2 ^ cosBits : Nat) : Int) = 2 ^ cosBits := by rw [Nat.cast_pow, Nat.cast_ofNat]

theorem square_two_pow_cosBits : (2 : Nat) ^ cosBits * 2 ^ cosBits = 2 * 2 ^ cosBits * 2 ^ (cosBits - 1) := by
  decide +kernel

theorem halfRoot_one : halfRoot (2 ^ cosBits) = 2 ^ cosBits := by
  have h : ((2 : Int) ^ cosBits + 2 ^ cosBits).toNat = 2 * 2 ^ cosBits := by decide +kernel
  rw [halfRoot, h, ← square_two_pow_cosBits, Nat.sqrt_eq]

theorem halfRoot_negOne : halfRoot (-2 ^ cosBits) = 0 := by
  rw [halfRoot, add_neg_cancel, Int.toNat_zero, Nat.zero_mul, Nat.sqrt_zero]

theorem halfRoot_lt {c : Int} (h : c < 2 ^ cosBits) : halfRoot c < 2 ^ cosBits := by
  have hone := natCast_two_pow_cosBits
  have hpos := Nat.two_pow_pos cosBits
  rw [halfRoot, Nat.sqrt_lt, square_two_pow_cosBits]
  exact Nat.mul_lt_mul_of_pos_right (by omega) (Nat.two_pow_pos _)

theorem halfRoot_pos {c : Int} (h : -2 ^ cosBits < c) : 0 < halfRoot c :=
  Nat.sqrt_pos.mpr (Nat.mul_pos (by omega) (Nat.two_pow_pos _))

theorem natAbs_cosFix_le (m k : Nat) : (cosFix m k).natAbs ≤ 2 ^ cosBits := by
  induction m with
  | zero => rw [cosFix_zero, Int.natAbs_pow]; rfl
  | succ m ih =>
    have hone := natCast_two_pow_cosBits
    rw [natAbs_cosFix_succ]
    rcases (show cosFix m k ≤ 2 ^ cosBits by omega).lt_or_eq with hlt | heq
    · exact (halfRoot_lt hlt).le
    · rw [heq, halfRoot_one]

/-! ### Symmetries of the circle -/

/-- The angle at twice the resolution, seen at the coarser one. -/
theorem mod_two_pow_succ_cases (m k : Nat) :
    k % 2 ^ (m + 1) = k % 2 ^ m ∨ k % 2 ^ (m + 1) = k % 2 ^ m + 2 ^ m := by
  rw [pow_succ, Nat.mod_mul]
  rcases Nat.mod_two_eq_zero_or_one (k / 2 ^ m) with h | h <;> simp [h]

/-- Half a turn takes the angle to the other one of the two that look the same at half the resolution. -/
theorem add_mod_two_pow_succ (m k : Nat) :
    (k + 2 ^ m) % 2 ^ (m + 1) + k % 2 ^ (m + 1) = 2 * (k % 2 ^ m) + 2 ^ m := by
  rw [pow_succ, Nat.mod_mul, Nat.mod_mul, Nat.add_mod_right, Nat.add_div_right _ (Nat.two_pow_pos m)]
  rcases Nat.mod_two_eq_zero_or_one (k / 2 ^ m) with h | h
  · rw [h, Nat.succ_mod_two_eq_one_iff.mpr h]
    omega
  · rw [h, Nat.succ_mod_two_eq_zero_iff.mpr h]
    omega

theorem cosFix_congr {m k k' : Nat} (h : k % 2 ^ m = k' % 2 ^ m) : cosFix m k = cosFix m k' := by
  induction m with
  | zero => rfl
  | succ m ih =>
    have hcoarse : k % 2 ^ m = k' % 2 ^ m := Nat.ModEq.of_dvd (Nat.pow_dvd_pow 2 m.le_succ) h
    rw [cosFix_succ, cosFix_succ, ih hcoarse]
    simp only [InRightHalf, h]

/-- Two angles that make whole turns have the same cosine. -/
theorem cosFix_mirror {m k k' : Nat} (h : 2 ^ m ∣ k + k') : cosFix m k = cosFix m k' := by
  induction m with
  | zero => rfl
  | succ m ih =>
    have hsum : (k % 2 ^ (m + 1) + k' % 2 ^ (m + 1)) % 2 ^ (m + 1) = 0 := by
      rw [← Nat.add_mod, Nat.mod_eq_zero_of_dvd h]
    have hk := Nat.mod_lt k (Nat.two_pow_pos (m + 1))
    have hk' := Nat.mod_lt k' (Nat.two_pow_pos (m + 1))
    have hcases : k % 2 ^ (m + 1) + k' % 2 ^ (m + 1) = 0 ∨ k % 2 ^ (m + 1) + k' % 2 ^ (m + 1) = 2 ^ (m + 1) := by
      obtain ⟨q, hq⟩ := Nat.dvd_of_mod_eq_zero hsum
      rcases q with _ | _ | q
      · exact .inl hq
      · exact .inr (by rw [hq, Nat.zero_add, Nat.mul_one])
      · rw [Nat.mul_add] at hq
        have hover := Nat.mul_le_mul_left (2 ^ (m + 1)) (Nat.le_add_left 1 q)
        omega
    rw [cosFix_succ, cosFix_succ, ih (Nat.dvd_trans (Nat.pow_dvd_pow 2 m.le_succ) h)]
    refine if_congr ?_ rfl rfl
    rw [InRightHalf, InRightHalf]
    omega

/-- The cosine of half the resolution at every other angle (R145). -/
theorem cosFix_double (m k : Nat) : cosFix (m + 1) (2 * k) = cosFix m k := by
  induction m with
  | zero =>
    have h : 2 * k % 2 ^ 1 = 0 % 2 ^ 1 := by omega
    rw [cosFix_congr h, cosFix_succ, cosFix_zero, halfRoot_one, if_pos (by decide), natCast_two_pow_cosBits,
      cosFix_zero]
  | succ m ih =>
    have hmod : 2 * k % 2 ^ (m + 2) = 2 * (k % 2 ^ (m + 1)) := by
      rw [pow_succ', Nat.mul_mod_mul_left]
    rw [cosFix_succ, ih, cosFix_succ m]
    refine if_congr ?_ rfl rfl
    rw [InRightHalf, InRightHalf, hmod, pow_succ' 2 (m + 1)]
    omega

theorem cosFix_subsample (m k d : Nat) : cosFix (m + d) (k * 2 ^ d) = cosFix m k := by
  induction d with
  | zero => rw [Nat.pow_zero, Nat.mul_one, Nat.add_zero]
  | succ d ih => rw [← Nat.add_assoc, pow_succ, ← Nat.mul_assoc, Nat.mul_comm, cosFix_double, ih]

/-! ### The exact quarter turns, and no others -/

theorem cosFix_fullTurn {m k : Nat} (h : k % 2 ^ m = 0) : cosFix m k = 2 ^ cosBits := by
  have hsub := cosFix_subsample 0 (k / 2 ^ m) m
  rwa [Nat.zero_add, Nat.div_mul_cancel (Nat.dvd_of_mod_eq_zero h)] at hsub

theorem cosFix_halfTurn {m k : Nat} (h : 2 * (k % 2 ^ m) = 2 ^ m) : cosFix m k = -2 ^ cosBits := by
  cases m with
  | zero => omega
  | succ m =>
    have hcoarse : k % 2 ^ m = 0 := by
      rw [pow_succ] at h
      have hlt := Nat.mod_lt k (Nat.two_pow_pos m)
      rcases mod_two_pow_succ_cases m k with hc | hc <;> rw [pow_succ] at hc <;> omega
    have hleft : ¬ InRightHalf (m + 1) k := by
      have hpos := Nat.two_pow_pos (m + 1)
      rw [InRightHalf]
      omega
    rw [cosFix_succ, cosFix_fullTurn hcoarse, halfRoot_one, if_neg hleft, natCast_two_pow_cosBits]

theorem cosFix_quarterTurn {m k : Nat} (h : 2 * (k % 2 ^ m) = 2 ^ m) : cosFix (m + 1) k = 0 := by
  rw [← Int.natAbs_eq_zero, natAbs_cosFix_succ, cosFix_halfTurn h, halfRoot_negOne]

/-- Away from the full and the half turn the computed cosine is strictly inside `(-1, 1)`. -/
theorem natAbs_cosFix_lt {m k : Nat} (h : k % 2 ^ m ≠ 0) (h2 : 2 * (k % 2 ^ m) ≠ 2 ^ m) :
    (cosFix m k).natAbs < 2 ^ cosBits := by
  induction m with
  | zero => omega
  | succ m ih =>
    have hone := natCast_two_pow_cosBits
    have hpos := Nat.two_pow_pos cosBits
    have hcoarse : k % 2 ^ m ≠ 0 := by
      rw [pow_succ] at h h2
      rcases mod_two_pow_succ_cases m k with hc | hc <;> rw [pow_succ] at hc <;> omega
    rw [natAbs_cosFix_succ]
    apply halfRoot_lt
    by_cases hhalf : 2 * (k % 2 ^ m) = 2 ^ m
    · rw [cosFix_halfTurn hhalf]
      omega
    · have := ih hcoarse hhalf
      omega

theorem cosFix_succ_ne_zero {m k : Nat} (h : 2 * (k % 2 ^ m) ≠ 2 ^ m) : cosFix (m + 1) k ≠ 0 := by
  have hone := natCast_two_pow_cosBits
  have hpos := Nat.two_pow_pos cosBits
  rw [← Int.natAbs_ne_zero, natAbs_cosFix_succ]
  refine (halfRoot_pos ?_).ne'
  by_cases hfull : k % 2 ^ m = 0
  · rw [cosFix_fullTurn hfull]
    omega
  · have := natAbs_cosFix_lt hfull h
    omega

/-- Half a turn more is the other sign (R145). -/
theorem cosFix_add_halfTurn (m k : Nat) : cosFix (m + 1) (k + 2 ^ m) = -cosFix (m + 1) k := by
  have hcoarse : (k + 2 ^ m) % 2 ^ m = k % 2 ^ m := Nat.add_mod_right _ _
  by_cases hq : 2 * (k % 2 ^ m) = 2 ^ m
  · rw [cosFix_quarterTurn hq, cosFix_quarterTurn (by rw [hcoarse, hq]), neg_zero]
  · have hflip : InRightHalf (m + 1) (k + 2 ^ m) ↔ ¬ InRightHalf (m + 1) k := by
      have hlt := Nat.mod_lt k (Nat.two_pow_pos m)
      have hsum := add_mod_two_pow_succ m k
      rw [InRightHalf, InRightHalf]
      rcases mod_two_pow_succ_cases m k with hc | hc <;> rw [pow_succ] at * <;> omega
    rw [cosFix_succ, cosFix_succ, cosFix_congr hcoarse, if_congr hflip rfl rfl, ite_not, apply_ite Neg.neg, neg_neg]

/-! ### Sines, and angles that make a quarter or a half turn -/

section Angles

variable {m k k' : Nat}

theorem sinFix_zero (m : Nat) : sinFix m 0 = 0 := by
  rw [sinFix]
  apply cosFix_quarterTurn
  have hmod : (4 * 0 + 3 * 2 ^ m) % 2 ^ (m + 1) = 2 ^ m := by
    rw [pow_succ, show 4 * 0 + 3 * 2 ^ m = 2 ^ m + 2 ^ m * 2 by ring, Nat.add_mod_right]
    exact Nat.mod_eq_of_lt (by have := Nat.two_pow_pos m; omega)
  rw [hmod, pow_succ, Nat.mul_comm]

theorem sinFix_ne_zero (hk : 0 < k) (hlt : 2 * k < 2 ^ m) : sinFix m k ≠ 0 := by
  rw [sinFix]
  apply cosFix_succ_ne_zero
  have hmod : (4 * k + 3 * 2 ^ m) % 2 ^ (m + 1) ≠ 2 ^ m := fun h => by
    have hsum := add_mod_two_pow_succ m (4 * k + 3 * 2 ^ m)
    have hfour : 4 * k + 3 * 2 ^ m + 2 ^ m = 4 * k + 2 ^ (m + 1) * 2 := by rw [pow_succ]; omega
    have hsmall : 4 * k < 2 ^ (m + 1) := by rw [pow_succ]; omega
    rw [h, hfour, Nat.add_mul_mod_self_left, Nat.mod_eq_of_lt hsmall] at hsum
    rcases mod_two_pow_succ_cases m (4 * k + 3 * 2 ^ m) with hc | hc <;> omega
  have hpow := pow_succ 2 m
  omega

theorem cosFix_ne_zero (hk : 4 * k ≠ 2 ^ m) (hlt : 2 * k < 2 ^ m) : cosFix m k ≠ 0 := by
  cases m with
  | zero => exact pow_ne_zero _ two_ne_zero
  | succ m =>
    rw [pow_succ] at hk hlt
    apply cosFix_succ_ne_zero
    rw [Nat.mod_eq_of_lt (by omega)]
    omega

theorem sinFix_subsample (m k d : Nat) : sinFix (m + d) (k * 2 ^ d) = sinFix m k := by
  rw [sinFix, sinFix, ← cosFix_subsample (m + 2) _ d]
  congr 1
  · omega
  · rw [pow_add]
    ring

theorem cosFix_halfTurn_sub (h : 2 * (k + k') = 2 ^ m) : cosFix m k' = -cosFix m k := by
  cases m with
  | zero => omega
  | succ m =>
    rw [pow_succ] at h
    have hsum : 2 ^ (m + 1) ∣ k + 2 ^ m + k' := ⟨1, by rw [pow_succ]; omega⟩
    rw [← cosFix_add_halfTurn, cosFix_mirror hsum]

theorem sinFix_halfTurn_sub (h : 2 * (k + k') = 2 ^ m) : sinFix m k' = sinFix m k :=
  cosFix_mirror ⟨2, by rw [pow_add]; omega⟩

theorem sinFix_quarterTurn_sub (h : 4 * (k + k') = 2 ^ m) : sinFix m k' = cosFix m k := by
  rw [← cosFix_subsample m k 2]
  exact cosFix_mirror ⟨1, by rw [pow_add]; omega⟩

end Angles

/-! ### Rounding a fixed-point cosine -/

section Rounding

variable {f : SampleFmt}

theorem fneg_roundComp (neg : Bool) (num den : Nat) : fneg (roundComp f neg num den) = roundComp f (!neg) num den := by
  rw [fneg, signOf_roundComp, magOf_roundComp, roundComp]

theorem fneg_fneg (x : Comp f) : fneg (fneg x) = x :=
  comp_ext (by rw [signOf_fneg, signOf_fneg, Bool.not_not]) (by rw [magOf_fneg, magOf_fneg])

theorem rnFix_zero (f : SampleFmt) : rnFix f 0 = posZero f := if_pos rfl

theorem rnFix_of_ne_zero {c : Int} (hc : c ≠ 0) :
    rnFix f c = roundComp f (decide (c < 0)) (c.natAbs * 2 ^ unitExp f) (2 ^ cosBits) := if_neg hc

theorem rnFix_neg {c : Int} (hc : c ≠ 0) : rnFix f (-c) = fneg (rnFix f c) := by
  have hsign : decide (-c < 0) = !decide (c < 0) := by
    rw [← decide_not, decide_eq_decide]
    omega
  rw [rnFix_of_ne_zero hc, rnFix_of_ne_zero (neg_ne_zero.mpr hc), fneg_roundComp, hsign, Int.natAbs_neg]

theorem isFinite_one (f : SampleFmt) : isFinite (ofRatio f 1 1) = true := by
  simpa using (ofRatio_two_pow f (Nat.zero_le 16) (Nat.zero_le 16)).1

theorem compVal_one (f : SampleFmt) : compVal (ofRatio f 1 1) = 1 := by
  simpa using (ofRatio_two_pow f (Nat.zero_le 16) (Nat.zero_le 16)).2

/-- The pattern of 1.0 is that of `2^unitExp` units (R28). -/
theorem magUnits_magOf_one (f : SampleFmt) : magUnits f (magOf (ofRatio f 1 1)) = 2 ^ unitExp f := by
  have h := abs_compVal (ofRatio f 1 1)
  rw [compVal_one, abs_one, eq_div_iff (by positivity), one_mul] at h
  exact_mod_cast h.symm

theorem rnFix_one (f : SampleFmt) : rnFix f (2 ^ cosBits) = ofRatio f 1 1 := by
  have hfin : magOf (ofRatio f 1 1) < infMag f := of_decide_eq_true (isFinite_one f)
  have hpos : ¬ (2 : Int) ^ cosBits < 0 := not_lt.mpr (by positivity)
  have hexact : magUnits f (magOf (ofRatio f 1 1)) * 2 ^ cosBits = ((2 : Int) ^ cosBits).natAbs * 2 ^ unitExp f := by
    rw [magUnits_magOf_one, ← natCast_two_pow_cosBits, Int.natAbs_natCast, Nat.mul_comm]
  rw [rnFix_of_ne_zero (pow_ne_zero _ two_ne_zero), decide_eq_false hpos,
    roundComp_of_exact false (Nat.two_pow_pos _) hexact hfin]
  have hsign : signOf (ofRatio f 1 1) = false := signOf_roundComp f false _ _
  rw [← hsign, packComp_signOf_magOf]

/-- Rounding does not pass a number that has a pattern. -/
theorem NearestMag.le_of_le {v : ℝ} {j k : Nat} (h : NearestMag f v k) (hv : v ≤ magUnits f j) : k ≤ j := by
  by_contra hlt
  have hjk : (magUnits f j : ℝ) < magUnits f k := Nat.cast_lt.mpr (magUnits_strictMono f (by omega))
  have hnear := h.nearest j
  rw [abs_of_nonpos (by linarith), abs_of_nonpos (by linarith)] at hnear
  linarith

theorem magOf_rnFix_le {c : Int} (hc : c.natAbs ≤ 2 ^ cosBits) : magOf (rnFix f c) ≤ magOf (ofRatio f 1 1) := by
  by_cases h0 : c = 0
  · rw [h0, rnFix_zero]
    exact (Nat.zero_mod _).trans_le (Nat.zero_le _)
  · have hpos : 0 < 2 ^ cosBits := Nat.two_pow_pos _
    rw [rnFix_of_ne_zero h0, magOf_roundComp, roundMag_eq_min]
    refine (Nat.min_le_left _ _).trans ((nearestMag_roundPattern hpos (sameSide_div f _ hpos)).le_of_le ?_)
    rw [magUnits_magOf_one, div_le_iff₀ (by positivity), ← Nat.cast_mul, Nat.cast_le, Nat.mul_comm]
    exact Nat.mul_le_mul_left _ hc

end Rounding

/-! ### The entries of the table -/

section Entries

variable {f : SampleFmt} {m k k' : Nat}

theorem canon_zero (f : SampleFmt) (m : Nat) : canon f m 0 = ⟨ofRatio f 1 1, posZero f⟩ := by
  rw [canon, cosFix_fullTurn (Nat.zero_mod _), sinFix_zero, neg_zero, rnFix_one, rnFix_zero]

theorem anti_zero (f : SampleFmt) (m : Nat) : anti f m 0 = ⟨ofRatio f 1 1, posZero f⟩ := by
  rw [anti, cosFix_fullTurn (Nat.zero_mod _), sinFix_zero, rnFix_one, rnFix_zero]

/-- Strictly between no turn and half a turn the sine is not zero, so the two halves are conjugate bit for bit (R145). -/
theorem canon_eq (hk : 0 < k) (hlt : 2 * k < 2 ^ m) :
    canon f m k = ⟨rnFix f (cosFix m k), fneg (rnFix f (sinFix m k))⟩ := by
  rw [canon, rnFix_neg (sinFix_ne_zero hk hlt)]

theorem cosFix_sinFix_quarterTurn (m : Nat) :
    cosFix (m + 2) (2 ^ m) = 0 ∧ sinFix (m + 2) (2 ^ m) = 2 ^ cosBits := by
  have hmod : 2 ^ m % 2 ^ (m + 1) = 2 ^ m := Nat.mod_eq_of_lt (Nat.pow_lt_pow_succ Nat.one_lt_two)
  have hcos : cosFix (m + 2) (2 ^ m) = 0 := cosFix_quarterTurn (by rw [hmod, pow_succ'])
  refine ⟨hcos, ?_⟩
  rw [← cosFix_fullTurn (Nat.zero_mod (2 ^ (m + 2)))]
  exact sinFix_quarterTurn_sub (by rw [pow_add]; omega)

end Entries

/-- Settles O15: the exact entries from the exact quarter turns, the symmetries from those of `cosFix`. -/
theorem twiddleTableSymmetries : Obligations.TwiddleTableSymmetries := by
  refine ⟨fun f m hm => ?_, fun f m k hm hk => ?_⟩
  · obtain ⟨n, rfl⟩ := Nat.exists_eq_add_of_le' hm
    obtain ⟨hcos, hsin⟩ := cosFix_sinFix_quarterTurn n
    rw [Nat.add_sub_cancel, canon, anti, hcos, hsin, rnFix_zero, rnFix_neg (pow_ne_zero _ two_ne_zero), rnFix_one]
    exact ⟨rfl, rfl⟩
  · have hhalf : 2 * 2 ^ (m - 1) = 2 ^ m := mul_pow_sub_one (by omega) 2
    have hlt : 2 * k < 2 ^ m := by omega
    refine ⟨fun h0 => ?_, ?_, fun h0 h4 => ?_, fun h3 h0 h4 => ?_, fun m' hm' => ?_, fun b hb => ?_⟩
    · rw [canon_eq h0 hlt, fneg_fneg, anti]
    · rintro rfl
      exact ⟨canon_zero f m, anti_zero f m⟩
    · have hsum : 2 * (k + (2 ^ (m - 1) - k)) = 2 ^ m := by omega
      rw [canon, canon, cosFix_halfTurn_sub hsum, sinFix_halfTurn_sub hsum, rnFix_neg (cosFix_ne_zero h4 hlt)]
    · have hquarter : 4 * 2 ^ (m - 2) = 2 ^ m := by
        rw [show 4 = 2 ^ 2 from rfl, ← pow_add, Nat.add_sub_cancel' (by omega)]
      have hsum : 4 * (k + (2 ^ (m - 2) - k)) = 2 ^ m := by omega
      have hsum' : 4 * (2 ^ (m - 2) - k + k) = 2 ^ m := by omega
      rw [canon_eq h0 hlt, canon_eq (by omega) (by omega), sinFix_quarterTurn_sub hsum, ← sinFix_quarterTurn_sub hsum',
        fneg_fneg]
    · obtain ⟨d, rfl⟩ := Nat.exists_eq_add_of_le hm'
      rw [Nat.add_sub_cancel_left, canon, canon, anti, anti, cosFix_subsample, sinFix_subsample]
      exact ⟨rfl, rfl⟩
    · have hcos := natAbs_cosFix_le m k
      have hsin : (sinFix m k).natAbs ≤ 2 ^ cosBits := natAbs_cosFix_le _ _
      have hneg : (-sinFix m k).natAbs ≤ 2 ^ cosBits := by rwa [Int.natAbs_neg]
      simp only [List.mem_cons, List.not_mem_nil, or_false] at hb
      rcases hb with rfl | rfl | rfl | rfl
      · exact magOf_rnFix_le hcos
      · exact magOf_rnFix_le hneg
      · exact magOf_rnFix_le hcos
      · exact magOf_rnFix_le hsin

end Sys2Proof.Machine
end

section
/-! PROOF. The computed twiddles against the exact ones (40_twiddle.md R143): the error of the half-angle steps, what it costs
after rounding, and that up to N = 16 it never reaches a rounding tie. -/

namespace Sys2Proof.Machine

/-! ### The exact angles -/

/-- The angle `k/2^m` of a turn. -/
noncomputable def turn (m k : Nat) : ℝ := 2 * Real.pi * k / 2 ^ m

theorem turn_eq_two_mul (m k : Nat) : turn m k = 2 * turn (m + 1) k := by
  rw [turn, turn, pow_succ]
  field_simp

theorem turn_zero (k : Nat) : turn 0 k = (2 * k : Nat) * Real.pi := by
  rw [turn, pow_zero, div_one, Nat.cast_mul, Nat.cast_ofNat]
  ring

theorem sin_turn_zero (k : Nat) : Real.sin (turn 0 k) = 0 := by rw [turn_zero, Real.sin_nat_mul_pi]

theorem cos_turn_mod (m k : Nat) : Real.cos (turn m (k % 2 ^ m)) = Real.cos (turn m k) := by
  have hdiv : (k : ℝ) = (k % 2 ^ m : Nat) + 2 ^ m * (k / 2 ^ m : Nat) := by
    exact_mod_cast (Nat.mod_add_div k (2 ^ m)).symm
  rw [← Real.cos_add_nat_mul_two_pi (turn m (k % 2 ^ m)) (k / 2 ^ m), turn, turn, hdiv]
  congr 1
  field_simp

/-- The cosine is not negative in the first and the last quarter. -/
theorem cos_turn_nonneg {m k : Nat} (h : InRightHalf m k) : 0 ≤ Real.cos (turn m k) := by
  have hpi := Real.pi_pos
  have hlt : ((k % 2 ^ m : Nat) : ℝ) < 2 ^ m := by exact_mod_cast Nat.mod_lt k (Nat.two_pow_pos m)
  rw [InRightHalf] at h
  rw [← cos_turn_mod]
  generalize k % 2 ^ m = a at *
  have hP : (0 : ℝ) < 2 ^ m := by positivity
  rcases h with h | h
  · have h' : (4 : ℝ) * a ≤ 2 ^ m := by exact_mod_cast h
    have hnonneg : 0 ≤ turn m a := by unfold turn; positivity
    have hle : turn m a ≤ Real.pi / 2 := by rw [turn, div_le_iff₀ hP]; nlinarith
    exact Real.cos_nonneg_of_neg_pi_div_two_le_of_le (by linarith) hle
  · have h' : (3 : ℝ) * 2 ^ m ≤ 4 * a := by exact_mod_cast h
    have hge : 3 * Real.pi / 2 ≤ turn m a := by rw [turn, le_div_iff₀ hP]; nlinarith
    have hle : turn m a ≤ 2 * Real.pi := by rw [turn, div_le_iff₀ hP]; nlinarith
    rw [← Real.cos_sub_two_pi]
    exact Real.cos_nonneg_of_neg_pi_div_two_le_of_le (by linarith) (by linarith)

/-- The cosine is not positive in the two quarters between. -/
theorem cos_turn_nonpos {m k : Nat} (h : ¬ InRightHalf m k) : Real.cos (turn m k) ≤ 0 := by
  have hpi := Real.pi_pos
  rw [InRightHalf, not_or, not_le, not_le] at h
  rw [← cos_turn_mod]
  generalize k % 2 ^ m = a at *
  obtain ⟨hlo, hhi⟩ := h
  have hP : (0 : ℝ) < 2 ^ m := by positivity
  have hlo' : (2 : ℝ) ^ m < 4 * a := by exact_mod_cast hlo
  have hhi' : (4 : ℝ) * a < 3 * 2 ^ m := by exact_mod_cast hhi
  have hge : Real.pi / 2 ≤ turn m a := by rw [turn, le_div_iff₀ hP]; nlinarith
  have hle : turn m a ≤ Real.pi + Real.pi / 2 := by rw [turn, div_le_iff₀ hP]; nlinarith
  exact Real.cos_nonpos_of_pi_div_two_le_of_le hge hle

/-- The sine of a turn's fraction is zero or not small: halving the angle at most halves it. -/
theorem sin_turn_lower (m k : Nat) : Real.sin (turn m k) = 0 ∨ 1 ≤ 2 ^ m * |Real.sin (turn m k)| := by
  induction m with
  | zero => exact .inl (sin_turn_zero k)
  | succ m ih =>
    rw [turn_eq_two_mul, Real.sin_two_mul, mul_eq_zero, mul_eq_zero] at ih
    rcases ih with ((h2 | hsin) | hcos) | hlow
    · exact absurd h2 two_ne_zero
    · exact .inl hsin
    · have hone : |Real.sin (turn (m + 1) k)| = 1 := by
        rw [Real.abs_sin_eq_sqrt_one_sub_cos_sq, hcos, zero_pow two_ne_zero, sub_zero, Real.sqrt_one]
      exact .inr (by rw [hone, mul_one]; exact one_le_pow₀ one_le_two)
    · refine .inr (hlow.trans ?_)
      rw [abs_mul, abs_mul, abs_two, pow_succ, mul_assoc, mul_assoc]
      gcongr
      exact mul_le_of_le_one_right (abs_nonneg _) (Real.abs_cos_le_one _)

/-! ### The error of the half-angle steps -/

theorem cast_halfAngle {c : Int} (hc : -2 ^ cosBits ≤ c) :
    (((2 ^ cosBits + c).toNat * 2 ^ (cosBits - 1) : Nat) : ℝ) = (2 ^ cosBits + c) * (2 ^ cosBits / 2) := by
  have htoNat : (((2 ^ cosBits + c).toNat : Int) : ℝ) = 2 ^ cosBits + c := by
    rw [Int.toNat_of_nonneg (by omega)]
    push_cast
    rfl
  have hhalf : (2 : ℝ) ^ cosBits / 2 = 2 ^ (cosBits - 1) := by
    rw [div_eq_iff two_ne_zero, pow_sub_one_mul (by decide)]
  rw [hhalf, Nat.cast_mul, ← htoNat, Int.cast_natCast, Nat.cast_pow, Nat.cast_ofNat]

/-- The root of a half-angle step against the exact cosine `C` of the half angle, whose sine is `S`: an error of `K` for each
unit of the sine stays one, since the step divides by the factor of `2·S·C` that the sine loses. -/
theorem sqrt_halfAngle_close {O c C S K : ℝ} (hO : 0 < O) (hK : 0 ≤ K) (hc : 0 ≤ O + c)
    (h : |c - O * (2 * C ^ 2 - 1)| ≤ K * |2 * S * C|) :
    |(√((O + c) * (O / 2)) - O * |C|)| ≤ K * |S| := by
  have hsq := Real.sq_sqrt (show 0 ≤ (O + c) * (O / 2) by positivity)
  have hroot := Real.sqrt_nonneg ((O + c) * (O / 2))
  by_cases hC : C = 0
  · have hzero : O + c = 0 := by
      rw [hC, mul_zero, abs_zero, mul_zero, abs_nonpos_iff] at h
      linarith
    rw [hzero, zero_mul, Real.sqrt_zero, hC, abs_zero, mul_zero, sub_zero, abs_zero]
    positivity
  · generalize √((O + c) * (O / 2)) = R at *
    have hCpos := abs_pos.mpr hC
    have hfactor : (R - O * |C|) * (R + O * |C|) = O / 2 * (c - O * (2 * C ^ 2 - 1)) := by
      rw [← sq_abs C]
      linear_combination hsq
    have habs : |(R - O * |C|)| * (R + O * |C|) = O / 2 * |c - O * (2 * C ^ 2 - 1)| := by
      rw [← abs_of_nonneg (show 0 ≤ R + O * |C| by positivity), ← abs_mul, hfactor, abs_mul,
        abs_of_pos (half_pos hO)]
    refine le_of_mul_le_mul_right ?_ (mul_pos hO hCpos)
    calc |(R - O * |C|)| * (O * |C|) ≤ |(R - O * |C|)| * (R + O * |C|) := by gcongr; linarith
      _ = O / 2 * |c - O * (2 * C ^ 2 - 1)| := habs
      _ ≤ O / 2 * (K * |2 * S * C|) := by gcongr
      _ = K * |S| * (O * |C|) := by rw [abs_mul, abs_mul, abs_two]; ring

theorem halfRoot_close {c : Int} {C S K : ℝ} (hc : -2 ^ cosBits ≤ c) (hK : 0 ≤ K)
    (h : |(c : ℝ) - 2 ^ cosBits * (2 * C ^ 2 - 1)| ≤ K * |2 * S * C|) :
    |((halfRoot c : ℝ) - 2 ^ cosBits * |C|)| ≤ K * |S| + 1 := by
  have hc' : (0 : ℝ) ≤ 2 ^ cosBits + c := by exact_mod_cast (show 0 ≤ 2 ^ cosBits + c by omega)
  have hexact := sqrt_halfAngle_close (by positivity) hK hc' h
  rw [← cast_halfAngle hc] at hexact
  have hlow := Real.nat_sqrt_le_real_sqrt (a := (2 ^ cosBits + c).toNat * 2 ^ (cosBits - 1))
  have hhigh := Real.real_sqrt_le_nat_sqrt_succ (a := (2 ^ cosBits + c).toNat * 2 ^ (cosBits - 1))
  rw [← halfRoot] at hlow hhigh
  rw [abs_le] at *
  constructor <;> linarith

/-- A half-angle step from the exact 1 to an angle whose sine is zero is exact. -/
theorem halfRoot_exact {c : Int} {x : ℝ} (hsin : Real.sin x = 0)
    (h : |(c : ℝ) - 2 ^ cosBits * (2 * Real.cos x ^ 2 - 1)| ≤ 0) : (halfRoot c : ℝ) = 2 ^ cosBits * |Real.cos x| := by
  have hcos : |Real.cos x| = 1 := by
    rw [Real.abs_cos_eq_sqrt_one_sub_sin_sq, hsin, zero_pow two_ne_zero, sub_zero, Real.sqrt_one]
  rw [← sq_abs (Real.cos x), hcos, abs_nonpos_iff] at h
  have hone : c = 2 ^ cosBits := by
    have : (c : ℝ) = 2 ^ cosBits := by linarith
    exact_mod_cast this
  rw [hone, halfRoot_one, hcos, mul_one, Nat.cast_pow, Nat.cast_ofNat]

/-- The computed cosine is off by at most `2^(m+1)` units of `2^-256` for each unit of the sine, so it is exact where the sine
is zero. -/
theorem cosFix_close (m k : Nat) :
    |(cosFix m k : ℝ) - 2 ^ cosBits * Real.cos (turn m k)| ≤ 2 ^ (m + 1) * |Real.sin (turn m k)| := by
  induction m with
  | zero =>
    have h := cos_turn_mod 0 k
    rw [pow_zero, Nat.mod_one, turn, Nat.cast_zero, mul_zero, zero_div, Real.cos_zero] at h
    rw [cosFix_zero, ← h]
    simp
  | succ m ih =>
    have hbound := natAbs_cosFix_le m k
    have hone := natCast_two_pow_cosBits
    rw [turn_eq_two_mul, Real.cos_two_mul, Real.sin_two_mul] at ih
    have hroot : |((halfRoot (cosFix m k) : ℝ) - 2 ^ cosBits * |Real.cos (turn (m + 1) k)|)|
        ≤ 2 ^ (m + 2) * |Real.sin (turn (m + 1) k)| := by
      rcases sin_turn_lower (m + 1) k with hsin | hlow
      · rw [hsin, mul_zero, zero_mul, abs_zero, mul_zero] at ih
        rw [halfRoot_exact hsin ih, sub_self, abs_zero]
        positivity
      · refine (halfRoot_close (by omega) (by positivity) ih).trans ?_
        rw [pow_succ 2 (m + 1)]
        linarith
    rw [cosFix_succ]
    split
    · rename_i hright
      rw [abs_of_nonneg (cos_turn_nonneg hright)] at hroot
      exact_mod_cast hroot
    · rename_i hleft
      rw [abs_of_nonpos (cos_turn_nonpos hleft), ← abs_neg] at hroot
      push_cast
      convert hroot using 2
      ring

/-- The fixed-point number `c` is within `2^19` units of `2^-256` of the exact value `r`. -/
def Near (c : Int) (r : ℝ) : Prop := |(c : ℝ) - 2 ^ cosBits * r| ≤ 2 ^ 19

theorem Near.neg {c : Int} {r : ℝ} (h : Near c r) : Near (-c) (-r) := by
  rw [Near, ← abs_neg] at h
  rw [Near, Int.cast_neg]
  convert h using 2
  ring

theorem cosFix_near {m : Nat} (hm : m ≤ 18) (k : Nat) : Near (cosFix m k) (Real.cos (turn m k)) := by
  refine (cosFix_close m k).trans ?_
  calc (2 : ℝ) ^ (m + 1) * |Real.sin (turn m k)| ≤ 2 ^ (m + 1) * 1 := by gcongr; exact Real.abs_sin_le_one _
    _ ≤ 2 ^ 19 := by rw [mul_one]; exact pow_le_pow_right₀ one_le_two (by omega)

theorem cos_turn_sinFix (m k : Nat) : Real.cos (turn (m + 2) (4 * k + 3 * 2 ^ m)) = Real.sin (turn m k) := by
  have h : turn (m + 2) (4 * k + 3 * 2 ^ m) = turn m k - Real.pi / 2 + 2 * Real.pi := by
    rw [turn, turn, pow_add]
    push_cast
    field_simp
    ring
  rw [h, Real.cos_add_two_pi, Real.cos_sub_pi_div_two]

theorem sinFix_near {m : Nat} (hm : m ≤ 16) (k : Nat) : Near (sinFix m k) (Real.sin (turn m k)) := by
  rw [sinFix, ← cos_turn_sinFix]
  exact cosFix_near (by omega) _

/-! ### Rounding (R143) -/

section Rounding

variable {f : SampleFmt} {c : Int} {r : ℝ}

theorem cast_eq_signed (c : Int) : (c : ℝ) = signed (decide (c < 0)) c.natAbs := by
  rw [Nat.cast_natAbs, signed]
  split
  · rename_i h
    rw [abs_of_neg (of_decide_eq_true h)]
    simp
  · rename_i h
    rw [abs_of_nonneg (by simpa using h)]

/-- The pattern of a fixed-point number `c` is a number `r` of its sign rounded once, where both lie on the same side of
every tie. -/
theorem isRounded_rnFix_of_sameSide (hc : c ≠ 0) (hsign : r = signed (decide (c < 0)) |r|)
    (h : SameSide f (c.natAbs * 2 ^ unitExp f) (2 ^ cosBits) (|r| * 2 ^ unitExp f)) : IsRounded f r (rnFix f c) := by
  have hround := isRounded_roundComp (decide (c < 0)) (Nat.two_pow_pos cosBits) h (by positivity)
  rwa [← signed_mul, ← hsign, mul_div_cancel_right₀ r (by positivity), ← rnFix_of_ne_zero hc] at hround

/-- A fixed-point number is rounded once (R27, R143). -/
theorem isRounded_rnFix (f : SampleFmt) (c : Int) : IsRounded f (c / 2 ^ cosBits) (rnFix f c) := by
  by_cases hc : c = 0
  · have h := isRounded_packComp_zero f false
    rw [hc, rnFix_zero, Int.cast_zero, zero_div]
    exact h
  · have habs : |(c : ℝ) / 2 ^ cosBits| = c.natAbs / 2 ^ cosBits := by
      rw [abs_div, abs_of_pos (show (0 : ℝ) < 2 ^ cosBits by positivity), Nat.cast_natAbs, Int.cast_abs]
    refine isRounded_rnFix_of_sameSide hc ?_ ?_
    · rw [habs, ← signed_div, ← cast_eq_signed]
    · have h := sameSide_div f (c.natAbs * 2 ^ unitExp f) (Nat.two_pow_pos cosBits)
      rw [habs, div_mul_eq_mul_div]
      exact_mod_cast h

theorem abs_sub_div_le (hnear : Near c r) : |r - c / 2 ^ cosBits| ≤ 2 ^ 19 / 2 ^ cosBits := by
  have hO : (0 : ℝ) < 2 ^ cosBits := by positivity
  rw [le_div_iff₀ hO, ← abs_of_pos hO, ← abs_mul, sub_mul, abs_of_pos hO, div_mul_cancel₀ _ hO.ne', abs_sub_comm,
    mul_comm r]
  exact hnear

/-- A table component is as near the exact value as any, up to twice the error of the number it rounds. -/
theorem rnFix_nearest (hle : c.natAbs ≤ 2 ^ cosBits) (hnear : Near c r) {z : Comp f}
    (hz : isFinite z = true) : |r - compVal (rnFix f c)| ≤ |r - compVal z| + 1 / 2 ^ 100 := by
  have hone : |(c : ℝ) / 2 ^ cosBits| ≤ 1 := by
    rw [abs_div, abs_of_pos (show (0 : ℝ) < 2 ^ cosBits by positivity), div_le_one (by positivity), ← Int.cast_abs,
      ← Nat.cast_natAbs]
    exact_mod_cast hle
  have hrange : ¬ overflowAt f ≤ |(c : ℝ) / 2 ^ cosBits| :=
    not_le.mpr (hone.trans_lt ((one_le_pow₀ one_le_two).trans_lt (two_pow_sixteen_lt_overflowAt f)))
  have hround := isRounded_rnFix f c
  rw [IsRounded, if_neg hrange] at hround
  obtain ⟨-, hnearest, -⟩ := hround
  have herr := abs_sub_div_le hnear
  have htiny : 2 * ((2 : ℝ) ^ 19 / 2 ^ cosBits) ≤ 1 / 2 ^ 100 := by
    rw [cosBits]
    norm_num
  calc |r - compVal (rnFix f c)| ≤ |r - c / 2 ^ cosBits| + |c / 2 ^ cosBits - compVal (rnFix f c)| := abs_sub_le _ _ _
    _ ≤ |r - c / 2 ^ cosBits| + |c / 2 ^ cosBits - compVal z| := by linarith [hnearest z hz]
    _ ≤ |r - c / 2 ^ cosBits| + (|c / 2 ^ cosBits - r| + |r - compVal z|) := by
      linarith [abs_sub_le (c / 2 ^ cosBits : ℝ) r (compVal z)]
    _ ≤ |r - compVal z| + 1 / 2 ^ 100 := by rw [abs_sub_comm (c / 2 ^ cosBits : ℝ)]; linarith

end Rounding

/-- Settles O17: the computed numbers are within `2^19` units of the exact ones, and rounding takes the nearest component. -/
theorem twiddlesAreNearestUpToATinyError : Obligations.TwiddlesAreNearestUpToATinyError := by
  intro f m k _ hm _ z hz
  have hcos := cosFix_near (by omega : m ≤ 18) k
  have hsin := sinFix_near hm k
  exact ⟨rnFix_nearest (natAbs_cosFix_le m k) hcos hz,
    rnFix_nearest (by rw [Int.natAbs_neg]; exact natAbs_cosFix_le _ _) hsin.neg hz,
    rnFix_nearest (natAbs_cosFix_le m k) hcos hz, rnFix_nearest (natAbs_cosFix_le _ _) hsin hz⟩

/-! ### Rounding ties (R143) -/

/-- The step between the halves of granules that `roundMag` rounds `num / den` over, scaled as `2 * num` (R21). -/
def tieStep (f : SampleFmt) (num den : Nat) : Nat := den * 2 ^ roundShift f num den

/-- No multiple of half a granule, so no tie, lies within `E` of `2 * num`. -/
abbrev ClearOfTies (f : SampleFmt) (num den E : Nat) : Prop :=
  E < 2 * num % tieStep f num den ∧ 2 * num % tieStep f num den + E < tieStep f num den

/-- A number that near to one clear of ties is on the same side of every tie. -/
theorem ClearOfTies.sameSide {f : SampleFmt} {num den E : Nat} {v : ℝ} (h : ClearOfTies f num den E)
    (hnear : |2 * (num : ℝ) - den * (2 * v)| ≤ E) : SameSide f num den v := by
  intro t
  obtain ⟨hlow, hhigh⟩ := h
  have hdiv := Nat.div_add_mod (2 * num) (tieStep f num den)
  have hden : 0 < den := Nat.pos_of_ne_zero fun h => by rw [tieStep, h, Nat.zero_mul] at hhigh; omega
  have hden' : (0 : ℝ) < den := Nat.cast_pos.mpr hden
  have hscale : (den : ℝ) * (t * 2 ^ roundShift f num den : Nat) = (t * tieStep f num den : Nat) := by
    rw [tieStep]
    push_cast
    ring
  rw [← mul_le_mul_iff_right₀ hden', ← mul_le_mul_iff_right₀ hden' (b := 2 * v), hscale, ← tieStep]
  obtain ⟨hl, hh⟩ := abs_le.mp hnear
  generalize tieStep f num den = g at *
  rcases Nat.lt_or_ge (2 * num / g) t with ht | ht
  · have hfar : 2 * num + E < t * g := by
      have := Nat.mul_le_mul_right g (show 2 * num / g + 1 ≤ t from ht)
      rw [Nat.add_mul, Nat.one_mul, Nat.mul_comm] at this
      omega
    have hfar' : 2 * (num : ℝ) + E < (t * g : Nat) := by exact_mod_cast hfar
    exact ⟨iff_of_false (by linarith) (by omega), iff_of_true (by linarith) (by omega)⟩
  · have hfar : t * g + E < 2 * num := by
      have := Nat.mul_le_mul_right g ht
      rw [Nat.mul_comm (2 * num / g)] at this
      omega
    have hfar' : ((t * g : Nat) : ℝ) + E < 2 * num := by exact_mod_cast hfar
    exact ⟨iff_of_true (by linarith) (by omega), iff_of_false (by linarith) (by omega)⟩

/-- No rounding tie is `Near` the fixed-point number of magnitude `n`. -/
abbrev FixClearOfTies (f : SampleFmt) (n : Nat) : Prop :=
  ClearOfTies f (n * 2 ^ unitExp f) (2 ^ cosBits) (2 ^ 20 * 2 ^ unitExp f)

section Ties

variable {f : SampleFmt} {c : Int} {r : ℝ}

theorem lt_of_fixClearOfTies {n : Nat} (h : FixClearOfTies f n) : 2 ^ 19 < n := by
  have hle := h.1.trans_le (Nat.mod_le _ _)
  rw [← Nat.mul_assoc, Nat.mul_lt_mul_right (Nat.two_pow_pos _)] at hle
  omega

/-- The exact value near a number clear of ties has its sign. -/
theorem eq_signed_of_near (hlt : 2 ^ 19 < c.natAbs) (hnear : Near c r) :
    r = signed (decide (c < 0)) |r| := by
  have hO : (0 : ℝ) < 2 ^ cosBits := by positivity
  obtain ⟨hl, hh⟩ := abs_le.mp hnear
  rw [signed]
  split
  · rename_i hneg
    have hc : (c : ℝ) < -2 ^ 19 := by
      have : c < -2 ^ 19 := by have := of_decide_eq_true hneg; omega
      exact_mod_cast this
    rw [abs_of_neg (neg_of_mul_neg_right (by linarith : 2 ^ cosBits * r < 0) hO.le), neg_neg]
  · rename_i hpos
    have hc : 2 ^ 19 < (c : ℝ) := by
      have : 2 ^ 19 < c := by simp only [decide_eq_true_eq] at hpos; omega
      exact_mod_cast this
    rw [abs_of_pos (pos_of_mul_pos_right (by linarith : 0 < 2 ^ cosBits * r) hO.le)]

/-- The pattern of a number that is exact or clear of ties is the exact value rounded once. -/
theorem isRounded_rnFix_of_clear (hnear : Near c r)
    (h : (c : ℝ) = 2 ^ cosBits * r ∨ FixClearOfTies f c.natAbs) : IsRounded f r (rnFix f c) := by
  rcases h with hexact | hclear
  · have hround := isRounded_rnFix f c
    rwa [hexact, mul_div_cancel_left₀ r (by positivity)] at hround
  · have hlt := lt_of_fixClearOfTies hclear
    refine isRounded_rnFix_of_sameSide (fun h0 => by simp [h0] at hlt) (eq_signed_of_near hlt hnear)
      (hclear.sameSide ?_)
    have hdist := (abs_abs_sub_abs_le (c : ℝ) (2 ^ cosBits * r)).trans hnear
    rw [abs_mul, abs_of_pos (show (0 : ℝ) < 2 ^ cosBits by positivity), ← Int.cast_abs, ← Nat.cast_natAbs] at hdist
    have hscale : 2 * ((c.natAbs * 2 ^ unitExp f : Nat) : ℝ) - (2 ^ cosBits : Nat) * (2 * (|r| * 2 ^ unitExp f))
        = 2 * 2 ^ unitExp f * (c.natAbs - 2 ^ cosBits * |r|) := by
      rw [Nat.cast_mul, Nat.cast_pow, Nat.cast_pow, Nat.cast_ofNat]
      ring
    rw [hscale, abs_mul, abs_of_pos (show (0 : ℝ) < 2 * 2 ^ unitExp f by positivity)]
    calc 2 * 2 ^ unitExp f * |(c.natAbs - 2 ^ cosBits * |r|)| ≤ 2 * 2 ^ unitExp f * 2 ^ 19 := by gcongr
      _ = (2 ^ 20 * 2 ^ unitExp f : Nat) := by push_cast; ring

end Ties

/-! ### The exact quarter turns -/

theorem sin_or_cos_turn_eq_zero {m k : Nat} (h : 2 ^ m ∣ 4 * k) :
    Real.sin (turn m k) = 0 ∨ Real.cos (turn m k) = 0 := by
  obtain ⟨j, hj⟩ := h
  have hangle : 2 * turn m k = j * Real.pi := by
    have hj' : (4 : ℝ) * k = 2 ^ m * j := by exact_mod_cast hj
    rw [turn, mul_div_assoc', div_eq_iff (by positivity)]
    linear_combination Real.pi * hj'
  have hsin := Real.sin_nat_mul_pi j
  rw [← hangle, Real.sin_two_mul, mul_eq_zero, mul_eq_zero] at hsin
  rcases hsin with (h2 | hs) | hc
  · exact absurd h2 two_ne_zero
  · exact .inl hs
  · exact .inr hc

/-- At the quarter turns the computed cosine is exact. -/
theorem cosFix_exact {m k : Nat} (h : 2 ^ m ∣ 4 * k) : (cosFix m k : ℝ) = 2 ^ cosBits * Real.cos (turn m k) := by
  have hclose : ∀ n, Real.sin (turn n k) = 0 → (cosFix n k : ℝ) = 2 ^ cosBits * Real.cos (turn n k) := by
    intro n hsin
    have hle := cosFix_close n k
    rw [hsin, abs_zero, mul_zero, abs_nonpos_iff] at hle
    linarith
  rcases sin_or_cos_turn_eq_zero h with hsin | hcos
  · exact hclose m hsin
  · cases m with
    | zero => exact hclose 0 (sin_turn_zero k)
    | succ m =>
      have hsin : Real.sin (turn m k) = 0 := by rw [turn_eq_two_mul, Real.sin_two_mul, hcos, mul_zero]
      have hhalf := hclose m hsin
      rw [turn_eq_two_mul, Real.cos_two_mul, hcos, zero_pow two_ne_zero, mul_zero, zero_sub, mul_neg_one] at hhalf
      have hneg : cosFix m k = -2 ^ cosBits := by exact_mod_cast hhalf
      have hzero : cosFix (m + 1) k = 0 := by
        rw [← Int.natAbs_eq_zero, natAbs_cosFix_succ, hneg, halfRoot_negOne]
      rw [hzero, hcos, Int.cast_zero, mul_zero]

/-- A computed cosine that rounding cannot get wrong: at a quarter turn, or clear of ties. -/
abbrev RoundingCertain (f : SampleFmt) (m k : Nat) : Prop := 2 ^ m ∣ 4 * k ∨ FixClearOfTies f (cosFix m k).natAbs

/-- Up to N = 16 every cosine and every sine is certain to round correctly. -/
theorem roundingCertain_to_sixteen (f : SampleFmt) :
    ∀ m < 5, ∀ k < 2 ^ (m - 1), RoundingCertain f m k ∧ RoundingCertain f (m + 2) (4 * k + 3 * 2 ^ m) := by
  cases f
  · decide +kernel
  · decide +kernel

/-! ### The components of the table -/

theorem isRounded_cosFix {f : SampleFmt} {m k : Nat} (hm : m ≤ 18) (h : RoundingCertain f m k) :
    IsRounded f (Real.cos (turn m k)) (rnFix f (cosFix m k)) :=
  isRounded_rnFix_of_clear (cosFix_near hm k) (h.imp_left cosFix_exact)

theorem isRounded_sinFix {f : SampleFmt} {m k : Nat} (hm : m ≤ 16) (h : RoundingCertain f (m + 2) (4 * k + 3 * 2 ^ m)) :
    IsRounded f (Real.sin (turn m k)) (rnFix f (sinFix m k)) := by
  rw [← cos_turn_sinFix]
  exact isRounded_cosFix (by omega) h

theorem isRounded_neg_sinFix {f : SampleFmt} {m k : Nat} (hm : m ≤ 16)
    (h : RoundingCertain f (m + 2) (4 * k + 3 * 2 ^ m)) :
    IsRounded f (-Real.sin (turn m k)) (rnFix f (-sinFix m k)) := by
  refine isRounded_rnFix_of_clear (sinFix_near hm k).neg (h.imp (fun hq => ?_) (fun hc => ?_))
  · rw [Int.cast_neg, mul_neg, ← cos_turn_sinFix, ← cosFix_exact hq, sinFix]
  · rwa [Int.natAbs_neg]

/-- Settles O16: each value is exact or clear of ties, so the exact value rounds as the computed one. -/
theorem twiddlesToSixteenAreCorrectlyRounded : Obligations.TwiddlesToSixteenAreCorrectlyRounded := by
  intro f m k _ hm hk
  obtain ⟨hcos, hsin⟩ := roundingCertain_to_sixteen f m (by omega) k hk
  exact ⟨isRounded_cosFix (by omega) hcos, isRounded_neg_sinFix (by omega) hsin, isRounded_cosFix (by omega) hcos,
    isRounded_sinFix (by omega) hsin⟩

end Sys2Proof.Machine
end

section
/-! PROOF. The load stage and the bit reversal (41_permute.md R160 to R165): what a loop that fills an array leaves, where each
entry of a bit reversal comes from, and that two of them cancel. -/

namespace Sys2Proof.Machine

/-! ### What a command leaves around its result -/

/-- The frame of a command whose effect is a stage: what it does not write below entry N (R236). -/
theorem StageStep.transformFrame {s t : State} (h : StageStep s t) : TransformFrame s (t.finish .ok) := by
  obtain ⟨hwrites, hrest⟩ := h
  refine ⟨?_, ?_, ?_, hwrites.outside⟩ <;> rw [hrest] <;> constructor <;> rfl

/-! ### Loading commands (R160 to R162) -/

section Load

variable {s : State} {i : Instr}

theorem validate_of_isLoading (hi : isLoading i = true) : s.validate i = s.checkLoading := by
  cases i with
  | configure | bitrev | butterflyFwd | butterflyInv | scaleInv => cases hi
  | forward | inverse | realForward | realSpectrum | inverseReal | loadComplex | loadReal => rfl

theorem checkLoading_of_oversize (hc : s.configured = true) (hlt : s.n < s.lin) (hr : s.latch.reject = true) :
    s.checkLoading = .sizeMismatch := by
  simp [State.checkLoading, hc, hlt, hr]

theorem loadErrors_of_isLoading (hi : isLoading i = true) : LoadErrors i s :=
  ⟨fun hc => failsWith_of_validate ((validate_of_isLoading hi).trans (by simp [State.checkLoading, hc])) (by decide),
    fun hc hlt hr =>
      failsWith_of_validate ((validate_of_isLoading hi).trans (checkLoading_of_oversize hc hlt hr)) (by decide)⟩

end Load

/-- A loop whose body `i` sets entry `i` to `x i` leaves the array `x`. -/
theorem forUpTo_fills {f : SampleFmt} {n : Nat} {body : Nat → Memory → Except Fault Memory} {x : Nat → Entry f}
    (w : Memory) (h : ∀ i y, i < n → body i y = .ok (y.writeEntry f i (x i))) :
    ∃ w', forUpTo n body w = .ok w' ∧ w'.IsArray f n x := by
  refine forUpTo_total (fun i (y : Memory) => y.IsArray f i x) (fun i hi => absurd hi (Nat.not_lt_zero i))
    (fun i y hi hy => ⟨_, h i y hi, fun j hj => ?_⟩)
  rcases Nat.lt_succ_iff_lt_or_eq.mp hj with hlt | rfl
  · rw [readEntry_writeEntry_ne _ _ (by omega), hy j hlt]
  · exact readEntry_writeEntry_self _ _ _ _

/-- A load that reads entry `i` of the input in body `i` leaves what it reads, padded (R160, R162). -/
theorem loadLoop_total {β : Type} {f : SampleFmt} {n count : Nat} {read : Nat → Except Fault β} {entry : β → Entry f}
    {x : Nat → β} (w : Memory) (h : ∀ i, i < count → read i = .ok (x i)) :
    ∃ w', forUpTo n (fun i y => if i < count then (read i).map (fun v => y.writeEntry f i (entry v))
        else .ok (y.writeEntry f i (zeroEntry f))) w = .ok w' ∧
      w'.IsArray f n (padded count fun i => entry (x i)) := by
  refine forUpTo_fills w fun i y _ => ?_
  by_cases hi : i < count
  · rw [if_pos hi, h i hi, padded, if_pos hi]
    rfl
  · rw [if_neg hi, padded, if_neg hi]

theorem loadComplexLoop_total {f : SampleFmt} {n count : Nat} {inp : Memory} {x : Nat → Entry f} (w : Memory)
    (h : inp.IsArray f count x) :
    ∃ w', loadComplexLoop f n count inp w = .ok w' ∧ w'.IsArray f n (padded count x) :=
  loadLoop_total (entry := id) w fun i hi => useEntry_eq_ok.mpr (h i hi)

theorem loadRealLoop_total {f : SampleFmt} {n count : Nat} {inp : Memory} {x : Nat → Comp f} (w : Memory)
    (h : inp.IsRealArray f count x) :
    ∃ w', loadRealLoop f n count inp w = .ok w' ∧ w'.IsArray f n (padded count (promoted x)) :=
  loadLoop_total (entry := fun v => ⟨v, posZero f⟩) w fun i hi => useRe_eq_ok.mpr (h i hi)

/-! ### Bit reversal (R163) -/

section BitRev

variable {f : SampleFmt} {m : Nat} {w w' : Memory}

/-- Where entry `j` comes from once the first `i` bodies of the bit reversal have run: the pair of `j` is swapped at its lower
position. -/
def revSource (m i j : Nat) : Nat := if min j (rev m j) < i then rev m j else j

theorem revSource_zero (m j : Nat) : revSource m 0 j = j := if_neg (Nat.not_lt_zero _)

theorem revSource_all {j : Nat} (hj : j < 2 ^ m) : revSource m (2 ^ m) j = rev m j :=
  if_pos (lt_of_le_of_lt (min_le_left _ _) hj)

/-- Body `i` changes the source of a position only where it is the lower of a pair: there it swaps the two. -/
theorem revSource_succ {i j : Nat} (hj : j < 2 ^ m) (h : i < rev m i → j ≠ i ∧ j ≠ rev m i) :
    revSource m (i + 1) j = revSource m i j := by
  unfold revSource
  rcases lt_trichotomy j (rev m j) with hlt | hfixed | hgt
  · have hji : j ≠ i := by
      rintro rfl
      exact (h hlt).1 rfl
    rw [min_eq_left hlt.le]
    simp only [show j < i + 1 ↔ j < i by omega]
  · simp only [← hfixed, ite_self]
  · have hri : rev m j ≠ i := by
      rintro rfl
      rw [rev_rev hj] at h
      exact (h hgt).2 rfl
    rw [min_eq_right hgt.le]
    simp only [show rev m j < i + 1 ↔ rev m j < i by omega]

/-- Every entry of `y` is the entry of `w` it comes from after `i` bodies. -/
def ReversedUpTo (f : SampleFmt) (m i : Nat) (w y : Memory) : Prop :=
  ∀ j, j < 2 ^ m → y.readEntry f j = w.readEntry f (revSource m i j)

/-- The swap of body `i`. -/
theorem ReversedUpTo.swap {i : Nat} {y : Memory} (hy : ReversedUpTo f m i w y) (hi : i < 2 ^ m) (hlt : i < rev m i)
    (hfst : (w.readEntry f i).isSome = true) (hsnd : (w.readEntry f (rev m i)).isSome = true) :
    ∃ y', swapEntries f y i (rev m i) = .ok y' ∧ ReversedUpTo f m (i + 1) w y' := by
  have hrr := rev_rev hi
  obtain ⟨a, ha⟩ := Option.isSome_iff_exists.mp hfst
  obtain ⟨b, hb⟩ := Option.isSome_iff_exists.mp hsnd
  have hyi : y.readEntry f i = some a := by rw [hy i hi, revSource, if_neg (by omega), ha]
  have hyr : y.readEntry f (rev m i) = some b := by rw [hy _ (rev_lt m i), revSource, if_neg (by omega), hb]
  refine ⟨_, swapEntries_ok.mpr ⟨a, b, hyi, hyr, rfl⟩, fun j hj => ?_⟩
  by_cases hjr : j = rev m i
  · rw [hjr, readEntry_writeEntry_self, revSource, hrr, if_pos (by omega), ha]
  · rw [readEntry_writeEntry_ne _ _ hjr]
    by_cases hji : j = i
    · rw [hji, readEntry_writeEntry_self, revSource, if_pos (by omega), hb]
    · rw [readEntry_writeEntry_ne _ _ hji, revSource_succ hj fun _ => ⟨hji, hjr⟩, hy j hj]

/-- The bit reversal answers where the entries it swaps hold values, and moves the entry at `i` to `rev i` (R163). -/
theorem bitRevLoop_total (h : ∀ i, i < 2 ^ m → rev m i ≠ i → (w.readEntry f i).isSome = true) :
    ∃ w', bitRevLoop f (2 ^ m) m w = .ok w' ∧ ∀ i, i < 2 ^ m → w'.readEntry f (rev m i) = w.readEntry f i := by
  have hbody : ∀ i y, i < 2 ^ m → ReversedUpTo f m i w y →
      ∃ y', (if i < rev m i then swapEntries f y i (rev m i) else .ok y) = .ok y' ∧ ReversedUpTo f m (i + 1) w y' := by
    intro i y hi hy
    by_cases hlt : i < rev m i
    · rw [if_pos hlt]
      have hback : rev m (rev m i) ≠ rev m i := by
        rw [rev_rev hi]
        exact hlt.ne
      exact hy.swap hi hlt (h i hi hlt.ne') (h _ (rev_lt m i) hback)
    · refine ⟨y, if_neg hlt, fun j hj => ?_⟩
      rw [revSource_succ hj fun hswap => absurd hswap hlt, hy j hj]
  obtain ⟨w', hw', hsource⟩ := forUpTo_total (ReversedUpTo f m · w) (fun j _ => by rw [revSource_zero]) hbody
  refine ⟨w', hw', fun i hi => ?_⟩
  rw [hsource _ (rev_lt m i), revSource_all (rev_lt m i), rev_rev hi]

/-! ### Two bit reversals (R165) -/

theorem agreeOn_refl (e : Nat) (m : Memory) : AgreeOn f e m m := fun _ _ _ => rfl

theorem AgreeOn.trans {e : Nat} {m m' m'' : Memory} (h : AgreeOn f e m m') (h' : AgreeOn f e m' m'') :
    AgreeOn f e m m'' := fun a h1 h2 => (h a h1 h2).trans (h' a h1 h2)

/-- A write of another entry leaves every byte of entry `e`. -/
theorem agreeOn_writeEntry_ne {e k : Nat} (m : Memory) (v : Entry f) (hk : k ≠ e) :
    AgreeOn f e m (m.writeEntry f k v) := by
  intro a h1 h2
  refine (readByte_writeEntry_of_outside m v ?_).symm
  rcases Nat.lt_or_gt_of_ne hk with hlt | hgt
  · exact .inr ((entryOffset_mono hlt).trans h1)
  · exact .inl (h2.trans_le (entryOffset_mono hgt))

/-- Canonical memories that agree on every entry are equal: every byte lies in an entry (R82). -/
theorem memory_ext_of_agreeOn {m m' : Memory} (h : m.wf) (h' : m'.wf) (he : ∀ e, AgreeOn f e m m') : m = m' :=
  memory_ext h h' fun a => he (a / f.entryBytes) a (Nat.div_mul_le_self _ _)
    ((Nat.div_lt_iff_lt_mul (entryBytes_pos f)).mp (Nat.lt_succ_self _))

/-- An entry that is its own reversal is not touched, whether it holds a value or not (R163). -/
theorem bitRevLoop_agreeOn_fixed {n e : Nat} (h : bitRevLoop f n m w = .ok w') (hn : n ≤ 2 ^ m) (he : rev m e = e) :
    AgreeOn f e w w' := by
  refine forUpTo_inv (fun _ y => AgreeOn f e w y) h (agreeOn_refl e w) fun i y y' hi hy hb => ?_
  by_cases hlt : i < rev m i
  · rw [if_pos hlt] at hb
    obtain ⟨a, b, -, -, rfl⟩ := swapEntries_ok.mp hb
    have hie : i ≠ e := by
      rintro rfl
      omega
    have hre : rev m i ≠ e := by
      rintro rfl
      rw [rev_rev (hi.trans_le hn)] at he
      omega
    exact (hy.trans (agreeOn_writeEntry_ne y b hie)).trans (agreeOn_writeEntry_ne _ a hre)
  · rw [if_neg hlt] at hb
    cases hb
    exact hy

/-- Two bit reversals cancel, on the bytes of a canonical memory (R165): a moved entry comes back with its value, and no other
byte is touched. -/
theorem bitRevLoop_twice (hwf : w.wf) (h : ∀ i, i < 2 ^ m → rev m i ≠ i → (w.readEntry f i).isSome = true) :
    ∃ w', bitRevLoop f (2 ^ m) m w = .ok w' ∧ bitRevLoop f (2 ^ m) m w' = .ok w := by
  obtain ⟨w', hw', hmove⟩ := bitRevLoop_total h
  obtain ⟨w'', hw'', hback⟩ := bitRevLoop_total (f := f) (m := m) (w := w') fun i hi hne => by
    have hrr := rev_rev hi
    rw [← hrr, hmove _ (rev_lt m i)]
    exact h _ (rev_lt m i) (by rw [hrr]; exact hne.symm)
  have hwrites := (bitRevLoop_writes le_rfl hw').trans (bitRevLoop_writes le_rfl hw'')
  have hsame : w'' = w := memory_ext_of_agreeOn (f := f) (hwrites.wf hwf) hwf fun e a h1 h2 => by
    rcases Nat.lt_or_ge e (2 ^ m) with he | he
    · by_cases hfix : rev m e = e
      · exact (((bitRevLoop_agreeOn_fixed hw' le_rfl hfix).trans
          (bitRevLoop_agreeOn_fixed hw'' le_rfl hfix)) a h1 h2).symm
      · obtain ⟨v, hv⟩ := Option.isSome_iff_exists.mp (h e he hfix)
        have hv'' : w''.readEntry f e = some v := by
          rw [← hv, ← hmove e he, ← hback _ (rev_lt m e), rev_rev he]
        exact agreeOn_of_readEntry hv'' hv a h1 h2
    · exact hwrites.outside a ((entryOffset_mono he).trans h1)
  exact ⟨w', hw', hsame ▸ hw''⟩

end BitRev

/-- BITREV on a configured block completes where its loop answers, with the WORK the loop leaves (R164). -/
theorem exec_bitrev_next {s : State} {w : Memory} (hc : s.configured = true)
    (h : bitRevLoop s.cfg.fmt s.n s.log2n s.workMem = .ok w) :
    exec .bitrev s = .next (((s.withWork w).withOutLen s.n).finish .ok) :=
  exec_next_of_effect (checkConfigured_ok.mpr hc) (bitRev_ok.mpr ⟨w, h, rfl⟩)

/-! ### The statements -/

/-- Settles O26: by where each entry of the loop comes from. -/
theorem bitReversalMovesEveryEntry : Obligations.BitReversalMovesEveryEntry := by
  intro s
  refine ⟨fun hc => failsWith_of_validate (by simp [State.validate, State.checkConfigured, hc]) (by decide),
    fun hc hn h => ?_⟩
  rw [hn] at h
  obtain ⟨w, hw, hmove⟩ := bitRevLoop_total h
  rw [← hn] at hw hmove
  have hstep := bitRev_step hn.ge (bitRev_ok.mpr ⟨w, hw, rfl⟩)
  exact ⟨_, exec_bitrev_next hc hw, hmove, rfl, rfl, hstep.transformFrame⟩

/-- Settles O27: the second loop undoes the first. -/
theorem bitReversalTwiceRestoresWork : Obligations.BitReversalTwiceRestoresWork := by
  intro s hc hn hwf h
  rw [hn] at h
  obtain ⟨w, hw, hback⟩ := bitRevLoop_twice hwf h
  rw [← hn] at hw hback
  refine ⟨_, _, exec_bitrev_next hc hw, exec_bitrev_next (w := s.workMem) hc ?_, rfl⟩
  simpa using hback

/-- Settles O10: the check that turns the command away, or the completion of one that truncates. -/
theorem oversizeInputIsRejectedOrTruncatedWithWarning : Obligations.OversizeInputIsRejectedOrTruncatedWithWarning := by
  refine ⟨rfl, fun i s hi hc hlt => ⟨(loadErrors_of_isLoading hi).2 hc hlt, fun hr => ?_⟩⟩
  refine ⟨min_eq_right hlt.le, fun t ht => ?_⟩
  rcases exec_next_cases ht with ⟨-, u, hu, rfl⟩ | ⟨hne, -⟩
  · exact ⟨rfl, by simp [effectOf_sizeWarn hu, hi, hlt]⟩
  · exact absurd (validate_of_mayLoad ⟨hc, .inr hr⟩ hi) hne

/-- Settles O24: the loop of `LoadC` fills WORK with the padded input. -/
theorem loadComplexCopiesAndPads : Obligations.LoadComplexCopiesAndPads := by
  refine ⟨rfl, fun s => ⟨loadErrors_of_isLoading rfl, fun x hload hx => ?_⟩⟩
  obtain ⟨w, hw, harray⟩ := loadComplexLoop_total s.workMem hx
  have hu := loadC_ok.mpr ⟨w, hw, rfl⟩
  exact ⟨_, exec_next_of_effect (checkLoading_of_mayLoad hload) hu, harray, rfl, rfl, (loadC_step hu).transformFrame⟩

/-- Settles O25: the loop of `LoadR` fills WORK with the promoted, padded real components. -/
theorem loadRealPromotesAndPads : Obligations.LoadRealPromotesAndPads := by
  refine ⟨rfl, fun s => ⟨loadErrors_of_isLoading rfl, fun x hload hx => ?_⟩⟩
  obtain ⟨w, hw, harray⟩ := loadRealLoop_total s.workMem hx
  have hu := loadR_ok.mpr ⟨w, hw, rfl⟩
  exact ⟨_, exec_next_of_effect (checkLoading_of_mayLoad hload) hu, harray, rfl, rfl, (loadR_step hu).transformFrame⟩

end Sys2Proof.Machine
end

section
/-! PROOF. What a command learns of IN (41_permute.md R162, 43_transforms.md R205, R207): an effect that runs alike on another
IN, and that the commands for real input read only its real components. -/

namespace Sys2Proof.Machine

section OtherInput

variable {s : State} {m : Memory}

/-- Another memory in place of IN. -/
def State.withIn (s : State) (m : Memory) : State := { s with inMem := m }

/-- From `s` the effect does the same with `m` in place of IN, and leaves it there. -/
def IgnoresIn (m : Memory) (f : State → Except Fault State) (s : State) : Prop :=
  f (s.withIn m) = (f s).map (·.withIn m)

/-- A stage that computes a memory the same with `m` in place of IN, and stores it. -/
theorem ignoresIn_map {loop : State → Except Fault Memory} {store : State → Memory → State}
    (hl : loop (s.withIn m) = loop s) (hs : ∀ w, store (s.withIn m) w = (store s w).withIn m) :
    IgnoresIn m (fun s => (loop s).map (store s)) s := by
  unfold IgnoresIn
  simp only [hl]
  cases loop s with
  | error e => rfl
  | ok w => exact congrArg Except.ok (hs w)

theorem IgnoresIn.bind {f g : State → Except Fault State} (hf : IgnoresIn m f s) (hg : ∀ t, IgnoresIn m g t) :
    IgnoresIn m (fun s => (f s).bind g) s := by
  unfold IgnoresIn at hf ⊢
  simp only [hf]
  cases f s with
  | error e => rfl
  | ok t => exact hg t

theorem bitRev_ignoresIn (s : State) : IgnoresIn m bitRev s := ignoresIn_map rfl fun _ => rfl

theorem passesFwd_ignoresIn (s : State) : IgnoresIn m passesFwd s := ignoresIn_map rfl fun _ => rfl

theorem spectrum_ignoresIn (s : State) : IgnoresIn m spectrum s := ignoresIn_map rfl fun _ => rfl

/-- The loop of `LoadR` reads of the input only real components below the count (R162). -/
theorem loadRealLoop_congr {f : SampleFmt} {n count : Nat} {inp inp' : Memory} (w : Memory)
    (h : ∀ k, k < count → inp'.readRe f k = inp.readRe f k) :
    loadRealLoop f n count inp' w = loadRealLoop f n count inp w := by
  refine forUpTo_congr w fun i y _ => ?_
  by_cases hi : i < count
  · simp only [if_pos hi, useRe, h i hi]
  · simp only [if_neg hi]

theorem validate_withIn (s : State) (m : Memory) (i : Instr) : (s.withIn m).validate i = s.validate i := by
  cases i <;> rfl

/-- A command whose effect ignores IN ends alike with another one: in the same next state but for it, or with the same fault. -/
theorem exec_withIn {i : Instr} (h : IgnoresIn m (effectOf i) s) :
    (∀ t, exec i s = .next t → exec i (s.withIn m) = .next (t.withIn m)) ∧
      ∀ r, exec i s = .fault r → exec i (s.withIn m) = .fault r := by
  rw [exec_eq_complete, exec_eq_complete, validate_withIn]
  by_cases hv : s.validate i = .ok
  · rw [hv, complete_ok_eq, complete_ok_eq, show effectOf i (s.withIn m) = _ from h]
    cases effectOf i s with
    | error e => exact ⟨fun t ht => (by cases ht), fun r hr => hr⟩
    | ok u =>
      refine ⟨fun t ht => ?_, fun r hr => (by cases hr)⟩
      cases ht
      rfl
  · rw [complete_of_error hv, complete_of_error hv]
    refine ⟨fun t ht => ?_, fun r hr => (by cases hr)⟩
    cases ht
    rfl

section RealInput

variable (h : ∀ k, k < s.loadCount → m.readRe s.cfg.fmt k = s.inMem.readRe s.cfg.fmt k)
include h

theorem loadR_ignoresIn : IgnoresIn m loadR s := ignoresIn_map (loadRealLoop_congr s.workMem h) fun _ => rfl

theorem realForwardEffect_ignoresIn : IgnoresIn m realForwardEffect s :=
  ((loadR_ignoresIn h).bind bitRev_ignoresIn).bind passesFwd_ignoresIn

theorem realSpectrumEffect_ignoresIn : IgnoresIn m realSpectrumEffect s :=
  (realForwardEffect_ignoresIn h).bind spectrum_ignoresIn

end RealInput

end OtherInput

/-- Settles O38: the effect of each command for real input ignores an IN with the same real components. -/
theorem realCommandsIgnoreImaginaryInput : Obligations.RealCommandsIgnoreImaginaryInput := by
  intro i s m hi h
  rcases hi with rfl | rfl | rfl
  · exact exec_withIn (loadR_ignoresIn h)
  · exact exec_withIn (realForwardEffect_ignoresIn h)
  · exact exec_withIn (realSpectrumEffect_ignoresIn h)

end Sys2Proof.Machine
end

section
/-! PROOF. The butterfly engine and the scaling (42_butterfly.md R180 to R186): which butterfly of a pass takes which position, and
what the passes and the division leave. -/

namespace Sys2Proof.Machine

/-! ### One pass (R180, R181) -/

section Pass

variable {f : SampleFmt} {n s blk j off : Nat} {tw : Memory} {x w : Nat → Entry f}

/-- Which butterfly of a pass, counted in the order of R181, takes position `p`: `h` is the half-block. -/
def pairIndex (h p : Nat) : Nat := p / (2 * h) * h + p % h

theorem mul_add_eq_mul_add_iff {h a b r : Nat} (hr : r < h) (hj : j < h) :
    a * h + r = b * h + j ↔ a = b ∧ r = j := by
  refine ⟨fun he => ?_, fun ⟨ha, hr⟩ => by rw [ha, hr]⟩
  have hdiv := congrArg (· / h) he
  simp only [Nat.mul_comm _ h, Nat.mul_add_div (Nat.zero_lt_of_lt hj), Nat.div_eq_of_lt hr, Nat.div_eq_of_lt hj,
    Nat.add_zero] at hdiv
  subst hdiv
  exact ⟨rfl, Nat.add_left_cancel he⟩

/-- A butterfly takes the two positions `h` apart of its block. -/
theorem pairIndex_eq_iff {h p : Nat} (hj : j < h) :
    pairIndex h p = blk * h + j ↔ p = blk * (2 * h) + j ∨ p = blk * (2 * h) + j + h := by
  have hr := Nat.mod_lt p (Nat.zero_lt_of_lt hj)
  have hlower : p = blk * (2 * h) + j ↔ p / h = 2 * blk ∧ p % h = j := by
    rw [← mul_add_eq_mul_add_iff hr hj, Nat.div_add_mod', show 2 * blk * h = blk * (2 * h) by ring]
  have hupper : p = blk * (2 * h) + j + h ↔ p / h = 2 * blk + 1 ∧ p % h = j := by
    rw [← mul_add_eq_mul_add_iff hr hj, Nat.div_add_mod',
      show (2 * blk + 1) * h + j = blk * (2 * h) + j + h by ring]
  rw [pairIndex, Nat.mul_comm 2 h, ← Nat.div_div_eq_div_mul, mul_add_eq_mul_add_iff hr hj, Nat.mul_comm h 2, hlower,
    hupper]
  omega

theorem pairIndex_lt {h p : Nat} (hd : 2 * h ∣ n) (hp : p < n) : pairIndex h p < n / (2 * h) * h := by
  have hh : 0 < h := Nat.pos_of_mul_pos_left (Nat.pos_of_dvd_of_pos hd (Nat.zero_lt_of_lt hp))
  calc pairIndex h p < p / (2 * h) * h + h := Nat.add_lt_add_left (Nat.mod_lt p hh) _
    _ = (p / (2 * h) + 1) * h := (Nat.succ_mul _ _).symm
    _ ≤ n / (2 * h) * h := Nat.mul_le_mul_right h (Nat.div_lt_div_of_lt_of_dvd hd hp)

/-- The sum of a butterfly stands at its lower position. -/
theorem passArray_lower (hj : j < 2 ^ s) : passArray n s w x (blk * (2 * 2 ^ s) + j) =
    cadd (x (blk * (2 * 2 ^ s) + j))
      (cmul (x (blk * (2 * 2 ^ s) + j + 2 ^ s)) (w (j * (n / (2 * 2 ^ s))))) := by
  have hpos : (blk * (2 * 2 ^ s) + j) % (2 * 2 ^ s) = j := by
    rw [Nat.mul_add_mod_self_right, Nat.mod_eq_of_lt (by omega)]
  simp only [passArray, hpos, if_pos hj]

/-- The difference of a butterfly stands at its upper position. -/
theorem passArray_upper (hj : j < 2 ^ s) : passArray n s w x (blk * (2 * 2 ^ s) + j + 2 ^ s) =
    csub (x (blk * (2 * 2 ^ s) + j))
      (cmul (x (blk * (2 * 2 ^ s) + j + 2 ^ s)) (w (j * (n / (2 * 2 ^ s))))) := by
  have hpos : (blk * (2 * 2 ^ s) + j + 2 ^ s) % (2 * 2 ^ s) = j + 2 ^ s := by
    rw [Nat.add_assoc, Nat.mul_add_mod_self_right, Nat.mod_eq_of_lt (by omega)]
  simp only [passArray, hpos, if_neg (show ¬ j + 2 ^ s < 2 ^ s by omega), Nat.add_sub_cancel]

/-- The twiddle of a butterfly lies in the half table (R181). -/
theorem twiddle_index_lt (hblk : blk < n / (2 * 2 ^ s)) (hj : j < 2 ^ s) : j * (n / (2 * 2 ^ s)) < n / 2 := by
  have hstride : 2 ^ s * (n / (2 * 2 ^ s)) ≤ n / 2 := by
    rw [← Nat.div_div_eq_div_mul]
    exact Nat.mul_div_le _ _
  exact (Nat.mul_lt_mul_of_pos_right hj (Nat.zero_lt_of_lt hblk)).trans_le hstride

/-- The entries of `y` after the first `k` butterflies of the pass: the positions these took hold their results, the others
`x`. -/
def PassedUpTo (f : SampleFmt) (n s : Nat) (w x : Nat → Entry f) (k : Nat) (y : Memory) : Prop :=
  ∀ p, p < n → y.readEntry f p = some (if pairIndex (2 ^ s) p < k then passArray n s w x p else x p)

/-- Butterfly `blk * h + j` finds both its entries as the pass found them, and moves these two only. -/
theorem PassedUpTo.butterfly {y : Memory} (hy : PassedUpTo f n s w x (blk * 2 ^ s + j) y)
    (hw : ∀ k, k < n / 2 → tw.readEntry f (off + k) = some (w k)) (hblk : blk < n / (2 * 2 ^ s)) (hj : j < 2 ^ s) :
    ∃ y', butterfly f tw y (blk * (2 * 2 ^ s) + j) (blk * (2 * 2 ^ s) + j + 2 ^ s) (off + j * (n / (2 * 2 ^ s))) =
        .ok y' ∧
      PassedUpTo f n s w x (blk * 2 ^ s + (j + 1)) y' := by
  have hupper := pass_position_lt hblk hj
  have hread : ∀ p, p < n → pairIndex (2 ^ s) p = blk * 2 ^ s + j → y.readEntry f p = some (x p) := fun p hp hk => by
    rw [hy p hp, if_neg (by omega)]
  refine ⟨_, butterfly_ok.mpr ⟨_, _, _, hread _ (by omega) ((pairIndex_eq_iff hj).mpr (.inl rfl)),
    hread _ hupper ((pairIndex_eq_iff hj).mpr (.inr rfl)), hw _ (twiddle_index_lt hblk hj), rfl⟩, fun p hp => ?_⟩
  by_cases hpu : p = blk * (2 * 2 ^ s) + j + 2 ^ s
  · have hk := (pairIndex_eq_iff hj).mpr (.inr hpu)
    rw [if_pos (by omega), hpu, readEntry_writeEntry_self, passArray_upper hj]
  · rw [readEntry_writeEntry_ne _ _ hpu]
    by_cases hpl : p = blk * (2 * 2 ^ s) + j
    · have hk := (pairIndex_eq_iff hj).mpr (.inl hpl)
      rw [if_pos (by omega), hpl, readEntry_writeEntry_self, passArray_lower hj]
    · have hk : pairIndex (2 ^ s) p ≠ blk * 2 ^ s + j := fun hk => ((pairIndex_eq_iff hj).mp hk).elim hpl hpu
      rw [readEntry_writeEntry_ne _ _ hpl, hy p hp]
      simp only [show pairIndex (2 ^ s) p < blk * 2 ^ s + (j + 1) ↔ pairIndex (2 ^ s) p < blk * 2 ^ s + j by omega]

/-- A pass over whole blocks answers, and leaves the array function of R181. -/
theorem passLoop_total {work : Memory} (hd : 2 * 2 ^ s ∣ n) (hx : work.IsArray f n x)
    (hw : ∀ k, k < n / 2 → tw.readEntry f (off + k) = some (w k)) :
    ∃ work', passLoop f tw n off s work = .ok work' ∧ work'.IsArray f n (passArray n s w x) := by
  have hblock : ∀ blk y, blk < n / (2 * 2 ^ s) → PassedUpTo f n s w x (blk * 2 ^ s) y →
      ∃ y', forUpTo (2 ^ s) (fun j z => butterfly f tw z (blk * (2 * 2 ^ s) + j)
          (blk * (2 * 2 ^ s) + j + 2 ^ s) (off + j * (n / (2 * 2 ^ s)))) y = .ok y' ∧
        PassedUpTo f n s w x ((blk + 1) * 2 ^ s) y' := fun blk y hblk hy => by
    rw [Nat.succ_mul blk]
    exact forUpTo_total (fun j => PassedUpTo f n s w x (blk * 2 ^ s + j)) hy
      fun j y' hj hy' => hy'.butterfly hw hblk hj
  obtain ⟨work', hwork, hpassed⟩ := forUpTo_total (fun blk => PassedUpTo f n s w x (blk * 2 ^ s))
    (fun p hp => by rw [if_neg (by omega), hx p hp]) hblock
  exact ⟨work', hwork, fun p hp => by rw [hpassed p hp, if_pos (pairIndex_lt hd hp)]⟩

/-- The passes of R181 answer over a power of two, and leave the array function of the whole. -/
theorem passesLoop_total {m : Nat} {work : Memory} (hx : work.IsArray f (2 ^ m) x)
    (hw : ∀ k, k < 2 ^ m / 2 → tw.readEntry f (off + k) = some (w k)) :
    ∃ work', passesLoop f tw (2 ^ m) m off work = .ok work' ∧ work'.IsArray f (2 ^ m) (passesArray (2 ^ m) w m x) :=
  forUpTo_total (fun s (y : Memory) => y.IsArray f (2 ^ m) (passesArray (2 ^ m) w s x)) hx fun s _ hs hy =>
    passLoop_total (by rw [← Nat.pow_succ']; exact Nat.pow_dvd_pow 2 hs) hy hw

end Pass

/-! ### The loop that changes WORK entry by entry (R186) -/

section Update

variable {f : SampleFmt} {n : Nat} {g : Entry f → Entry f}

/-- The loop that puts `g` of each of the first `n` entries in its place. -/
def updateLoop (f : SampleFmt) (n : Nat) (g : Entry f → Entry f) (work : Memory) : Except Fault Memory :=
  forUpTo n (fun i w => (useEntry f .work w i).map fun v => w.writeEntry f i (g v)) work

/-- The entries of `y` after the first `i` bodies of the loop. -/
def UpdatedUpTo (f : SampleFmt) (n : Nat) (g : Entry f → Entry f) (x : Nat → Entry f) (i : Nat) (y : Memory) : Prop :=
  ∀ j, j < n → y.readEntry f j = some (if j < i then g (x j) else x j)

theorem UpdatedUpTo.body {x : Nat → Entry f} {i : Nat} {y : Memory} (hy : UpdatedUpTo f n g x i y) (hi : i < n) :
    ∃ y', (useEntry f .work y i).map (fun v => y.writeEntry f i (g v)) = .ok y' ∧ UpdatedUpTo f n g x (i + 1) y' := by
  have hread : y.readEntry f i = some (x i) := by rw [hy i hi, if_neg (Nat.lt_irrefl i)]
  refine ⟨_, map_eq_ok.mpr ⟨x i, useEntry_eq_ok.mpr hread, rfl⟩, fun j hj => ?_⟩
  by_cases hji : j = i
  · rw [hji, readEntry_writeEntry_self, if_pos (Nat.lt_succ_self i)]
  · rw [readEntry_writeEntry_ne _ _ hji, hy j hj]
    simp only [show j < i + 1 ↔ j < i by omega]

theorem updateLoop_total {work : Memory} {x : Nat → Entry f} (hx : work.IsArray f n x) :
    ∃ work', updateLoop f n g work = .ok work' ∧ work'.IsArray f n fun i => g (x i) := by
  obtain ⟨work', hwork, h⟩ := forUpTo_total (UpdatedUpTo f n g x)
    (fun j hj => by rw [if_neg (Nat.not_lt_zero j), hx j hj]) fun i y hi hy => hy.body hi
  exact ⟨work', hwork, fun j hj => by rw [h j hj, if_pos hj]⟩

theorem scaleLoop_total {work : Memory} {x : Nat → Entry f} (hx : work.IsArray f n x) :
    ∃ work', scaleLoop f n work = .ok work' ∧ work'.IsArray f n (scaledArray n x) :=
  updateLoop_total hx

end Update

/-! ### The commands (R184 to R186) -/

theorem checkConfigured_of_unconfigured {s : State} (h : s.configured = false) : s.checkConfigured = .notConfigured := by
  simp [State.checkConfigured, h]

/-- A butterfly command completes over the twiddles at its offset; at N = 1 it makes no pass. -/
theorem butterflies_complete {i : Instr} {s : State} {off : Nat} {x w : Nat → Entry s.cfg.fmt}
    (hv : s.validate i = .ok) (hi : effectOf i s = passes off s) (hn : PowerLength s)
    (hx : s.log2n ≠ 0 → s.workMem.IsArray s.cfg.fmt s.n x)
    (hw : ∀ k, k < s.n / 2 → s.twMem.readEntry s.cfg.fmt (off + k) = some (w k)) :
    ∃ t, exec i s = .next t ∧
      (s.log2n ≠ 0 → t.workMem.IsArray s.cfg.fmt s.n (passesArray s.n w s.log2n x)) ∧
      (s.log2n = 0 → t.workMem = s.workMem) ∧
      t.outLen = s.n ∧ t.sizeWarn = s.sizeWarn ∧ TransformFrame s t := by
  have hloop : ∃ work, passesLoop s.cfg.fmt s.twMem s.n s.log2n off s.workMem = .ok work ∧
      (s.log2n ≠ 0 → work.IsArray s.cfg.fmt s.n (passesArray s.n w s.log2n x)) ∧
      (s.log2n = 0 → work = s.workMem) := by
    by_cases h0 : s.log2n = 0
    · exact ⟨s.workMem, by rw [h0]; rfl, fun h => absurd h0 h, fun _ => rfl⟩
    · rw [hn] at hx hw ⊢
      obtain ⟨work, hwork, harray⟩ := passesLoop_total (hx h0) hw
      exact ⟨work, hwork, fun _ => harray, fun h => absurd h h0⟩
  obtain ⟨work, hwork, harray, hsame⟩ := hloop
  have hu := passes_ok.mpr ⟨work, hwork, rfl⟩
  exact ⟨_, exec_next_of_effect hv (hi.trans hu), harray, hsame, rfl, rfl, (passes_step hu).transformFrame⟩

/-- Settles O28: the passes at offset 0. -/
theorem forwardButterfliesComputeThePasses : Obligations.ForwardButterfliesComputeThePasses :=
  ⟨rfl, fun _ => ⟨fun hc => failsWith_of_validate (checkConfigured_of_unconfigured hc) (by decide),
    fun _ _ hc hn hx hw => butterflies_complete (checkConfigured_ok.mpr hc) rfl hn hx fun k hk => by
      rw [Nat.zero_add, hw k hk]⟩⟩

/-- Settles O29: the passes at offset N/2. -/
theorem inverseButterfliesComputeThePasses : Obligations.InverseButterfliesComputeThePasses :=
  ⟨rfl, fun _ => ⟨fun hc => failsWith_of_validate (checkConfigured_of_unconfigured hc) (by decide),
    fun _ _ hc hn hx hw => butterflies_complete (checkConfigured_ok.mpr hc) rfl hn hx hw⟩⟩

/-- Settles O30: the loop divides each entry in its place. -/
theorem scaleDividesEveryComponent : Obligations.ScaleDividesEveryComponent := by
  refine ⟨rfl, fun s => ⟨fun hc => failsWith_of_validate (checkConfigured_of_unconfigured hc) (by decide),
    fun x hc hx => ?_⟩⟩
  obtain ⟨work, hwork, harray⟩ := scaleLoop_total hx
  have hu := scale_ok.mpr ⟨work, hwork, rfl⟩
  exact ⟨_, exec_next_of_effect (checkConfigured_ok.mpr hc) hu, harray, rfl, rfl, (scale_step hu).transformFrame⟩

end Sys2Proof.Machine
end

section
/-! PROOF. Sample values never decide whether a command completes (42_butterfly.md R187): two runs over memories with the same
bytes written go through every loop alike, to the same fault or to memories with the same bytes written. -/

namespace Sys2Proof.Machine

/-! ### Computations that end alike -/

/-- Both computations stop with the same fault, or both answer, with results that `R` relates. -/
inductive Alike {α : Type} (R : α → α → Prop) : Except Fault α → Except Fault α → Prop where
  | stops (r : Fault) : Alike R (.error r) (.error r)
  | answers {x x' : α} (h : R x x') : Alike R (.ok x) (.ok x')

section Alike

variable {α β : Type} {R : α → α → Prop} {S : β → β → Prop} {e e' : Except Fault α}

theorem Alike.bind {g g' : α → Except Fault β} (h : Alike R e e') (hg : ∀ x x', R x x' → Alike S (g x) (g' x')) :
    Alike S (e.bind g) (e'.bind g') := by
  cases h with
  | stops r => exact .stops r
  | answers h => exact hg _ _ h

theorem Alike.map {g g' : α → β} (h : Alike R e e') (hg : ∀ x x', R x x' → S (g x) (g' x')) :
    Alike S (e.map g) (e'.map g') := by
  cases h with
  | stops r => exact .stops r
  | answers h => exact .answers (hg _ _ h)

theorem Alike.ok_iff (h : Alike R e e') : (∃ x, e = .ok x) ↔ ∃ x, e' = .ok x := by
  cases h <;> simp

/-- Loops whose bodies run alike from related values. -/
theorem forUpTo_alike {n : Nat} {body body' : Nat → α → Except Fault α} {x x' : α} (h0 : R x x')
    (hs : ∀ i y y', R y y' → Alike R (body i y) (body' i y')) : Alike R (forUpTo n body x) (forUpTo n body' x') := by
  induction n with
  | zero => exact .answers h0
  | succ n ih => exact ih.bind (hs n)

/-- Two reads that hold a value both or neither, the fault the same. -/
theorem alike_elim {o o' : Option α} (r : Fault) (h : o'.isSome = o.isSome) :
    Alike (fun _ _ => True) (o.elim (.error r) .ok) (o'.elim (.error r) .ok) :=
  match o, o', h with
  | none, none, _ => .stops r
  | some _, some _, _ => .answers trivial

end Alike

/-! ### Memories with the same bytes written -/

/-- The same bytes hold a value, whichever it is. -/
def SameWritten (m m' : Memory) : Prop := ∀ a, (m'.readByte a).isSome = (m.readByte a).isSome

section Memories

variable {f : SampleFmt} {m m' : Memory}

theorem SameWritten.writeEntry (h : SameWritten m m') (e : Nat) (v v' : Entry f) :
    SameWritten (m.writeEntry f e v) (m'.writeEntry f e v') := by
  intro a
  by_cases ha : entryOffset f e ≤ a ∧ a < entryOffset f (e + 1)
  · rw [readByte_writeEntry_isSome m v ha.1 ha.2, readByte_writeEntry_isSome m' v' ha.1 ha.2]
  · rw [readByte_writeEntry_of_outside m v (by omega), readByte_writeEntry_of_outside m' v' (by omega), h a]

/-- The same components hold a value. -/
theorem SameWritten.isSome_readComp (h : SameWritten m m') (a : Nat) :
    (m'.readComp f a).isSome = (m.readComp f a).isSome := by
  rw [Bool.eq_iff_iff, Memory.readComp, Memory.readComp, Option.isSome_map, Option.isSome_map, readLE_isSome,
    readLE_isSome]
  simp only [h _]

theorem useRe_eq_elim (k : MemName) (m : Memory) (e : Nat) :
    useRe f k m e = (m.readRe f e).elim (.error (.unwritten k (entryOffset f e))) .ok := by
  unfold useRe
  cases m.readRe f e <;> rfl

theorem useEntry_eq_elim (k : MemName) (m : Memory) (e : Nat) :
    useEntry f k m e = (m.readEntry f e).elim (.error (.unwritten k (entryOffset f e))) .ok := by
  unfold useEntry
  cases m.readEntry f e <;> rfl

theorem SameWritten.useRe (h : SameWritten m m') (k : MemName) (e : Nat) :
    Alike (fun _ _ => True) (useRe f k m e) (useRe f k m' e) := by
  rw [useRe_eq_elim, useRe_eq_elim]
  exact alike_elim _ (h.isSome_readComp (entryOffset f e))

theorem readEntry_isSome (m : Memory) (e : Nat) :
    (m.readEntry f e).isSome = ((m.readRe f e).isSome && (m.readIm f e).isSome) := by
  unfold Memory.readEntry
  cases m.readRe f e <;> cases m.readIm f e <;> rfl

theorem SameWritten.useEntry (h : SameWritten m m') (k : MemName) (e : Nat) :
    Alike (fun _ _ => True) (useEntry f k m e) (useEntry f k m' e) := by
  have he : (m'.readEntry f e).isSome = (m.readEntry f e).isSome := by
    simp only [readEntry_isSome, Memory.readRe, Memory.readIm, h.isSome_readComp]
  rw [useEntry_eq_elim, useEntry_eq_elim]
  exact alike_elim _ he

end Memories

/-! ### Every loop -/

section Loops

variable {f : SampleFmt} {n : Nat} {inp inp' tw tw' work work' : Memory}

/-- A load that reads the input alike. -/
theorem loadLoop_alike {β : Type} {count : Nat} {read read' : Nat → Except Fault β} {entry : β → Entry f}
    (hr : ∀ i, Alike (fun _ _ => True) (read i) (read' i)) (hw : SameWritten work work') :
    Alike SameWritten
      (forUpTo n (fun i y => if i < count then (read i).map (fun v => y.writeEntry f i (entry v))
        else .ok (y.writeEntry f i (zeroEntry f))) work)
      (forUpTo n (fun i y => if i < count then (read' i).map (fun v => y.writeEntry f i (entry v))
        else .ok (y.writeEntry f i (zeroEntry f))) work') := by
  refine forUpTo_alike hw fun i y y' hy => ?_
  by_cases hi : i < count
  · simp only [if_pos hi]
    exact (hr i).map fun v v' _ => hy.writeEntry i _ _
  · simp only [if_neg hi]
    exact .answers (hy.writeEntry i _ _)

theorem loadComplexLoop_alike {count : Nat} (hin : SameWritten inp inp') (hw : SameWritten work work') :
    Alike SameWritten (loadComplexLoop f n count inp work) (loadComplexLoop f n count inp' work') :=
  loadLoop_alike (entry := id) (hin.useEntry .inp) hw

theorem loadRealLoop_alike {count : Nat} (hin : SameWritten inp inp') (hw : SameWritten work work') :
    Alike SameWritten (loadRealLoop f n count inp work) (loadRealLoop f n count inp' work') :=
  loadLoop_alike (entry := fun v => ⟨v, posZero f⟩) (hin.useRe .inp) hw

theorem bitRevLoop_alike {m : Nat} (hw : SameWritten work work') :
    Alike SameWritten (bitRevLoop f n m work) (bitRevLoop f n m work') := by
  refine forUpTo_alike hw fun i y y' hy => ?_
  by_cases hi : i < rev m i
  · simp only [if_pos hi]
    exact (hy.useEntry .work i).bind fun a a' _ => (hy.useEntry .work (rev m i)).map fun b b' _ =>
      (hy.writeEntry i b b').writeEntry (rev m i) a a'
  · simp only [if_neg hi]
    exact .answers hy

theorem butterfly_alike (htw : SameWritten tw tw') (hw : SameWritten work work') (p q t : Nat) :
    Alike SameWritten (butterfly f tw work p q t) (butterfly f tw' work' p q t) :=
  (hw.useEntry .work p).bind fun _ _ _ => (hw.useEntry .work q).bind fun _ _ _ => (htw.useEntry .tw t).map fun _ _ _ =>
    (hw.writeEntry p _ _).writeEntry q _ _

theorem passesLoop_alike {m off : Nat} (htw : SameWritten tw tw') (hw : SameWritten work work') :
    Alike SameWritten (passesLoop f tw n m off work) (passesLoop f tw' n m off work') :=
  forUpTo_alike hw fun _ _ _ hs => forUpTo_alike hs fun _ _ _ hblk => forUpTo_alike hblk fun _ _ _ hj =>
    butterfly_alike htw hj _ _ _

theorem updateLoop_alike {g : Entry f → Entry f} (hw : SameWritten work work') :
    Alike SameWritten (updateLoop f n g work) (updateLoop f n g work') :=
  forUpTo_alike hw fun i _ _ hy => (hy.useEntry .work i).map fun _ _ _ => hy.writeEntry i _ _

theorem scaleLoop_alike (hw : SameWritten work work') : Alike SameWritten (scaleLoop f n work) (scaleLoop f n work') :=
  updateLoop_alike hw

theorem dropImagLoop_alike (hw : SameWritten work work') :
    Alike SameWritten (dropImagLoop f n work) (dropImagLoop f n work') :=
  updateLoop_alike (g := fun v => ⟨v.re, posZero f⟩) hw

theorem spectrumLoop_alike {m : Nat} (hw : SameWritten work work') :
    Alike SameWritten (spectrumLoop f n m work) (spectrumLoop f n m work') :=
  (updateLoop_alike (g := fun z => ⟨fmul (magnitude z) (ofRatio f 2 (2 ^ m)), posZero f⟩) hw).bind fun _ _ hy =>
    forUpTo_alike hy fun _ _ _ hz => .answers (hz.writeEntry _ _ _)

theorem generateTwiddles_alike {m : Nat} (htw : SameWritten tw tw') :
    Alike SameWritten (generateTwiddles f n m tw) (generateTwiddles f n m tw') :=
  Alike.bind (forUpTo_alike htw fun k _ _ hy => .answers
      ((hy.writeEntry k (canon f m k) (canon f m k)).writeEntry (2 ^ m / 2 + k) (anti f m k) (anti f m k)))
    fun _ _ hy => forUpTo_alike hy fun k _ _ hz => .answers
      (hz.writeEntry (2 * (2 ^ m / 2) + k) (zeroEntry f) (zeroEntry f))

end Loops

/-! ### Every command -/

/-- The state with other sample values at the same written bytes. -/
inductive SameButSamples (s : State) : State → Prop where
  | intro {inp work tw : Memory} (hin : SameWritten s.inMem inp) (hwork : SameWritten s.workMem work)
      (htw : SameWritten s.twMem tw) : SameButSamples s { s with inMem := inp, workMem := work, twMem := tw }

/-- From states that differ in sample values only, the effect ends alike, in such states. -/
def IgnoresSamples (g : State → Except Fault State) : Prop :=
  ∀ ⦃s s' : State⦄, SameButSamples s s' → Alike SameButSamples (g s) (g s')

theorem IgnoresSamples.bind {g h : State → Except Fault State} (hg : IgnoresSamples g) (hh : IgnoresSamples h) :
    IgnoresSamples fun s => (g s).bind h := fun _ _ hs => (hg hs).bind fun _ _ ht => hh ht

theorem loadC_ignoresSamples : IgnoresSamples loadC := by
  rintro s _ ⟨hin, hwork, htw⟩
  exact (loadComplexLoop_alike hin hwork).map fun _ _ hw => ⟨hin, hw, htw⟩

theorem loadR_ignoresSamples : IgnoresSamples loadR := by
  rintro s _ ⟨hin, hwork, htw⟩
  exact (loadRealLoop_alike hin hwork).map fun _ _ hw => ⟨hin, hw, htw⟩

theorem bitRev_ignoresSamples : IgnoresSamples bitRev := by
  rintro s _ ⟨hin, hwork, htw⟩
  exact (bitRevLoop_alike hwork).map fun _ _ hw => ⟨hin, hw, htw⟩

theorem passes_alike {s s' : State} (off : Nat) (h : SameButSamples s s') :
    Alike SameButSamples (passes off s) (passes off s') := by
  obtain ⟨hin, hwork, htw⟩ := h
  exact (passesLoop_alike htw hwork).map fun _ _ hw => ⟨hin, hw, htw⟩

theorem passesFwd_ignoresSamples : IgnoresSamples passesFwd := fun _ _ h => passes_alike 0 h

theorem passesInv_ignoresSamples : IgnoresSamples passesInv := by
  rintro s _ ⟨hin, hwork, htw⟩
  exact passes_alike (s.n / 2) ⟨hin, hwork, htw⟩

theorem scale_ignoresSamples : IgnoresSamples scale := by
  rintro s _ ⟨hin, hwork, htw⟩
  exact (scaleLoop_alike hwork).map fun _ _ hw => ⟨hin, hw, htw⟩

theorem spectrum_ignoresSamples : IgnoresSamples spectrum := by
  rintro s _ ⟨hin, hwork, htw⟩
  exact (spectrumLoop_alike hwork).map fun _ _ hw => ⟨hin, hw, htw⟩

theorem dropImag_ignoresSamples : IgnoresSamples dropImag := by
  rintro s _ ⟨hin, hwork, htw⟩
  exact (dropImagLoop_alike hwork).map fun _ _ hw => ⟨hin, hw, htw⟩

theorem configureEffect_ignoresSamples : IgnoresSamples configureEffect := by
  rintro s _ ⟨hin, hwork, htw⟩
  exact (generateTwiddles_alike htw).map fun _ _ ht => ⟨hin, hwork, ht⟩

theorem effectOf_ignoresSamples (i : Instr) : IgnoresSamples (effectOf i) := by
  have hforward := (loadC_ignoresSamples.bind bitRev_ignoresSamples).bind passesFwd_ignoresSamples
  have hinverse := ((loadC_ignoresSamples.bind bitRev_ignoresSamples).bind passesInv_ignoresSamples).bind
    scale_ignoresSamples
  have hrealForward := (loadR_ignoresSamples.bind bitRev_ignoresSamples).bind passesFwd_ignoresSamples
  cases i with
  | configure => exact configureEffect_ignoresSamples
  | forward => exact hforward
  | inverse => exact hinverse
  | realForward => exact hrealForward
  | realSpectrum => exact hrealForward.bind spectrum_ignoresSamples
  | inverseReal => exact hinverse.bind dropImag_ignoresSamples
  | loadComplex => exact loadC_ignoresSamples
  | loadReal => exact loadR_ignoresSamples
  | bitrev => exact bitRev_ignoresSamples
  | butterflyFwd => exact passesFwd_ignoresSamples
  | butterflyInv => exact passesInv_ignoresSamples
  | scaleInv => exact scale_ignoresSamples

theorem validate_sameButSamples {s s' : State} (h : SameButSamples s s') (i : Instr) : s'.validate i = s.validate i := by
  cases h
  cases i <;> rfl

/-- A command completes where its checks turn it away and where its effect answers. -/
theorem exec_next_iff {i : Instr} {s : State} :
    (∃ t, exec i s = .next t) ↔ s.validate i ≠ .ok ∨ ∃ u, effectOf i s = .ok u := by
  constructor
  · rintro ⟨t, ht⟩
    rcases exec_next_cases ht with ⟨-, u, hu, -⟩ | ⟨hv, -⟩
    · exact .inr ⟨u, hu⟩
    · exact .inl hv
  · by_cases hv : s.validate i = .ok
    · rintro (hne | ⟨u, hu⟩)
      · exact absurd hv hne
      · exact ⟨_, exec_next_of_effect hv hu⟩
    · exact fun _ => ⟨_, (exec_eq_complete i s).trans (complete_of_error hv _ _)⟩

/-- Settles O39: the effect ends alike over the other memories, and the checks read none of them. -/
theorem sampleValuesNeverDecideCompletion : Obligations.SampleValuesNeverDecideCompletion := by
  intro i s inp work tw hin hwork htw
  have h : SameButSamples s { s with inMem := inp, workMem := work, twMem := tw } := ⟨hin, hwork, htw⟩
  rw [exec_next_iff, exec_next_iff, validate_sameButSamples h, (effectOf_ignoresSamples i h).ok_iff]

end Sys2Proof.Machine
end

section
/-! PROOF. The facade transforms (43_transforms.md R200 to R209): a chain of stages, each of which takes the array in WORK to
the next one; and REAL_FORWARD as FORWARD of the promoted input. -/

namespace Sys2Proof.Machine

/-! ### The magnitude loop (R207) and the loop that drops imaginary parts (R209) -/

section Loops

variable {f : SampleFmt} {n m : Nat} {work : Memory} {x : Nat → Entry f}

/-- An array grows by the entry that is written behind it. -/
theorem isArray_writeEntry_succ (h : work.IsArray f n x) : (work.writeEntry f n (x n)).IsArray f (n + 1) x := by
  intro j hj
  rcases Nat.lt_succ_iff_lt_or_eq.mp hj with hlt | rfl
  · rw [readEntry_writeEntry_ne _ _ hlt.ne, h j hlt]
  · exact readEntry_writeEntry_self _ _ _ _

theorem dropImagLoop_total (hx : work.IsArray f n x) :
    ∃ work', dropImagLoop f n work = .ok work' ∧ work'.IsArray f n fun i => ⟨(x i).re, posZero f⟩ :=
  updateLoop_total (g := fun v => ⟨v.re, posZero f⟩) hx

/-- The first loop puts the magnitudes in entries `[0, n/2]`, the second appends the zeros above. -/
theorem spectrumLoop_total (hn : 0 < n) (hx : work.IsArray f n x) :
    ∃ work', spectrumLoop f n m work = .ok work' ∧ work'.IsArray f n (spectrumArray n m x) := by
  obtain ⟨y, hy, hmagnitudes⟩ := updateLoop_total (n := n / 2 + 1)
    (g := fun z => ⟨fmul (magnitude z) (ofRatio f 2 (2 ^ m)), posZero f⟩)
    (fun i hi => hx i (by omega))
  have hlower : y.IsArray f (n / 2 + 1 + 0) (spectrumArray n m x) := fun i hi => by
    rw [hmagnitudes i hi, spectrumArray, if_pos (Nat.le_of_lt_succ hi)]
  obtain ⟨z, hz, harray⟩ := forUpTo_total (n := n - (n / 2 + 1))
    (body := fun k w => .ok (w.writeEntry f (n / 2 + 1 + k) (zeroEntry f)))
    (fun k (w : Memory) => w.IsArray f (n / 2 + 1 + k) (spectrumArray n m x)) hlower fun k w _ hw => by
      have hzero : spectrumArray n m x (n / 2 + 1 + k) = zeroEntry f := if_neg (by omega)
      exact ⟨_, rfl, hzero ▸ isArray_writeEntry_succ hw⟩
  refine ⟨z, bind_eq_ok.mpr ⟨y, hy, hz⟩, ?_⟩
  rwa [Nat.add_sub_cancel' (show n / 2 + 1 ≤ n by omega)] at harray

end Loops

/-! ### Chains of stages (R200) -/

/-- The state a chain of stages that starts with a load reaches from `s`, with WORK `w` and OUT_LEN `k` (R160, R200). -/
def State.staged (s : State) (k : Nat) (w : Memory) : State :=
  ((s.withWork w).warnIf (decide (s.n < s.lin))).withOutLen k

/-- A chain of stages from `s` answers, with OUT_LEN `k` and the array `x` in WORK. -/
def Leaves (s : State) (k : Nat) (e : Except Fault State) (x : Nat → Entry s.cfg.fmt) : Prop :=
  ∃ w, e = .ok (s.staged k w) ∧ w.IsArray s.cfg.fmt s.n x

section Stages

variable {s : State} {k off : Nat} {e : Except Fault State} {x y w : Nat → Entry s.cfg.fmt}

theorem loadC_leaves (hx : s.inMem.IsArray s.cfg.fmt s.loadCount x) :
    Leaves s s.n (loadC s) (padded s.loadCount x) := by
  obtain ⟨work, hwork, harray⟩ := loadComplexLoop_total s.workMem hx
  exact ⟨work, loadC_ok.mpr ⟨work, hwork, rfl⟩, harray⟩

theorem loadR_leaves {x : Nat → Comp s.cfg.fmt} (hx : s.inMem.IsRealArray s.cfg.fmt s.loadCount x) :
    Leaves s s.n (loadR s) (padded s.loadCount (promoted x)) := by
  obtain ⟨work, hwork, harray⟩ := loadRealLoop_total s.workMem hx
  exact ⟨work, loadR_ok.mpr ⟨work, hwork, rfl⟩, harray⟩

/-- One more stage `g`: it stores what its loop makes of WORK, and the loop takes the array `x` to `y`. -/
theorem Leaves.stage {k' : Nat} {g : State → Except Fault State} {loop : Memory → Except Fault Memory}
    (h : Leaves s k e x) (hg : ∀ work, g (s.staged k work) = (loop work).map (s.staged k'))
    (hloop : ∀ work : Memory, work.IsArray s.cfg.fmt s.n x →
      ∃ work', loop work = .ok work' ∧ work'.IsArray s.cfg.fmt s.n y) :
    Leaves s k' (e.bind g) y := by
  obtain ⟨work, rfl, hx⟩ := h
  obtain ⟨work', hwork', hy⟩ := hloop work hx
  exact ⟨work', (hg work).trans (map_eq_ok.mpr ⟨work', hwork', rfl⟩), hy⟩

/-- The bit reversal of a whole array answers, and entry `i` of the result is entry `rev i` of the array (R163). -/
theorem bitRevLoop_isArray {f : SampleFmt} {n m : Nat} {work : Memory} {x : Nat → Entry f} (hn : n = 2 ^ m)
    (hx : work.IsArray f n x) :
    ∃ work', bitRevLoop f n m work = .ok work' ∧ work'.IsArray f n fun i => x (rev m i) := by
  subst hn
  obtain ⟨work', hwork', hmove⟩ := bitRevLoop_total (w := work) fun i hi _ => by rw [hx i hi]; rfl
  refine ⟨work', hwork', fun i hi => ?_⟩
  have hback := hmove (rev m i) (rev_lt m i)
  rwa [rev_rev hi, hx _ (rev_lt m i)] at hback

theorem Leaves.bitRev (h : Leaves s k e x) (hn : PowerLength s) :
    Leaves s s.n (e.bind bitRev) fun i => x (rev s.log2n i) :=
  h.stage (fun _ => rfl) fun _ => bitRevLoop_isArray hn

/-- The passes as a stage: `g` is `Passes(off)` on the state it starts from (R210). -/
theorem Leaves.passes {g : State → Except Fault State} (h : Leaves s k e x) (hn : PowerLength s)
    (hg : ∀ work, g (s.staged k work) = Machine.passes off (s.staged k work))
    (hw : ∀ j, j < s.n / 2 → s.twMem.readEntry s.cfg.fmt (off + j) = some (w j)) :
    Leaves s s.n (e.bind g) (passesArray s.n w s.log2n x) :=
  h.stage hg fun work hx => by
    rw [hn] at hx hw
    have hloop := passesLoop_total hx hw
    rw [← hn] at hloop
    exact hloop

theorem Leaves.passesFwd (h : Leaves s k e x) (hn : PowerLength s) (hw : s.twMem.IsArray s.cfg.fmt (s.n / 2) w) :
    Leaves s s.n (e.bind passesFwd) (passesArray s.n w s.log2n x) :=
  h.passes hn (fun _ => rfl) fun j hj => by rw [Nat.zero_add, hw j hj]

theorem Leaves.passesInv (h : Leaves s k e x) (hn : PowerLength s)
    (hw : ∀ j, j < s.n / 2 → s.twMem.readEntry s.cfg.fmt (s.n / 2 + j) = some (w j)) :
    Leaves s s.n (e.bind passesInv) (passesArray s.n w s.log2n x) :=
  h.passes (off := s.n / 2) hn (fun _ => rfl) hw

theorem Leaves.scale (h : Leaves s k e x) : Leaves s s.n (e.bind scale) (scaledArray s.n x) :=
  h.stage (fun _ => rfl) fun _ => scaleLoop_total

theorem Leaves.dropImag (h : Leaves s k e x) :
    Leaves s s.n (e.bind dropImag) fun i => ⟨(x i).re, posZero s.cfg.fmt⟩ :=
  h.stage (fun _ => rfl) fun _ => dropImagLoop_total

theorem Leaves.spectrum (h : Leaves s k e x) (hn : PowerLength s) :
    Leaves s (s.n / 2 + 1) (e.bind spectrum) (spectrumArray s.n s.log2n x) :=
  h.stage (fun _ => rfl) fun _ => spectrumLoop_total (hn ▸ Nat.two_pow_pos _)

/-! ### The effects (R201 to R209) -/

theorem inverseEffect_leaves (hn : PowerLength s) (hx : s.inMem.IsArray s.cfg.fmt s.loadCount x)
    (hw : ∀ j, j < s.n / 2 → s.twMem.readEntry s.cfg.fmt (s.n / 2 + j) = some (w j)) :
    Leaves s s.n (inverseEffect s)
      (scaledArray s.n (passesArray s.n w s.log2n fun i => padded s.loadCount x (rev s.log2n i))) :=
  (((loadC_leaves hx).bitRev hn).passesInv hn hw).scale

theorem realForwardEffect_leaves {x : Nat → Comp s.cfg.fmt} (hn : PowerLength s)
    (hx : s.inMem.IsRealArray s.cfg.fmt s.loadCount x) (hw : s.twMem.IsArray s.cfg.fmt (s.n / 2) w) :
    Leaves s s.n (realForwardEffect s)
      (passesArray s.n w s.log2n fun i => padded s.loadCount (promoted x) (rev s.log2n i)) :=
  ((loadR_leaves hx).bitRev hn).passesFwd hn hw

/-- A loading command that is not turned away completes where its stages answer, with what they leave (R236). -/
theorem Leaves.completes {i : Instr} (h : Leaves s k (effectOf i s) x) (hi : isLoading i = true) (hload : MayLoad s)
    (hn : PowerLength s) :
    ∃ t, exec i s = .next t ∧ t.workMem.IsArray s.cfg.fmt s.n x ∧ t.outLen = k ∧
      t.sizeWarn = (s.sizeWarn || decide (s.n < s.lin)) ∧ TransformFrame s t := by
  obtain ⟨work, hu, hx⟩ := h
  have hne : i ≠ .configure := by
    rintro rfl
    cases hi
  exact ⟨_, exec_next_of_effect (validate_of_mayLoad hload hi) hu, hx, rfl, rfl, (effectOf_step hne hn hu).transformFrame⟩

end Stages

/-! ### REAL_FORWARD and FORWARD (R206) -/

/-- On entries with imaginary `+0` both loads do the same (R160, R162). -/
theorem loadC_eq_loadR {s : State} {x : Nat → Comp s.cfg.fmt}
    (h : s.inMem.IsArray s.cfg.fmt s.loadCount (promoted x)) : loadC s = loadR s := by
  have hloop : loadComplexLoop s.cfg.fmt s.n s.loadCount s.inMem s.workMem =
      loadRealLoop s.cfg.fmt s.n s.loadCount s.inMem s.workMem := forUpTo_congr _ fun i y _ => by
    by_cases hi : i < s.loadCount
    · have hentry := h i hi
      rw [if_pos hi, if_pos hi, useEntry_eq_ok.mpr hentry, useRe_eq_ok.mpr (readEntry_eq_some.mp hentry).1]
      rfl
    · rw [if_neg hi, if_neg hi]
  rw [loadC, loadR, hloop]

/-- A completion runs its effect on the one state only. -/
theorem complete_congr {e : ErrCode} {effect effect' : State → Except Fault State} {s : State}
    (h : effect s = effect' s) : complete e effect s = complete e effect' s := by
  unfold complete
  rw [h]

theorem exec_forward_eq_realForward {s : State} {x : Nat → Comp s.cfg.fmt}
    (h : s.inMem.IsArray s.cfg.fmt s.loadCount (promoted x)) : exec .forward s = exec .realForward s :=
  complete_congr (by rw [forwardEffect, realForwardEffect, loadC_eq_loadR h])

/-! ### The statements -/

/-- Settles O31: the load, the bit reversal and the passes at offset 0. -/
theorem forwardTransformsThePaddedInput : Obligations.ForwardTransformsThePaddedInput :=
  ⟨rfl, fun _ => ⟨loadErrors_of_isLoading rfl, fun _ _ hload hn hx hw =>
    Leaves.completes (((loadC_leaves hx).bitRev hn).passesFwd hn hw) rfl hload hn⟩⟩

/-- Settles O32: the load, the bit reversal, the passes at offset N/2 and the division. -/
theorem inverseTransformsAndScales : Obligations.InverseTransformsAndScales :=
  ⟨rfl, fun _ => ⟨loadErrors_of_isLoading rfl, fun _ _ hload hn hx hw =>
    Leaves.completes (inverseEffect_leaves hn hx hw) rfl hload hn⟩⟩

/-- Settles O33: as FORWARD, after the load of the real components. -/
theorem realForwardTransformsTheRealParts : Obligations.RealForwardTransformsTheRealParts :=
  ⟨rfl, fun _ => ⟨loadErrors_of_isLoading rfl, fun _ _ hload hn hx hw =>
    Leaves.completes (realForwardEffect_leaves hn hx hw) rfl hload hn⟩⟩

/-- Settles O34: the magnitude stage after those of REAL_FORWARD. -/
theorem realSpectrumLeavesScaledMagnitudes : Obligations.RealSpectrumLeavesScaledMagnitudes :=
  ⟨rfl, fun _ => ⟨loadErrors_of_isLoading rfl, fun _ _ hload hn hx hw =>
    Leaves.completes ((realForwardEffect_leaves hn hx hw).spectrum hn) rfl hload hn⟩⟩

/-- Settles O35: the imaginary parts dropped after the stages of INVERSE. -/
theorem inverseRealKeepsTheRealParts : Obligations.InverseRealKeepsTheRealParts :=
  ⟨rfl, fun _ => ⟨loadErrors_of_isLoading rfl, fun _ _ hload hn hx hw =>
    Leaves.completes (inverseEffect_leaves hn hx hw).dropImag rfl hload hn⟩⟩

/-- Settles O36: over the promoted input FORWARD is REAL_FORWARD, which sees there the real components it saw before. -/
theorem realForwardIsForwardOfThePromotedInput : Obligations.RealForwardIsForwardOfThePromotedInput := by
  intro s x m hreal hm
  have hre : ∀ k, k < s.loadCount → m.readRe s.cfg.fmt k = s.inMem.readRe s.cfg.fmt k := fun k hk => by
    rw [hreal k hk, (readEntry_eq_some.mp (hm k hk)).1, promoted]
  rw [exec_forward_eq_realForward (s := { s with inMem := m }) hm]
  exact exec_withIn (realForwardEffect_ignoresIn hre)

end Sys2Proof.Machine
end

section
/-! PROOF. Errors, completion and the interrupt line (60_exceptions.md R230 to R237, R245): what a CMD write does, which code a
completion gives, and how long a busy command takes. -/

namespace Sys2Proof.Machine

/-! ### A command in flight (R230 to R233) -/

section InFlight

variable {s : State}

theorem offerCmd_of_busy (w : Word) (hb : s.busy = true) : s.offerCmd w = s.overrunCmd := by
  simp [State.offerCmd, hb]

theorem step_of_noPending (h : s.pending = []) : step s = controllerTurn s := by
  rw [step, nextStep, h]

/-- A word put in flight is judged by the very next step. -/
theorem step_putInFlight (s : State) (w : Word) : step (s.putInFlight w) = controllerTurn (s.acceptCmd w) :=
  step_of_pending (s := s.putInFlight w) rfl

end InFlight

/-! ### The code of a completion (R234) -/

section Code

variable {s : State} {i : Instr}

/-- The twelve words of R113 are those the decoder accepts. -/
theorem mem_commandWords_iff {w : Word} :
    w ∈ [(0x01 : Word), 0x02, 0x03, 0x04, 0x05, 0x06, 0x10, 0x11, 0x12, 0x13, 0x14, 0x15] ↔
      ∃ i, decodeWord w = .ok i := by
  simp only [decodeWord_eq_ok_iff]
  constructor
  · rw [show [(0x01 : Word), 0x02, 0x03, 0x04, 0x05, 0x06, 0x10, 0x11, 0x12, 0x13, 0x14, 0x15] =
      [Instr.configure, .forward, .inverse, .realForward, .realSpectrum, .inverseReal, .loadComplex, .loadReal, .bitrev,
        .butterflyFwd, .butterflyInv, .scaleInv].map encode from rfl, List.mem_map]
    rintro ⟨i, -, rfl⟩
    exact ⟨i, rfl⟩
  · rintro ⟨i, rfl⟩
    cases i <;> decide

theorem encode_eq_one_iff : encode i = 0x01 ↔ i = .configure := by
  cases i <;> decide

/-- The seven words of the loading commands (R161). -/
theorem encode_mem_loadingWords_iff :
    encode i ∈ [(0x10 : Word), 0x11, 0x02, 0x03, 0x04, 0x05, 0x06] ↔ isLoading i = true := by
  cases i <;> decide

theorem validate_of_not_isLoading (hi : i ≠ .configure) (hload : isLoading i ≠ true) :
    s.validate i = s.checkConfigured := by
  cases i
  case configure => exact absurd rfl hi
  case bitrev | butterflyFwd | butterflyInv | scaleInv => rfl
  all_goals exact absurd rfl hload

/-- On a legal word the chain of R234 is the validation of its command. -/
theorem priorityCode_of_legal (h : decodeWord s.latch.word = .ok i) : priorityCode s = s.validate i := by
  refine (if_neg (not_not_intro (mem_commandWords_iff.mpr ⟨i, h⟩))).trans ?_
  simp only [decodeWord_ok h, encode_eq_one_iff, encode_mem_loadingWords_iff]
  by_cases hi : i = .configure
  · subst hi
    simp [State.validate, State.checkConfigure, State.reqLen, Config.nmax]
  rw [if_neg hi]
  by_cases hload : isLoading i = true
  · rw [validate_of_isLoading hload, State.checkLoading, State.lin]
    cases s.configured <;> simp [hload]
  · rw [validate_of_not_isLoading hi hload, State.checkConfigured]
    cases s.configured <;> simp [hload]

theorem priorityCode_of_illegal (h : ∀ i, decodeWord s.latch.word ≠ .ok i) : priorityCode s = .illegalCommand :=
  if_pos fun hmem => let ⟨i, hi⟩ := mem_commandWords_iff.mp hmem; h i hi

/-- A legal word completes as its command, an illegal one as an error with the code of the chain (R115, R234, R236). -/
theorem controllerTurn_of_busy (hb : s.busy = true) :
    (∃ i, priorityCode s = s.validate i ∧ controllerTurn s = exec i s) ∨
      (priorityCode s = .illegalCommand ∧ controllerTurn s = .next (s.raiseCmdError .illegalCommand)) := by
  by_cases hw : ∃ i, decodeWord s.latch.word = .ok i
  · obtain ⟨i, hi⟩ := hw
    exact .inl ⟨i, priorityCode_of_legal hi, controllerTurn_of_legal hb hi⟩
  · have hw := not_exists.mp hw
    exact .inr ⟨priorityCode_of_illegal hw, controllerTurn_of_illegal hb hw⟩

theorem controllerTurn_of_failing (hb : s.busy = true) (hc : priorityCode s ≠ .ok) :
    controllerTurn s = .next (s.raiseCmdError (priorityCode s)) := by
  rcases controllerTurn_of_busy hb with ⟨i, hcode, hturn⟩ | ⟨hcode, hturn⟩
  · rw [hturn]
    exact failsWith_of_validate hcode.symm hc
  · rw [hturn, hcode]

end Code

/-! ### Every busy command ends (R233) -/

/-- A completion, or the model's stop at an unwritten byte. -/
def CompletesOrStops (o : Host.Outcome State Fault Refusal) : Prop :=
  (∃ r, o = .fault r) ∨ ∃ t : State, o = .next t ∧ t.busy = false

section Ends

variable {s : State}

theorem exec_completesOrStops (i : Instr) (s : State) : CompletesOrStops (exec i s) := by
  cases h : exec i s with
  | next t =>
    obtain ⟨hbusy, -⟩ := everyCompletionRecordsItsOutcome i s t h
    exact .inr ⟨t, rfl, hbusy⟩
  | fault r => exact .inl ⟨r, rfl⟩
  | refused r => exact absurd h (exec_not_refused i s r)

theorem controllerTurn_completesOrStops (hb : s.busy = true) : CompletesOrStops (controllerTurn s) := by
  rcases controllerTurn_of_busy hb with ⟨i, -, hturn⟩ | ⟨-, hturn⟩
  · rw [hturn]
    exact exec_completesOrStops i s
  · exact .inr ⟨_, hturn, rfl⟩

/-- While busy no read reaches a memory, so every read answers (R90). -/
theorem hostRead_of_busy (hb : s.busy = true) (a : Nat) : ∃ t, hostRead s a = .next t := by
  unfold hostRead
  cases regionOf a with
  | regs o =>
    simp only
    cases regAt o <;> exact ⟨_, rfl⟩
  | mem k o => exact ⟨_, if_pos hb⟩

theorem hostAccess_of_busy (hb : s.busy = true) (x : Access) : ∃ t, hostAccess s x = .next t := by
  unfold hostAccess
  split
  · exact ⟨_, rfl⟩
  split
  · exact ⟨_, rfl⟩
  cases x with
  | read addr w => exact hostRead_of_busy hb _
  | write addr w v => exact ⟨_, rfl⟩

/-- A host access neither ends a command in flight nor takes away an event to come. -/
theorem hostAccess_keepsBusy {t : State} {x : Access} (hb : s.busy = true) (h : hostAccess s x = .next t) :
    t.busy = true ∧ t.pending = s.pending := by
  rcases hostAccess_next_cases h with ⟨r, rfl⟩ | ⟨-, r, rfl⟩ | ⟨v, u, hu, rfl⟩
  · exact ⟨hb, rfl⟩
  · exact ⟨hb, rfl⟩
  · cases hu
    case accepted => exact ⟨rfl, rfl⟩
    all_goals exact ⟨hb, rfl⟩

theorem run_one (M : Host.Core) (s : M.State) : M.run 1 s = M.step s := by
  rw [Host.Core.run]
  cases M.step s <;> rfl

theorem core_run_one (s : State) : Sys2Proof.core.run 1 s = step s := run_one Sys2Proof.core s

/-- The host accesses before the completion use up one event each; the controller's turn, or the end of the list, completes. -/
theorem exists_run_completesOrStops (hb : s.busy = true) (hrst : ∀ e ∈ s.pending, e ≠ .rst) :
    ∃ k, k ≤ s.pending.length + 1 ∧ CompletesOrStops (Sys2Proof.core.run k s) := by
  induction hp : s.pending generalizing s with
  | nil =>
    refine ⟨1, by simp, ?_⟩
    rw [core_run_one, step_of_noPending hp]
    exact controllerTurn_completesOrStops hb
  | cons e rest ih =>
    rw [hp, List.forall_mem_cons] at hrst
    have hstep := step_of_pending hp
    cases e with
    | host x =>
      obtain ⟨t, ht⟩ := hostAccess_of_busy (s := { s with pending := rest }) hb x
      obtain ⟨htb, htp⟩ := hostAccess_keepsBusy (s := { s with pending := rest }) hb ht
      obtain ⟨k, hk, hend⟩ := ih htb (by rw [htp]; exact hrst.2) htp
      refine ⟨k + 1, by simpa using hk, ?_⟩
      rwa [run_succ (M := Sys2Proof.core) (hstep.trans ht)]
    | controller =>
      refine ⟨1, by simp, ?_⟩
      rw [core_run_one, hstep]
      exact controllerTurn_completesOrStops hb
    | rst => exact absurd rfl hrst.1

end Ends

/-! ### The interrupt line (R245) -/

theorem irq_eq_true_iff (s : State) : s.irq = true ↔
    (s.done = true ∧ s.ieDone = true) ∨ ((s.err = true ∨ s.overrun = true ∨ s.accessErr = true) ∧ s.ieErr = true) := by
  simp only [State.irq, Bool.or_eq_true, Bool.and_eq_true, or_assoc]

/-! ### The statements -/

/-- Settles O6: by induction on the events to come. -/
theorem busyCommandCompletesOrStopsUnlessReset : Obligations.BusyCommandCompletesOrStopsUnlessReset :=
  fun _ hb hrst => exists_run_completesOrStops hb hrst

/-- Settles O7: the chain is the command's validation on a legal word, and ILLEGAL_COMMAND on the others. -/
theorem firstFailingCheckGivesTheCode : Obligations.FirstFailingCheckGivesTheCode := by
  refine ⟨rfl, fun s hb => ⟨fun t ht => ?_, fun hc => ⟨_, controllerTurn_of_failing hb hc⟩⟩⟩
  rcases controllerTurn_of_busy hb with ⟨i, hcode, hturn⟩ | ⟨hcode, hturn⟩
  · obtain ⟨-, -, herr, -⟩ := everyCompletionRecordsItsOutcome i s t (hturn.symm.trans ht)
    rw [herr, hcode]
  · cases hturn.symm.trans ht
    rw [hcode, raiseCmdError_errCode]

/-- Settles O4: the step is the controller's turn, which runs the command that the word decodes to. -/
theorem stepRunsTheDecodedCommand : Obligations.StepRunsTheDecodedCommand := by
  refine fun s i => ⟨fun hb hw => ⟨fun hp => ?_, fun rest hp => ?_⟩, ?_⟩
  · rw [step_of_noPending hp, controllerTurn_of_legal hb hw]
  · exact (step_of_pending hp).trans (controllerTurn_of_legal (s := { s with pending := rest }) hb hw)
  · rw [State.withFetchWord, tableWord_toNat, step_putInFlight]
    exact controllerTurn_of_legal (acceptCmd_busy s (encode i)) (decodeWord_encode i)

/-- Settles O8: each failure is `raise CmdError`, which changes the four fields. -/
theorem failedCommandsChangeOnlyTheOutcome : Obligations.FailedCommandsChangeOnlyTheOutcome :=
  ⟨fun _ _ hv => failsWith_of_validate rfl hv, fun _ hb hc => controllerTurn_of_failing hb hc⟩

/-- Settles O49: a CMD write offers its word, which is accepted while idle and lost while busy. -/
theorem commandWritesAreAcceptedOrLost : Obligations.CommandWritesAreAcceptedOrLost := by
  intro s v
  have hwrite : hostAccess s (.write (s.cfg.base + 0x014) .w32 v) = .next ((s.offerCmd v).answer .ack) :=
    hostAccess_writeReg s .cmd v
  rw [hwrite]
  constructor <;> intro hb
  · rw [offerCmd_of_idle v hb]
    rfl
  · rw [offerCmd_of_busy v hb]
    rfl

/-- Settles O54: the sources of the line bit by bit; after reset every one is 0. -/
theorem interruptLineFollowsItsSources : Obligations.InterruptLineFollowsItsSources :=
  ⟨irq_eq_true_iff, fun _ _ => rfl⟩

end Sys2Proof.Machine
end

section
/-! PROOF. Reset, and the primitive commands in sequence against the facade commands (70_reset_and_hazards.md R270, R284).

A command accepted after another one starts from what that one left, but for the fields that an acceptance and a completion
write. No stage of a transform reads those fields, except a load its latched input count; so the stages of FORWARD and INVERSE
answer as the primitive commands do one after the other. -/

namespace Sys2Proof.Machine

/-! ### The fields of the command in flight (R60, R232, R236) -/

/-- `s` with the fields of `c` that acceptance and successful completion of a command write. -/
def State.withCommandOf (s c : State) : State :=
  { s with lastCmd := c.lastCmd, latch := c.latch, errCode := c.errCode, busy := c.busy, done := c.done }

section CommandFields

variable {i : Instr} {s t : State} {w v : Word}

theorem withCommandOf_acceptCmd (s : State) (w : Word) : s.withCommandOf (s.acceptCmd w) = s.acceptCmd w := rfl

theorem acceptCmd_withCommandOf (s c : State) (w : Word) : (s.acceptCmd w).withCommandOf c = s.withCommandOf c := rfl

theorem finish_withCommandOf (s c : State) (e : ErrCode) : (s.finish e).withCommandOf c = s.withCommandOf c := rfl

/-- The load takes from the latch the input count only (R160). -/
theorem loadC_withCommandOf {c : State} (hlin : c.lin = s.lin) (h : loadC s = .ok t) :
    loadC (s.withCommandOf c) = .ok (t.withCommandOf c) := by
  have hcount : (s.withCommandOf c).loadCount = s.loadCount := congrArg (min · s.n) hlin
  obtain ⟨work, hwork, rfl⟩ := loadC_ok.mp h
  refine loadC_ok.mpr ⟨work, hcount ▸ hwork, ?_⟩
  rw [show (s.withCommandOf c).lin = s.lin from hlin]
  rfl

/-- The effects of BITREV, of the butterflies and of SCALE_INV take nothing from the latch (R164, R184 to R186). -/
theorem effectOf_withCommandOf (hi : i ≠ .configure) (hload : isLoading i ≠ true) (c : State)
    (h : effectOf i s = .ok t) : effectOf i (s.withCommandOf c) = .ok (t.withCommandOf c) := by
  cases i
  case configure => exact absurd rfl hi
  case bitrev =>
    obtain ⟨work, hwork, rfl⟩ := bitRev_ok.mp h
    exact bitRev_ok.mpr ⟨work, hwork, rfl⟩
  case butterflyFwd | butterflyInv =>
    obtain ⟨work, hwork, rfl⟩ := passes_ok.mp h
    exact passes_ok.mpr ⟨work, hwork, rfl⟩
  case scaleInv =>
    obtain ⟨work, hwork, rfl⟩ := scale_ok.mp h
    exact scale_ok.mpr ⟨work, hwork, rfl⟩
  all_goals exact absurd rfl hload

/-! ### A completed primitive command as a stage (R200, R284) -/

/-- An accepted command that loads nothing, on a configured block, is its effect, whatever the command fields hold. -/
theorem stage_of_exec (hi : i ≠ .configure) (hload : isLoading i ≠ true) (hc : s.configured = true)
    (h : exec i (s.acceptCmd w) = .next t) (c : State) :
    effectOf i (s.withCommandOf c) = .ok (t.withCommandOf c) := by
  have hv : (s.acceptCmd w).validate i = .ok := (validate_of_not_isLoading hi hload).trans (checkConfigured_ok.mpr hc)
  rcases exec_next_cases h with ⟨-, u, hu, rfl⟩ | ⟨hfail, -⟩
  · rw [finish_withCommandOf, ← acceptCmd_withCommandOf s c w]
    exact effectOf_withCommandOf hi hload c hu
  · exact absurd hv hfail

/-- An accepted LOAD_COMPLEX that completes without error is the load stage of the command `v` accepted in its place. -/
theorem loadC_of_exec (h : exec .loadComplex (s.acceptCmd w) = .next t) (hok : t.errCode = .ok) :
    (s.acceptCmd v).checkLoading = .ok ∧ loadC (s.acceptCmd v) = .ok (t.withCommandOf (s.acceptCmd v)) := by
  rcases exec_next_cases h with ⟨hv, u, hu, rfl⟩ | ⟨hfail, rfl⟩
  · have hload := loadC_withCommandOf (s := s.acceptCmd w) (c := s.acceptCmd v) rfl hu
    rw [acceptCmd_withCommandOf, withCommandOf_acceptCmd, ← finish_withCommandOf u _ .ok] at hload
    exact ⟨hv, hload⟩
  · exact absurd hok hfail

end CommandFields

/-! ### LOAD_COMPLEX; BITREV (R284) -/

section Sequence

variable {s t₁ t₂ : State} {w₁ w₂ : Word}

/-- LOAD_COMPLEX and BITREV accepted in turn are the first two stages of the facade command `v`, which passes its checks; the
block they leave is configured. -/
theorem loadC_bitRev_of_exec (h₁ : exec .loadComplex (s.acceptCmd w₁) = .next t₁) (hok : t₁.errCode = .ok)
    (h₂ : exec .bitrev (t₁.acceptCmd w₂) = .next t₂) (v : Word) :
    (s.acceptCmd v).checkLoading = .ok ∧ t₂.configured = true ∧
      (loadC (s.acceptCmd v)).bind bitRev = .ok (t₂.withCommandOf (s.acceptCmd v)) := by
  obtain ⟨hcheck, hload⟩ := loadC_of_exec (v := v) h₁ hok
  have hc₁ : t₁.configured = true :=
    (exec_configuration (by decide) h₁).configured.trans (configured_of_checkLoading hcheck)
  have hc₂ : t₂.configured = true := (exec_configuration (by decide) h₂).configured.trans hc₁
  have hrev : bitRev (t₁.withCommandOf (s.acceptCmd v)) = .ok (t₂.withCommandOf (s.acceptCmd v)) :=
    stage_of_exec (by decide) (by decide) hc₁ h₂ (s.acceptCmd v)
  exact ⟨hcheck, hc₂, bind_eq_ok.mpr ⟨_, hload, hrev⟩⟩

end Sequence

/-! ### Reset (R270) -/

theorem ctrlWord_afterReset (c : Config) (evs : List Event) : (State.afterReset c evs).ctrlWord = 0 := by
  simp [State.ctrlWord, State.afterReset, bitAt]

theorem statusWord_afterReset (c : Config) (evs : List Event) : (State.afterReset c evs).statusWord = 0 := by
  simp [State.statusWord, State.afterReset, bitAt]

/-! ### The statements -/

/-- Settles O37: each primitive command of a sequence is the stage of the facade command that stands in its place. -/
theorem primitiveSequencesAreTheFacadeCommands : Obligations.PrimitiveSequencesAreTheFacadeCommands := by
  intro s t₁ t₂ t₃ h₁ hok h₂
  refine ⟨fun h₃ => ?_, fun t₄ h₃ h₄ => ?_⟩
  · obtain ⟨hcheck, hc, hstages⟩ := loadC_bitRev_of_exec h₁ hok h₂ (encode .forward)
    have hpasses := stage_of_exec (by decide) (by decide) hc h₃ (s.acceptCmd (encode .forward))
    exact ⟨_, exec_next_of_effect (i := .forward) hcheck (bind_eq_ok.mpr ⟨_, hstages, hpasses⟩), rfl, rfl, rfl, rfl⟩
  · obtain ⟨hcheck, hc, hstages⟩ := loadC_bitRev_of_exec h₁ hok h₂ (encode .inverse)
    have hc₃ : t₃.configured = true := (exec_configuration (by decide) h₃).configured.trans hc
    have hpasses := stage_of_exec (by decide) (by decide) hc h₃ (s.acceptCmd (encode .inverse))
    have hscale := stage_of_exec (by decide) (by decide) hc₃ h₄ (s.acceptCmd (encode .inverse))
    exact ⟨_, exec_next_of_effect (i := .inverse) hcheck
      (bind_eq_ok.mpr ⟨_, bind_eq_ok.mpr ⟨_, hstages, hpasses⟩, hscale⟩), rfl, rfl, rfl, rfl⟩

/-- Settles O56: RST leaves the state of R270, register by register; its memories list no byte. -/
theorem resetClearsEveryRegister : Obligations.ResetClearsEveryRegister := by
  refine fun s => ⟨s.assertReset, rfl, rfl, ctrlWord_afterReset _ _, statusWord_afterReset _ _, rfl, rfl, rfl, rfl, rfl, rfl,
    rfl, fun r hr => ?_, fun k a => ?_⟩
  · simp only [List.mem_cons, List.not_mem_nil, or_false] at hr
    rcases hr with rfl | rfl | rfl <;> rfl
  · cases k <;> exact readByte_nil a

/-- Settles O57: nothing is configured, busy or written after reset. -/
theorem resetSatisfiesTheInvariant : Obligations.ResetSatisfiesTheInvariant :=
  fun _ evs hc => inv_afterReset evs hc

end Sys2Proof.Machine
end
